-- ==== Sys2Proof/Word.lean ====
section
/-! DEFINITION. The two word types of the machine (00_scope.md R6, R8): bytes and 16-bit words. -/

namespace Sys2Proof

/-- A byte: register contents, storage cells, opcode bytes (R6 data width). -/
abbrev Byte := BitVec 8

/-- A 16-bit word: SP, PC, register pairs, addresses (R6 address width). -/
abbrev Word := BitVec 16

end Sys2Proof
end

