-- ==== Sys2Proof/Config.lean ====
section
/-! DEFINITION. What an implementation fixes (00_scope.md R7) and the free values the spec leaves open
(10_state.md R42, `RAM_INIT = any`). -/

namespace Sys2Proof

/-- The byte arrays the MMU owns (10_state.md R31), by name. -/
inductive Store where
  | rom0 | rom1 | vram | eram | wram0 | wram1 | oam | io | hram | ie
deriving DecidableEq, Repr

/-- `FLAG_SOURCE` of 00_scope.md R7: where the carry and half-carry of the 8-bit ALU come from. -/
inductive FlagSource where
  | operands
  | postResult
deriving DecidableEq, Repr

/-- The named parameters of 00_scope.md R7, with their defaults. The state carries them, no step changes them
(log 1: DESIGN CHOICE, every configuration is covered). `RAM_INIT` is `Config.ramInit`. -/
structure Params where
  /-- `LOGIC_N`: what AND, OR and XOR write to N (decision D8). -/
  logicN : Bool := true
  /-- `FLAG_SOURCE` (decision D7). -/
  flagSource : FlagSource := .operands
  /-- `IRQ_DISPATCH` (decision D23). -/
  irqDispatch : Bool := false
  resetPC : Word := 0x0100
  resetSP : Word := 0xFFFE
  resetAF : Word := 0x01B0
  resetBC : Word := 0x0013
  resetDE : Word := 0x00D8
  resetHL : Word := 0x014D
  vramIndex : Nat := 0
  wram1Index : Nat := 0
  eramIndex : Nat := 0
deriving DecidableEq, Repr

/-- What the unwritten bytes of an array last with (log 8). -/
inductive Origin where
  /-- An array that a reset makes unspecified again (10_state.md R42), after so many resets. -/
  | volatile (resets : Nat)
  /-- An array of the cartridge that a reset and a power-off leave: its ROM and a persistent ERAM (R34, R42). -/
  | cartridge (number : Nat)
deriving DecidableEq, Repr

/-- `RAM_INIT` (00_scope.md R7, decision D25): the byte a storage cell holds before anything has written it. It has no
body, so every claim holds whatever the byte is. The arguments say what the array lasts with, which array it is and the
linear position in it (log 4: DESIGN CHOICE, safe). -/
opaque Config.ramInit : (origin : Origin) → (store : Store) → (index : Nat) → Byte

end Sys2Proof
end

