-- ==== Sys2Proof/Machine/State.lean ====
section
/-! DEFINITION. The state of the machine as plain data (10_state.md), the reasons a step can stop, and the state after
reset (10_state.md R41 to R43). -/

namespace Sys2Proof.Machine

/-! ### Storage -/

/-- One byte array, held as the cells that something has written: pairs of a linear position and a byte, positions
strictly rising (log 4, log 5). A position that is not listed has never been written. -/
structure Memory where
  cells : List Host.Cell := []
deriving DecidableEq, Repr

/-- A storage cell behind the address space: an array of 10_state.md R31 and a linear position in it, bank number times
bank size plus offset (20_memory.md R63, R74). -/
structure Cell where
  store : Store
  index : Nat
deriving DecidableEq, Repr

/-! ### The CPU engine -/

/-- The four flags (10_state.md R24): zero, subtract, half-carry, carry. Register F is a view of them (R25). -/
structure Flags where
  z : Bool
  n : Bool
  h : Bool
  cy : Bool
deriving DecidableEq, Repr

/-- The pending DI/EI toggle `ime_sched` (10_state.md R29). -/
inductive ImeSched where
  /-- Nothing pending. -/
  | none
  /-- `(v, 0)`: written by the DI or EI of this call. -/
  | fresh (v : Bool)
  /-- `(v, 1)`: applied at the end of this call. -/
  | aged (v : Bool)
deriving DecidableEq, Repr

/-- The registers and control state of the CPU engine (10_state.md R20 to R29). -/
structure Cpu where
  a : Byte
  b : Byte
  c : Byte
  d : Byte
  e : Byte
  h : Byte
  l : Byte
  flags : Flags
  sp : Word
  pc : Word
  halted : Bool
  /-- The interrupt master enable (R28). -/
  ime : Bool
  imeSched : ImeSched
deriving DecidableEq, Repr

/-! ### The MMU -/

/-- The byte arrays, bank indices and lock flags of the MMU (10_state.md R31 to R36). -/
structure Mmu where
  rom0 : Memory := {}
  rom1 : Memory := {}
  vram : Memory := {}
  eram : Memory := {}
  wram0 : Memory := {}
  wram1 : Memory := {}
  oam : Memory := {}
  io : Memory := {}
  hram : Memory := {}
  /-- The byte at 0xFFFF, position 0 of its array (R35). -/
  ie : Memory := {}
  rom1Index : Nat := 0
  vramIndex : Nat := 0
  eramIndex : Nat := 0
  wram1Index : Nat := 0
  vramLock : Bool := false
  oamLock : Bool := false
deriving DecidableEq, Repr

/-! ### The cartridge -/

/-- The cartridge record (10_state.md R37). -/
structure Cartridge where
  mbc : Byte
  romBanks : Nat
  ramBanks : Nat
  persistent : Bool
  title : Vector Byte 16
deriving DecidableEq, Repr

/-- The load-fatal reasons the block itself detects (20_memory.md R100, R110; decision D35). -/
inductive LoadError where
  /-- The image is shorter than 0x150 bytes. -/
  | unreadableHeader
  | badChecksum
  /-- The ROM or RAM size code is in no table. -/
  | invalidSizeCode
  /-- The image is shorter than its header's ROM size. -/
  | romCorrupt
deriving DecidableEq, Repr

/-- What the host may do between two calls of `execute()` (20_memory.md R91, R92; 70_reset_and_hazards.md R350, R353). -/
inductive HostAction where
  /-- Port `setROM1Index` (R88). -/
  | setROM1Index (i : Nat)
  /-- Port `setVRAMLock` (R90). -/
  | setVRAMLock (locked : Bool)
  /-- Port `setOAMLock` (R90). -/
  | setOAMLock (locked : Bool)
  /-- A write of the PPU shim, or of any device, to a byte of `io` (R91). -/
  | writeIo (offset : BitVec 7) (v : Byte)
  /-- Reset of the core with its cartridge (R350). -/
  | reset
  /-- Power-off: the session ends and the cartridge leaves the machine (10_state.md R34, 20_memory.md R75). -/
  | powerOff
  /-- Power-on with the cartridge of that number in the host's count, which holds that image (R353). -/
  | powerOn (number : Nat) (image : List Byte)
deriving DecidableEq, Repr

/-! ### The whole state -/

/-- The state of the core. -/
structure State where
  /-- The parameters of 00_scope.md R7; no step changes them (log 1). -/
  params : Params
  cpu : Cpu
  mmu : Mmu
  /-- None until `initCartridge` succeeds (10_state.md R43). -/
  cart : Option Cartridge
  /-- The fatal outcome of the last power-on, if it failed (20_memory.md R108; log 9). -/
  loadError : Option LoadError
  /-- The number, in the host's count, of the cartridge that was inserted last (the model's own field, log 9). -/
  slot : Nat
  /-- The non-volatile ERAM arrays (10_state.md R34) of the cartridges that are out of the machine, by the cartridge's
  number, numbers strictly rising (the model's own field, log 9). -/
  shelf : List (Nat × Memory)
  /-- The cycle count of the current call, after the call its return value (00_scope.md R14; the model's own field,
  log 10). -/
  cycles : Nat
  /-- The number of resets so far: it indexes the free values of RAM (the model's own field, log 8). -/
  epoch : Nat
  /-- The host's actions to come, one batch for each step (the model's own field, log 7). -/
  host : List (List HostAction)
deriving DecidableEq, Repr

/-! ### How a step can stop -/

/-- Faults of the model. -/
inductive Fault where
  /-- Raised by `Machine.execute` if the bytes it fetched do not decode: the decoder-invariant class of 60_exceptions.md
  R323. Safe: it stops where the machine could not go on, and no state reaches it (R139). -/
  | decoderInvariant
deriving DecidableEq, Repr

/-- Refusals: what the spec puts outside the model's domain. -/
inductive Refusal where
  /-- An instruction without a meaning. No arm raises it. Safe. -/
  | notModelled (mnemonic : String)
  /-- Raised by `Machine.execute` when no cartridge has been loaded: 10_state.md R43, 93_implementation_defined.md U22.
  Safe. -/
  | noCartridge
  /-- Raised by `Machine.execute` after a load-fatal error: 20_memory.md R108, 93_implementation_defined.md U22. Safe. -/
  | loadFatal (reason : LoadError)
  /-- Raised by the arithmetic instructions of 41_alu_a.md other than `ADD A,r` under `FLAG_SOURCE = post_result`: R186
  forbids a model to give them a meaning (93_implementation_defined.md U1). Safe. -/
  | flagSourcePostResult
deriving DecidableEq, Repr

/-- The outcome of an instruction or a step. -/
abbrev Outcome := Host.Outcome State Fault Refusal

/-! ### Reset -/

/-- The CPU engine after reset (10_state.md R41, 70_reset_and_hazards.md R351; log 3). -/
def Cpu.reset (p : Params) : Cpu where
  a := p.resetAF.extractLsb' 8 8
  b := p.resetBC.extractLsb' 8 8
  c := p.resetBC.extractLsb' 0 8
  d := p.resetDE.extractLsb' 8 8
  e := p.resetDE.extractLsb' 0 8
  h := p.resetHL.extractLsb' 8 8
  l := p.resetHL.extractLsb' 0 8
  flags := {
    z := p.resetAF.getLsbD 7
    n := p.resetAF.getLsbD 6
    h := p.resetAF.getLsbD 5
    cy := p.resetAF.getLsbD 4 }
  sp := p.resetSP
  pc := p.resetPC
  halted := false
  ime := false
  imeSched := .none

/-- The MMU after reset but for its arrays (10_state.md R42): indices at their parameters, locks clear. -/
def Mmu.resetControl (p : Params) (m : Mmu) : Mmu :=
  { m with
    rom1Index := 0
    vramIndex := p.vramIndex
    eramIndex := p.eramIndex
    wram1Index := p.wram1Index
    vramLock := false
    oamLock := false }

/-- The machine right after reset, with the default parameters: no byte of storage written, no cartridge (R43), no array
kept for one, no host action pending (log 3, 4, 6, 7, 9). -/
def State.reset : State where
  params := {}
  cpu := Cpu.reset {}
  mmu := Mmu.resetControl {} {}
  cart := none
  loadError := none
  slot := 0
  shelf := []
  cycles := 0
  epoch := 0
  host := []

end Sys2Proof.Machine
end

