-- ==== Sys2Proof/Machine/Flags.lean ====
section
/-! DEFINITION. The flag byte and every flag computation and byte result the spec gives (10_state.md R24, R25;
41_alu_a.md R161; 42_cb_group.md; 44_incdec_add16.md; 46_misc_alu.md), as functions of operand values. -/

namespace Sys2Proof.Machine

/-! ### Register F -/

/-- `F = Z ++ N ++ H ++ Cy ++ 0000` (10_state.md R25). -/
def Flags.toByte (f : Flags) : Byte :=
  BitVec.ofNat 8 (128 * f.z.toNat + 64 * f.n.toNat + 32 * f.h.toNat + 16 * f.cy.toNat)

/-- The flags of a byte written to F: bits 7 to 4; bits 3 to 0 are discarded (10_state.md R24). -/
def Flags.ofByte (v : Byte) : Flags where
  z := v.getLsbD 7
  n := v.getLsbD 6
  h := v.getLsbD 5
  cy := v.getLsbD 4

/-! ### The carry helpers of R161 -/

/-- The low nibble, `a & 0xF`. -/
def lowNibble (a : Byte) : Nat := a.toNat % 16

/-- Carry out of bit 7. -/
def carry8 (a b : Byte) (c : Bool) : Bool := decide (a.toNat + b.toNat + c.toNat > 0xFF)

/-- Carry out of bit 3. -/
def half8 (a b : Byte) (c : Bool) : Bool := decide (lowNibble a + lowNibble b + c.toNat > 0xF)

/-- Borrow into bit 7. -/
def borrow8 (a b : Byte) (c : Bool) : Bool := decide (a.toNat < b.toNat + c.toNat)

/-- Borrow into bit 3. -/
def hborrow8 (a b : Byte) (c : Bool) : Bool := decide (lowNibble a < lowNibble b + c.toNat)

/-! ### The 8-bit ALU -/

/-- A carry flag as a byte, 0 or 1. -/
def carryByte (c : Bool) : Byte := BitVec.ofNat 8 c.toNat

/-- `(a + v + c) mod 256` (R162, R165). -/
def addResult (a v : Byte) (c : Bool) : Byte := a + v + carryByte c

/-- The flags of ADD and ADC from the operands (R162, R165). -/
def addFlags (a v : Byte) (c : Bool) : Flags where
  z := decide (addResult a v c = 0)
  n := false
  h := half8 a v c
  cy := carry8 a v c

/-- The flags of `ADD A,r` under `FLAG_SOURCE = post_result` (R186): the helpers see the result in place of A. -/
def addFlagsPostResult (a v : Byte) : Flags where
  z := decide (addResult a v false = 0)
  n := false
  h := half8 (addResult a v false) v false
  cy := carry8 (addResult a v false) v false

/-- `(a - v - c) mod 256` (R168, R171). -/
def subResult (a v : Byte) (c : Bool) : Byte := a - v - carryByte c

/-- The flags of SUB, SBC and CP (R168, R171, R183). -/
def subFlags (a v : Byte) (c : Bool) : Flags where
  z := decide (subResult a v c = 0)
  n := true
  h := hborrow8 a v c
  cy := borrow8 a v c

/-- The flags of AND, XOR and OR from the result (R174, R177, R180): N is `LOGIC_N`, H is 1 for AND alone, Cy is 0. -/
def logicFlags (logicN h : Bool) (res : Byte) : Flags where
  z := decide (res = 0)
  n := logicN
  h := h
  cy := false

/-- The flags of an 8-bit INC of `v` (R250): Cy is kept. -/
def incFlags (old : Flags) (v : Byte) : Flags :=
  { old with z := decide (v + 1 = 0), n := false, h := decide (lowNibble v = 0xF) }

/-- The flags of an 8-bit DEC of `v` (R252): Cy is kept. -/
def decFlags (old : Flags) (v : Byte) : Flags :=
  { old with z := decide (v - 1 = 0), n := true, h := decide (lowNibble v = 0x0) }

/-! ### 16-bit additions -/

/-- The flags of `ADD HL,rr` (R256): carries out of bits 11 and 15; Z is kept. -/
def addHlFlags (old : Flags) (a b : Word) : Flags :=
  { old with
    n := false
    h := decide (a.toNat % 0x1000 + b.toNat % 0x1000 > 0x0FFF)
    cy := decide (a.toNat + b.toNat > 0xFFFF) }

/-- The flags of `ADD SP,e` and `LD HL,SP+e` (R257, R238): carries out of bits 3 and 7 of the unsigned sum of the low
byte of SP and the raw operand byte. -/
def spOffsetFlags (sp : Word) (e : Byte) : Flags where
  z := false
  n := false
  h := decide (sp.toNat % 0x10 + e.toNat % 0x10 > 0x0F)
  cy := decide (sp.toNat % 0x100 + e.toNat > 0xFF)

/-! ### Rotates and shifts: the result and the bit shifted out -/

/-- A bit as a byte's bit 7. -/
def topBit (c : Bool) : Byte := carryByte c <<< 7

/-- Rotate left circular (R191). -/
def rotateLeft (v : Byte) : Byte × Bool := ((v <<< 1) ||| carryByte (v.getLsbD 7), v.getLsbD 7)

/-- Rotate right circular (R193). -/
def rotateRight (v : Byte) : Byte × Bool := ((v >>> 1) ||| topBit (v.getLsbD 0), v.getLsbD 0)

/-- Rotate left through carry (R195). -/
def rotateLeftCarry (cy : Bool) (v : Byte) : Byte × Bool := ((v <<< 1) ||| carryByte cy, v.getLsbD 7)

/-- Rotate right through carry (R197). -/
def rotateRightCarry (cy : Bool) (v : Byte) : Byte × Bool := ((v >>> 1) ||| topBit cy, v.getLsbD 0)

/-- Shift left arithmetic (R199). -/
def shiftLeft (v : Byte) : Byte × Bool := (v <<< 1, v.getLsbD 7)

/-- Shift right arithmetic (R201). -/
def shiftRightArith (v : Byte) : Byte × Bool := ((v >>> 1) ||| (v &&& 0x80), v.getLsbD 0)

/-- Exchange the nibbles (R203); no bit leaves. -/
def swapNibbles (v : Byte) : Byte × Bool := (((v &&& 0x0F) <<< 4) ||| (v >>> 4), false)

/-- Shift right logical (R205). -/
def shiftRight (v : Byte) : Byte × Bool := (v >>> 1, v.getLsbD 0)

/-- The flags of a CB rotate, shift or SWAP (R191 to R206). -/
def shiftFlags (res : Byte) (out : Bool) : Flags where
  z := decide (res = 0)
  n := false
  h := false
  cy := out

/-- The flags of RLCA, RRCA, RLA and RRA (R284 to R287): Z is always 0. -/
def accRotateFlags (out : Bool) : Flags where
  z := false
  n := false
  h := false
  cy := out

/-! ### Single bits -/

/-- The flags of BIT (R207): Z is the complement of the bit, Cy is kept. -/
def bitFlags (old : Flags) (b : Nat) (v : Byte) : Flags :=
  { old with z := !v.getLsbD b, n := false, h := true }

/-- `v & ~(1 << b)` (R209). -/
def clearBit (b : Nat) (v : Byte) : Byte := v &&& ~~~(1#8 <<< b)

/-- `v | (1 << b)` (R211). -/
def setBit (b : Nat) (v : Byte) : Byte := v ||| (1#8 <<< b)

/-! ### Decimal adjust -/

/-- The correction DAA adds (N = 0) or subtracts (N = 1) (R280). -/
def daaAdjust (f : Flags) (a : Byte) : Byte :=
  let digit := f.h || (!f.n && decide (lowNibble a > 0x09))
  let tens := f.cy || (!f.n && decide (a.toNat > 0x99))
  (if digit then 0x06 else 0x00) ||| (if tens then 0x60 else 0x00)

/-- The adjusted A (R280). -/
def daaResult (f : Flags) (a : Byte) : Byte :=
  if f.n then a - daaAdjust f a else a + daaAdjust f a

/-- The flags after DAA (R280): N is kept, H is 0, Cy is kept or set. -/
def daaFlags (f : Flags) (a : Byte) : Flags :=
  { f with
    z := decide (daaResult f a = 0)
    h := false
    cy := f.cy || (!f.n && decide (a.toNat > 0x99)) }

end Sys2Proof.Machine
end

