-- ==== Sys2Proof/Syntax.lean ====
section
/-! DEFINITION. The instructions: one constructor for each row of spec/opcode_table.json, and their operand names
(30_encoding.md R124 to R127). -/

namespace Sys2Proof

/-- The registers the 3-bit field `r8` names (R124); code 6, the byte at HL, has instruction rows of its own. -/
inductive Reg8 where
  | b | c | d | e | h | l | a
deriving DecidableEq, Repr

/-- The 16-bit operands of the field `rr` (R125). -/
inductive Reg16 where
  | bc | de | hl | sp
deriving DecidableEq, Repr

/-- The pairs of the field `qq` other than AF, which has rows of its own (R126). -/
inductive Pair where
  | bc | de | hl
deriving DecidableEq, Repr

/-- The conditions of the field `cc` (R127). -/
inductive Cond where
  | nz | z | nc | c
deriving DecidableEq, Repr

/-- The instruction set: 117 rows. Immediates are fields; `e` is the raw displacement byte, `b` a bit index, `t` an RST
target address. -/
inductive Instr where
  /-- `NOP` (R310). -/
  | nop
  /-- `LD rr,nn` (R236). -/
  | ldRrNn (rr : Reg16) (nn : Word)
  /-- `LD (BC),A` (R222). -/
  | ldBcA
  /-- `LD (DE),A` (R223). -/
  | ldDeA
  /-- `LD (HL+),A` (R226). -/
  | ldHlIncA
  /-- `LD (HL-),A` (R227). -/
  | ldHlDecA
  /-- `LD A,(BC)` (R224). -/
  | ldABc
  /-- `LD A,(DE)` (R225). -/
  | ldADe
  /-- `LD A,(HL+)` (R228). -/
  | ldAHlInc
  /-- `LD A,(HL-)` (R229). -/
  | ldAHlDec
  /-- `INC rr` (R254). -/
  | incRr (rr : Reg16)
  /-- `DEC rr` (R255). -/
  | decRr (rr : Reg16)
  /-- `INC r` (R250). -/
  | incR (r : Reg8)
  /-- `INC (HL)` (R251). -/
  | incHl
  /-- `DEC r` (R252). -/
  | decR (r : Reg8)
  /-- `DEC (HL)` (R253). -/
  | decHl
  /-- `LD r,n` (R220). -/
  | ldRN (r : Reg8) (n : Byte)
  /-- `LD (HL),n` (R221). -/
  | ldHlN (n : Byte)
  /-- `RLCA` (R284). -/
  | rlca
  /-- `RRCA` (R285). -/
  | rrca
  /-- `RLA` (R286). -/
  | rla
  /-- `RRA` (R287). -/
  | rra
  /-- `LD (nn),SP` (R239). -/
  | ldNnSp (nn : Word)
  /-- `ADD HL,rr` (R256). -/
  | addHlRr (rr : Reg16)
  /-- `STOP` (R312). -/
  | stop (n : Byte)
  /-- `JR e` (R294). -/
  | jrE (e : Byte)
  /-- `JR cc,e` (R295). -/
  | jrCcE (cc : Cond) (e : Byte)
  /-- `DAA` (R280). -/
  | daa
  /-- `CPL` (R281). -/
  | cpl
  /-- `SCF` (R283). -/
  | scf
  /-- `CCF` (R282). -/
  | ccf
  /-- `LD r,r'` (R150). -/
  | ldRR (dst src : Reg8)
  /-- `LD r,(HL)` (R151). -/
  | ldRHl (r : Reg8)
  /-- `LD (HL),r` (R152). -/
  | ldHlR (r : Reg8)
  /-- `HALT` (R311). -/
  | halt
  /-- `ADD A,r` (R162). -/
  | addAR (r : Reg8)
  /-- `ADD A,(HL)` (R163). -/
  | addAHl
  /-- `ADD A,n` (R164). -/
  | addAN (n : Byte)
  /-- `ADC A,r` (R165). -/
  | adcAR (r : Reg8)
  /-- `ADC A,(HL)` (R166). -/
  | adcAHl
  /-- `ADC A,n` (R167). -/
  | adcAN (n : Byte)
  /-- `SUB r` (R168). -/
  | subR (r : Reg8)
  /-- `SUB (HL)` (R169). -/
  | subHl
  /-- `SUB n` (R170). -/
  | subN (n : Byte)
  /-- `SBC A,r` (R171). -/
  | sbcAR (r : Reg8)
  /-- `SBC A,(HL)` (R172). -/
  | sbcAHl
  /-- `SBC A,n` (R173). -/
  | sbcAN (n : Byte)
  /-- `AND r` (R174). -/
  | andR (r : Reg8)
  /-- `AND (HL)` (R175). -/
  | andHl
  /-- `AND n` (R176). -/
  | andN (n : Byte)
  /-- `XOR r` (R177). -/
  | xorR (r : Reg8)
  /-- `XOR (HL)` (R178). -/
  | xorHl
  /-- `XOR n` (R179). -/
  | xorN (n : Byte)
  /-- `OR r` (R180). -/
  | orR (r : Reg8)
  /-- `OR (HL)` (R181). -/
  | orHl
  /-- `OR n` (R182). -/
  | orN (n : Byte)
  /-- `CP r` (R183). -/
  | cpR (r : Reg8)
  /-- `CP (HL)` (R184). -/
  | cpHl
  /-- `CP n` (R185). -/
  | cpN (n : Byte)
  /-- `RET cc` (R299). -/
  | retCc (cc : Cond)
  /-- `POP rr` (R272). -/
  | popRr (q : Pair)
  /-- `POP AF` (R273). -/
  | popAf
  /-- `JP cc,nn` (R292). -/
  | jpCcNn (cc : Cond) (nn : Word)
  /-- `JP nn` (R291). -/
  | jpNn (nn : Word)
  /-- `CALL cc,nn` (R297). -/
  | callCcNn (cc : Cond) (nn : Word)
  /-- `PUSH rr` (R270). -/
  | pushRr (q : Pair)
  /-- `PUSH AF` (R271). -/
  | pushAf
  /-- `RST t` (R301). -/
  | rst (t : Word)
  /-- `RET` (R298). -/
  | ret
  /-- `RETI` (R300). -/
  | reti
  /-- `PREFIX CB` (R190). -/
  | prefixCb
  /-- `CALL nn` (R296). -/
  | callNn (nn : Word)
  /-- `LDH (n),A` (R230). -/
  | ldhNA (n : Byte)
  /-- `LD (C),A` (R232). -/
  | ldCA
  /-- `ADD SP,e` (R257). -/
  | addSpE (e : Byte)
  /-- `JP HL` (R293). -/
  | jpHl
  /-- `LD (nn),A` (R234). -/
  | ldNnA (nn : Word)
  /-- `LDH A,(n)` (R231). -/
  | ldhAN (n : Byte)
  /-- `LD A,(C)` (R233). -/
  | ldAC
  /-- `DI` (R313). -/
  | di
  /-- `LD HL,SP+e` (R238). -/
  | ldHlSpE (e : Byte)
  /-- `LD SP,HL` (R237). -/
  | ldSpHl
  /-- `LD A,(nn)` (R235). -/
  | ldANn (nn : Word)
  /-- `EI` (R314). -/
  | ei
  /-- `UNKNOWN 0xD3` (R315). -/
  | unknownD3
  /-- `UNKNOWN 0xDB` (R315). -/
  | unknownDB
  /-- `UNKNOWN 0xDD` (R315). -/
  | unknownDD
  /-- `UNKNOWN 0xE3` (R315). -/
  | unknownE3
  /-- `UNKNOWN 0xE4` (R315). -/
  | unknownE4
  /-- `UNKNOWN 0xEB` (R315). -/
  | unknownEB
  /-- `UNKNOWN 0xEC` (R315). -/
  | unknownEC
  /-- `UNKNOWN 0xED` (R315). -/
  | unknownED
  /-- `UNKNOWN 0xF4` (R315). -/
  | unknownF4
  /-- `UNKNOWN 0xFC` (R315). -/
  | unknownFC
  /-- `UNKNOWN 0xFD` (R315). -/
  | unknownFD
  /-- `RLC r` (R191). -/
  | rlcR (r : Reg8)
  /-- `RLC (HL)` (R192). -/
  | rlcHl
  /-- `RRC r` (R193). -/
  | rrcR (r : Reg8)
  /-- `RRC (HL)` (R194). -/
  | rrcHl
  /-- `RL r` (R195). -/
  | rlR (r : Reg8)
  /-- `RL (HL)` (R196). -/
  | rlHl
  /-- `RR r` (R197). -/
  | rrR (r : Reg8)
  /-- `RR (HL)` (R198). -/
  | rrHl
  /-- `SLA r` (R199). -/
  | slaR (r : Reg8)
  /-- `SLA (HL)` (R200). -/
  | slaHl
  /-- `SRA r` (R201). -/
  | sraR (r : Reg8)
  /-- `SRA (HL)` (R202). -/
  | sraHl
  /-- `SWAP r` (R203). -/
  | swapR (r : Reg8)
  /-- `SWAP (HL)` (R204). -/
  | swapHl
  /-- `SRL r` (R205). -/
  | srlR (r : Reg8)
  /-- `SRL (HL)` (R206). -/
  | srlHl
  /-- `BIT b,r` (R207). -/
  | bitR (b : Nat) (r : Reg8)
  /-- `BIT b,(HL)` (R208). -/
  | bitHl (b : Nat)
  /-- `RES b,r` (R209). -/
  | resR (b : Nat) (r : Reg8)
  /-- `RES b,(HL)` (R210). -/
  | resHl (b : Nat)
  /-- `SET b,r` (R211). -/
  | setR (b : Nat) (r : Reg8)
  /-- `SET b,(HL)` (R212). -/
  | setHl (b : Nat)
deriving DecidableEq, Repr

end Sys2Proof
end

