-- ==== Sys2Proof/WellFormed.lean ====
section
/-! DEFINITION. The checks on an instruction that its types do not already make: a bit index is 0 to 7
(42_cb_group.md R207 to R212) and an RST target is one of the eight vectors (47_control.md R301). -/

namespace Sys2Proof

/-- A bit index of BIT, RES and SET: `b = op2[5:3]`, 0 to 7 (R129). -/
def bitIndexOk (b : Nat) : Bool := decide (b < 8)

/-- An RST target: `t = 8 * y` for a 3-bit `y` (R301). -/
def rstTargetOk (t : Word) : Bool := decide (t.toNat % 8 = 0) && decide (t.toNat < 64)

/-- The instruction is one the encoding can hold. Every operand of the other rows is legal by its type. -/
def Instr.wellFormed : Instr → Bool
  | .bitR b _ | .bitHl b | .resR b _ | .resHl b | .setR b _ | .setHl b => bitIndexOk b
  | .rst t => rstTargetOk t
  | _ => true

end Sys2Proof
end

