-- ==== Sys2Proof/Decode.lean ====
section
/-! DEFINITION. From bytes to instructions and back (30_encoding.md R121 to R133, R138, R139). The decoder is total: every
first byte is a row of the table (R131, R134, R139); it refuses, by name, only a byte list that ends inside an
instruction. -/

namespace Sys2Proof

/-- Why a byte list holds no whole instruction. -/
inductive DecodeError where
  /-- No byte at all. -/
  | empty
  /-- The list ends before the operand bytes of the opcode `op` (R122). -/
  | missingOperand (op : Byte)
deriving DecidableEq, Repr

/-! ### Fields and field tables -/

/-- `x = op[7:6]` (R123). -/
def fieldX (op : Byte) : Nat := op.toNat / 64
/-- `y = op[5:3]` (R123). -/
def fieldY (op : Byte) : Nat := op.toNat / 8 % 8
/-- `z = op[2:0]` (R123). -/
def fieldZ (op : Byte) : Nat := op.toNat % 8

/-- An opcode byte from its fields (R123). -/
def opByte (x y z : Nat) : Byte := BitVec.ofNat 8 (64 * x + 8 * y + z)

/-- Table `r8` (R124); `none` is code 6, the byte at HL. -/
def reg8Of : Nat → Option Reg8
  | 0 => some .b
  | 1 => some .c
  | 2 => some .d
  | 3 => some .e
  | 4 => some .h
  | 5 => some .l
  | 6 => none
  | _ => some .a

/-- Table `r8` read the other way (R124). -/
def Reg8.code : Reg8 → Nat
  | .b => 0
  | .c => 1
  | .d => 2
  | .e => 3
  | .h => 4
  | .l => 5
  | .a => 7

/-- Table `rr` (R125). -/
def reg16Of : Nat → Reg16
  | 0 => .bc
  | 1 => .de
  | 2 => .hl
  | _ => .sp

/-- Table `rr` read the other way (R125). -/
def Reg16.code : Reg16 → Nat
  | .bc => 0
  | .de => 1
  | .hl => 2
  | .sp => 3

/-- Table `qq` (R126); `none` is code 3, AF. -/
def pairOf : Nat → Option Pair
  | 0 => some .bc
  | 1 => some .de
  | 2 => some .hl
  | _ => none

/-- Table `qq` read the other way (R126). -/
def Pair.code : Pair → Nat
  | .bc => 0
  | .de => 1
  | .hl => 2

/-- Table `cc` (R127). -/
def condOf : Nat → Cond
  | 0 => .nz
  | 1 => .z
  | 2 => .nc
  | _ => .c

/-- Table `cc` read the other way (R127). -/
def Cond.code : Cond → Nat
  | .nz => 0
  | .z => 1
  | .nc => 2
  | .c => 3

/-! ### The opcode maps -/

/-- What the first byte asks for (the formats of R122). -/
inductive OpForm where
  /-- `OP`: nothing more. -/
  | op (i : Instr)
  /-- `OP_N` and `OP_E`: one operand byte. -/
  | opN (f : Byte → Instr)
  /-- `OP_NN`: two operand bytes, low byte first. -/
  | opNN (f : Word → Instr)
  /-- `CB_OP`: the second opcode byte. -/
  | cb

/-- The ALU operation field on a register (R128). -/
def aluRegOf (r : Reg8) : Nat → Instr
  | 0 => .addAR r
  | 1 => .adcAR r
  | 2 => .subR r
  | 3 => .sbcAR r
  | 4 => .andR r
  | 5 => .xorR r
  | 6 => .orR r
  | _ => .cpR r

/-- The ALU operation field on the byte at HL (R128). -/
def aluHlOf : Nat → Instr
  | 0 => .addAHl
  | 1 => .adcAHl
  | 2 => .subHl
  | 3 => .sbcAHl
  | 4 => .andHl
  | 5 => .xorHl
  | 6 => .orHl
  | _ => .cpHl

/-- The ALU operation field on an immediate (R128). -/
def aluImmOf (n : Byte) : Nat → Instr
  | 0 => .addAN n
  | 1 => .adcAN n
  | 2 => .subN n
  | 3 => .sbcAN n
  | 4 => .andN n
  | 5 => .xorN n
  | 6 => .orN n
  | _ => .cpN n

/-- Opcodes with `x = 0` (rows 0x to 3x of R132). -/
def decodeX0 (y : Nat) : Nat → OpForm
  | 0 => match y with
    | 0 => .op .nop
    | 1 => .opNN .ldNnSp
    | 2 => .opN .stop
    | 3 => .opN .jrE
    | y => .opN (.jrCcE (condOf (y - 4)))
  | 1 => if y % 2 = 0 then .opNN (.ldRrNn (reg16Of (y / 2))) else .op (.addHlRr (reg16Of (y / 2)))
  | 2 => match y with
    | 0 => .op .ldBcA
    | 1 => .op .ldABc
    | 2 => .op .ldDeA
    | 3 => .op .ldADe
    | 4 => .op .ldHlIncA
    | 5 => .op .ldAHlInc
    | 6 => .op .ldHlDecA
    | _ => .op .ldAHlDec
  | 3 => if y % 2 = 0 then .op (.incRr (reg16Of (y / 2))) else .op (.decRr (reg16Of (y / 2)))
  | 4 => match reg8Of y with
    | some r => .op (.incR r)
    | none => .op .incHl
  | 5 => match reg8Of y with
    | some r => .op (.decR r)
    | none => .op .decHl
  | 6 => match reg8Of y with
    | some r => .opN (.ldRN r)
    | none => .opN .ldHlN
  | _ => match y with
    | 0 => .op .rlca
    | 1 => .op .rrca
    | 2 => .op .rla
    | 3 => .op .rra
    | 4 => .op .daa
    | 5 => .op .cpl
    | 6 => .op .scf
    | _ => .op .ccf

/-- Opcodes with `x = 1`: the load group and HALT in the slot of its hole (40_ld_r_r.md R150 to R153). -/
def decodeX1 (y z : Nat) : OpForm :=
  match reg8Of y, reg8Of z with
  | some dst, some src => .op (.ldRR dst src)
  | some dst, none => .op (.ldRHl dst)
  | none, some src => .op (.ldHlR src)
  | none, none => .op .halt

/-- Opcodes with `x = 2`: the ALU group (41_alu_a.md R160). -/
def decodeX2 (y z : Nat) : OpForm :=
  match reg8Of z with
  | some r => .op (aluRegOf r y)
  | none => .op (aluHlOf y)

/-- Opcodes with `x = 3` (rows Cx to Fx of R132, with the unknown opcodes of R134). -/
def decodeX3 (y : Nat) : Nat → OpForm
  | 0 => match y with
    | 4 => .opN .ldhNA
    | 5 => .opN .addSpE
    | 6 => .opN .ldhAN
    | 7 => .opN .ldHlSpE
    | y => .op (.retCc (condOf y))
  | 1 => match y with
    | 1 => .op .ret
    | 3 => .op .reti
    | 5 => .op .jpHl
    | 7 => .op .ldSpHl
    | y => match pairOf (y / 2) with
      | some q => .op (.popRr q)
      | none => .op .popAf
  | 2 => match y with
    | 4 => .op .ldCA
    | 5 => .opNN .ldNnA
    | 6 => .op .ldAC
    | 7 => .opNN .ldANn
    | y => .opNN (.jpCcNn (condOf y))
  | 3 => match y with
    | 0 => .opNN .jpNn
    | 1 => .cb
    | 2 => .op .unknownD3
    | 3 => .op .unknownDB
    | 4 => .op .unknownE3
    | 5 => .op .unknownEB
    | 6 => .op .di
    | _ => .op .ei
  | 4 => match y with
    | 4 => .op .unknownE4
    | 5 => .op .unknownEC
    | 6 => .op .unknownF4
    | 7 => .op .unknownFC
    | y => .opNN (.callCcNn (condOf y))
  | 5 => match y with
    | 1 => .opNN .callNn
    | 3 => .op .unknownDD
    | 5 => .op .unknownED
    | 7 => .op .unknownFD
    | y => match pairOf (y / 2) with
      | some q => .op (.pushRr q)
      | none => .op .pushAf
  | 6 => .opN (fun n => aluImmOf n y)
  | _ => .op (.rst (BitVec.ofNat 16 (8 * y)))

/-- The base opcode matrix, by the fields of the first byte (R131, R132). -/
def decodeOp (op : Byte) : OpForm :=
  match fieldX op with
  | 0 => decodeX0 (fieldY op) (fieldZ op)
  | 1 => decodeX1 (fieldY op) (fieldZ op)
  | 2 => decodeX2 (fieldY op) (fieldZ op)
  | _ => decodeX3 (fieldY op) (fieldZ op)

/-- The rotate and shift operations on a register (R129, `x = 0`). -/
def rotateRegOf (r : Reg8) : Nat → Instr
  | 0 => .rlcR r
  | 1 => .rrcR r
  | 2 => .rlR r
  | 3 => .rrR r
  | 4 => .slaR r
  | 5 => .sraR r
  | 6 => .swapR r
  | _ => .srlR r

/-- The rotate and shift operations on the byte at HL (R129, `x = 0`). -/
def rotateHlOf : Nat → Instr
  | 0 => .rlcHl
  | 1 => .rrcHl
  | 2 => .rlHl
  | 3 => .rrHl
  | 4 => .slaHl
  | 5 => .sraHl
  | 6 => .swapHl
  | _ => .srlHl

/-- The second byte of a two-byte opcode (R129, R133, 42_cb_group.md R190): all 256 values are instructions. -/
def decodeCb (op2 : Byte) : Instr :=
  let y := fieldY op2
  match fieldX op2, reg8Of (fieldZ op2) with
  | 0, some r => rotateRegOf r y
  | 0, none => rotateHlOf y
  | 1, some r => .bitR y r
  | 1, none => .bitHl y
  | 2, some r => .resR y r
  | 2, none => .resHl y
  | _, some r => .setR y r
  | _, none => .setHl y

/-! ### Byte lists -/

/-- A 16-bit immediate: `nn = byte2 ++ byte1`, low byte first (R130). -/
def immWord (lo hi : Byte) : Word := hi ++ lo

/-- The high byte of a word (00_scope.md R8). -/
def highByte (v : Word) : Byte := v.extractLsb' 8 8

/-- The low byte of a word (00_scope.md R8). -/
def lowByte (v : Word) : Byte := v.extractLsb' 0 8

/-- The instruction at the head of a byte list, and the rest. 0xCB with nothing after it is the table's own row
`PREFIX CB` (R190; log 13); with a byte after it the two are one instruction. -/
def decode : List Byte → Except DecodeError (Instr × List Byte)
  | [] => .error .empty
  | op :: rest => match decodeOp op, rest with
    | .op i, rest => .ok (i, rest)
    | .opN f, n :: rest => .ok (f n, rest)
    | .opN _, [] => .error (.missingOperand op)
    | .opNN f, lo :: hi :: rest => .ok (f (immWord lo hi), rest)
    | .opNN _, [_] => .error (.missingOperand op)
    | .opNN _, [] => .error (.missingOperand op)
    | .cb, op2 :: rest => .ok (decodeCb op2, rest)
    | .cb, [] => .ok (.prefixCb, [])

/-- The length of an instruction from its first byte alone (R121, R138). -/
def instrLength (op : Byte) : Nat :=
  match decodeOp op with
  | .op _ => 1
  | .opN _ => 2
  | .opNN _ => 3
  | .cb => 2

/-! ### The encoder -/

/-- The bytes of an instruction with a 16-bit immediate. -/
def encodeNN (op : Byte) (nn : Word) : List Byte := [op, lowByte nn, highByte nn]

/-- The bytes of a two-byte opcode (R129). -/
def encodeCb (x y z : Nat) : List Byte := [0xCB, opByte x y z]

/-- The bytes of an instruction, first byte first: the tables R124 to R129 and the matrices R132 and R133. -/
def encode : Instr → List Byte
  | .nop => [0x00]
  | .ldRrNn rr nn => encodeNN (opByte 0 (2 * rr.code) 1) nn
  | .ldBcA => [0x02]
  | .ldDeA => [0x12]
  | .ldHlIncA => [0x22]
  | .ldHlDecA => [0x32]
  | .ldABc => [0x0A]
  | .ldADe => [0x1A]
  | .ldAHlInc => [0x2A]
  | .ldAHlDec => [0x3A]
  | .incRr rr => [opByte 0 (2 * rr.code) 3]
  | .decRr rr => [opByte 0 (2 * rr.code + 1) 3]
  | .incR r => [opByte 0 r.code 4]
  | .incHl => [0x34]
  | .decR r => [opByte 0 r.code 5]
  | .decHl => [0x35]
  | .ldRN r n => [opByte 0 r.code 6, n]
  | .ldHlN n => [0x36, n]
  | .rlca => [0x07]
  | .rrca => [0x0F]
  | .rla => [0x17]
  | .rra => [0x1F]
  | .ldNnSp nn => encodeNN 0x08 nn
  | .addHlRr rr => [opByte 0 (2 * rr.code + 1) 1]
  | .stop n => [0x10, n]
  | .jrE e => [0x18, e]
  | .jrCcE cc e => [opByte 0 (4 + cc.code) 0, e]
  | .daa => [0x27]
  | .cpl => [0x2F]
  | .scf => [0x37]
  | .ccf => [0x3F]
  | .ldRR dst src => [opByte 1 dst.code src.code]
  | .ldRHl r => [opByte 1 r.code 6]
  | .ldHlR r => [opByte 1 6 r.code]
  | .halt => [0x76]
  | .addAR r => [opByte 2 0 r.code]
  | .addAHl => [0x86]
  | .addAN n => [0xC6, n]
  | .adcAR r => [opByte 2 1 r.code]
  | .adcAHl => [0x8E]
  | .adcAN n => [0xCE, n]
  | .subR r => [opByte 2 2 r.code]
  | .subHl => [0x96]
  | .subN n => [0xD6, n]
  | .sbcAR r => [opByte 2 3 r.code]
  | .sbcAHl => [0x9E]
  | .sbcAN n => [0xDE, n]
  | .andR r => [opByte 2 4 r.code]
  | .andHl => [0xA6]
  | .andN n => [0xE6, n]
  | .xorR r => [opByte 2 5 r.code]
  | .xorHl => [0xAE]
  | .xorN n => [0xEE, n]
  | .orR r => [opByte 2 6 r.code]
  | .orHl => [0xB6]
  | .orN n => [0xF6, n]
  | .cpR r => [opByte 2 7 r.code]
  | .cpHl => [0xBE]
  | .cpN n => [0xFE, n]
  | .retCc cc => [opByte 3 cc.code 0]
  | .popRr q => [opByte 3 (2 * q.code) 1]
  | .popAf => [0xF1]
  | .jpCcNn cc nn => encodeNN (opByte 3 cc.code 2) nn
  | .jpNn nn => encodeNN 0xC3 nn
  | .callCcNn cc nn => encodeNN (opByte 3 cc.code 4) nn
  | .pushRr q => [opByte 3 (2 * q.code) 5]
  | .pushAf => [0xF5]
  | .rst t => [opByte 3 (t.toNat / 8) 7]
  | .ret => [0xC9]
  | .reti => [0xD9]
  | .prefixCb => [0xCB]
  | .callNn nn => encodeNN 0xCD nn
  | .ldhNA n => [0xE0, n]
  | .ldCA => [0xE2]
  | .addSpE e => [0xE8, e]
  | .jpHl => [0xE9]
  | .ldNnA nn => encodeNN 0xEA nn
  | .ldhAN n => [0xF0, n]
  | .ldAC => [0xF2]
  | .di => [0xF3]
  | .ldHlSpE e => [0xF8, e]
  | .ldSpHl => [0xF9]
  | .ldANn nn => encodeNN 0xFA nn
  | .ei => [0xFB]
  | .unknownD3 => [0xD3]
  | .unknownDB => [0xDB]
  | .unknownDD => [0xDD]
  | .unknownE3 => [0xE3]
  | .unknownE4 => [0xE4]
  | .unknownEB => [0xEB]
  | .unknownEC => [0xEC]
  | .unknownED => [0xED]
  | .unknownF4 => [0xF4]
  | .unknownFC => [0xFC]
  | .unknownFD => [0xFD]
  | .rlcR r => encodeCb 0 0 r.code
  | .rlcHl => encodeCb 0 0 6
  | .rrcR r => encodeCb 0 1 r.code
  | .rrcHl => encodeCb 0 1 6
  | .rlR r => encodeCb 0 2 r.code
  | .rlHl => encodeCb 0 2 6
  | .rrR r => encodeCb 0 3 r.code
  | .rrHl => encodeCb 0 3 6
  | .slaR r => encodeCb 0 4 r.code
  | .slaHl => encodeCb 0 4 6
  | .sraR r => encodeCb 0 5 r.code
  | .sraHl => encodeCb 0 5 6
  | .swapR r => encodeCb 0 6 r.code
  | .swapHl => encodeCb 0 6 6
  | .srlR r => encodeCb 0 7 r.code
  | .srlHl => encodeCb 0 7 6
  | .bitR b r => encodeCb 1 b r.code
  | .bitHl b => encodeCb 1 b 6
  | .resR b r => encodeCb 2 b r.code
  | .resHl b => encodeCb 2 b 6
  | .setR b r => encodeCb 3 b r.code
  | .setHl b => encodeCb 3 b 6

/-! ### The opcode table's words -/

/-- The first `k` bytes of a word of the opcode table: the byte at the lowest address is the least significant. -/
def wordBytes : (k : Nat) → (w : Nat) → List Byte
  | 0, _ => []
  | k + 1, w => BitVec.ofNat 8 w :: wordBytes k (w / 256)

/-- The instruction the decoder reads from a word of the opcode table: its `nbits` bits, then zeros where the instruction
is longer (log 13 says what this gives for the rows behind the 0xCB byte). -/
def decodeTableWord (nbits w : Nat) : Option Instr :=
  match decode (wordBytes ((nbits + 7) / 8) w) with
  | .ok (i, _) => some i
  | .error _ => match decode (wordBytes 3 w) with
    | .ok (i, _) => some i
    | .error _ => none

end Sys2Proof
end

