-- ==== Sys2Proof/Machine/Ops.lean ====
section
/-! DEFINITION. The named operations over memory and registers: the sparse byte arrays, the address decode of the MMU
(20_memory.md R60 to R77), the counted accesses and the stack (00_scope.md R11, R12, R14), and interrupt entry and return
(60_exceptions.md R328 to R331). -/

namespace Sys2Proof.Machine

/-! ### Sparse byte arrays -/

/-- What a list of pairs holds at a position: the cells of an array, and the shelf of kept arrays. -/
def lookupCells {α : Type} : List (Nat × α) → Nat → Option α
  | [], _ => none
  | (k, v) :: rest, i => if k = i then some v else lookupCells rest i

/-- The pairs with position `i` holding `v`, kept in rising order. -/
def insertCells {α : Type} : List (Nat × α) → Nat → α → List (Nat × α)
  | [], i, v => [(i, v)]
  | (k, w) :: rest, i, v =>
    if i < k then (i, v) :: (k, w) :: rest
    else if i = k then (i, v) :: rest
    else (k, w) :: insertCells rest i v

/-- The pairs without position `i`. -/
def eraseCells {α : Type} (cells : List (Nat × α)) (i : Nat) : List (Nat × α) := cells.filter (fun c => c.1 != i)

/-- The positions rise strictly and none lies below `lo`. -/
def risingAbove {α : Type} : (lo : Nat) → List (Nat × α) → Bool
  | _, [] => true
  | lo, (k, _) :: rest => decide (lo ≤ k) && risingAbove (k + 1) rest

/-- The byte listed at a position of an array, if any. -/
def Memory.lookup (m : Memory) (i : Nat) : Option Byte := lookupCells m.cells i

/-- The array with one byte written. -/
def Memory.write (m : Memory) (i : Nat) (v : Byte) : Memory := { cells := insertCells m.cells i v }

/-- The canonical form of an array: positions strictly rising. An unlisted position reads as a free value
(`State.readCell`), to which no listed byte is known equal, so nothing else is asked (log 4). -/
def Memory.wf (m : Memory) : Bool := risingAbove 0 m.cells

/-- Every listed position lies below `size`. -/
def Memory.below (m : Memory) (size : Nat) : Bool := m.cells.all (fun c => decide (c.1 < size))

/-- The cells of consecutive bytes from a position on. -/
def consecutiveCells : (start : Nat) → List Byte → List Host.Cell
  | _, [] => []
  | i, v :: rest => (i, v) :: consecutiveCells (i + 1) rest

/-- An array filled from position 0 on. -/
def Memory.ofBytes (bytes : List Byte) : Memory := { cells := consecutiveCells 0 bytes }

/-- The listed cells of an array that lie below `size`, written one by one into an empty array: canonical whatever the
cells given were. -/
def Memory.restrict (m : Memory) (size : Nat) : Memory :=
  m.cells.foldl (fun acc c => if c.1 < size then acc.write c.1 c.2 else acc) {}

/-! ### The storage behind the MMU -/

/-- The byte array of a name (10_state.md R31). -/
def Mmu.array (m : Mmu) : Store → Memory
  | .rom0 => m.rom0
  | .rom1 => m.rom1
  | .vram => m.vram
  | .eram => m.eram
  | .wram0 => m.wram0
  | .wram1 => m.wram1
  | .oam => m.oam
  | .io => m.io
  | .hram => m.hram
  | .ie => m.ie

/-- The MMU with one byte array replaced. -/
def Mmu.setArray (m : Mmu) (st : Store) (x : Memory) : Mmu :=
  match st with
  | .rom0 => { m with rom0 := x }
  | .rom1 => { m with rom1 := x }
  | .vram => { m with vram := x }
  | .eram => { m with eram := x }
  | .wram0 => { m with wram0 := x }
  | .wram1 => { m with wram1 := x }
  | .oam => { m with oam := x }
  | .io => { m with io := x }
  | .hram => { m with hram := x }
  | .ie => { m with ie := x }

/-- `rom_bank_amount`; 0 while there is no cartridge (log 6). -/
def State.romBanks (s : State) : Nat :=
  match s.cart with
  | some c => c.romBanks
  | none => 0

/-- `ram_bank_amount`; 0 while there is no cartridge (log 6). -/
def State.ramBanks (s : State) : Nat :=
  match s.cart with
  | some c => c.ramBanks
  | none => 0

/-- The cartridge record says the ERAM is battery-backed (20_memory.md R105). -/
def State.persistent (s : State) : Bool :=
  match s.cart with
  | some c => c.persistent
  | none => false

/-- The array loses its contents at a reset (10_state.md R42): every one but the ROM arrays and a persistent ERAM. -/
def State.volatileStore (s : State) : Store → Bool
  | .rom0 => false
  | .rom1 => false
  | .eram => !s.persistent
  | _ => true

/-- The byte a storage cell holds that nothing has written since it became unspecified: a free value (10_state.md R42,
`RAM_INIT = any`; log 4). -/
def State.unwrittenByte (s : State) (c : Cell) : Byte :=
  Config.ramInit (if s.volatileStore c.store then .volatile s.epoch else .cartridge s.slot) c.store c.index

/-- The byte in a storage cell. -/
def State.readCell (s : State) (c : Cell) : Byte :=
  match (s.mmu.array c.store).lookup c.index with
  | some v => v
  | none => s.unwrittenByte c

/-- The state with a storage cell written. -/
def State.writeCell (s : State) (c : Cell) (v : Byte) : State :=
  { s with mmu := s.mmu.setArray c.store ((s.mmu.array c.store).write c.index v) }

/-! ### Address decode -/

/-- The regions of the address space (20_memory.md R60). -/
inductive Region where
  | rom0 | rom1 | vram | eram | wram0 | wram1 | echo | oam | unassigned | io | hram | ie
deriving DecidableEq, Repr

/-- The region of an address (20_memory.md R60). -/
def regionOf (a : Word) : Region :=
  if a.toNat < 0x4000 then .rom0
  else if a.toNat < 0x8000 then .rom1
  else if a.toNat < 0xA000 then .vram
  else if a.toNat < 0xC000 then .eram
  else if a.toNat < 0xD000 then .wram0
  else if a.toNat < 0xE000 then .wram1
  else if a.toNat < 0xFE00 then .echo
  else if a.toNat < 0xFEA0 then .oam
  else if a.toNat < 0xFF00 then .unassigned
  else if a.toNat < 0xFF80 then .io
  else if a.toNat < 0xFFFF then .hram
  else .ie

/-- The echo redirect (20_memory.md R62). -/
def redirect (a : Word) : Word := if regionOf a = .echo then a - 0x2000 else a

/-- The storage cell an address selects, after the redirect: bank select (20_memory.md R63, R74), none where the bank
index is invalid (R64) or the address is in no region (R61). -/
def State.locate (s : State) (addr : Word) : Option Cell :=
  let a := redirect addr
  match regionOf a with
  | .rom0 => some ⟨.rom0, a.toNat⟩
  | .rom1 =>
    if s.mmu.rom1Index < s.romBanks - 1 then
      some ⟨.rom1, s.mmu.rom1Index * 0x4000 + (a.toNat - 0x4000)⟩
    else none
  | .vram =>
    if s.mmu.vramIndex < 2 then some ⟨.vram, s.mmu.vramIndex * 0x2000 + (a.toNat - 0x8000)⟩ else none
  | .eram =>
    if s.mmu.eramIndex < s.ramBanks then
      some ⟨.eram, s.mmu.eramIndex * 0x2000 + (a.toNat - 0xA000)⟩
    else none
  | .wram0 => some ⟨.wram0, a.toNat - 0xC000⟩
  | .wram1 =>
    if s.mmu.wram1Index < 7 then some ⟨.wram1, s.mmu.wram1Index * 0x1000 + (a.toNat - 0xD000)⟩ else none
  | .echo => none
  | .oam => some ⟨.oam, a.toNat - 0xFE00⟩
  | .unassigned => none
  | .io => some ⟨.io, a.toNat - 0xFF00⟩
  | .hram => some ⟨.hram, a.toNat - 0xFF80⟩
  | .ie => some ⟨.ie, 0⟩

/-- The lock gate (20_memory.md R65): the address is in locked VRAM or locked OAM. -/
def State.lockDenied (s : State) (addr : Word) : Bool :=
  match regionOf (redirect addr) with
  | .vram => s.mmu.vramLock
  | .oam => s.mmu.oamLock
  | _ => false

/-- The address is in the read-only range 0x0000 to 0x7FFF (20_memory.md R71). -/
def romAddress (addr : Word) : Bool :=
  match regionOf (redirect addr) with
  | .rom0 => true
  | .rom1 => true
  | _ => false

/-- `FILL_BYTE` (00_scope.md R6): what a denied or degraded read returns. -/
def fillByte : Byte := 0xFF

/-- `readByte(a, ignore_lock)` (20_memory.md R66, R67, R68). -/
def State.readByteWith (s : State) (ignoreLock : Bool) (addr : Word) : Byte :=
  if !ignoreLock && s.lockDenied addr then fillByte
  else match s.locate addr with
    | some c => s.readCell c
    | none => fillByte

/-- `readByte(a)` as every CPU access uses it (20_memory.md R66). -/
def State.readByte (s : State) (addr : Word) : Byte := s.readByteWith false addr

/-- The cell a write to the address lands in, none where the write is dropped: ROM (20_memory.md R71), a lock (R72), an
invalid bank (R73), no region (R61). -/
def State.writeTarget (s : State) (addr : Word) : Option Cell :=
  if romAddress addr || s.lockDenied addr then none else s.locate addr

/-- `writeByte(a, v)` (20_memory.md R70). -/
def State.writeByte (s : State) (addr : Word) (v : Byte) : State :=
  match s.writeTarget addr with
  | some c => s.writeCell c v
  | none => s

/-! ### Counted accesses (00_scope.md R11, R14) -/

/-- One byte access: `CYCLES_PER_ACCESS` more (00_scope.md R6). -/
def State.tick (s : State) : State := { s with cycles := s.cycles + 4 }

/-- `MemRead(addr, 1)` (R11). -/
def State.memRead (s : State) (addr : Word) : Byte × State := (s.readByte addr, s.tick)

/-- `MemWrite(addr, 1, v)` (R11). -/
def State.memWrite (s : State) (addr : Word) (v : Byte) : State := (s.writeByte addr v).tick

/-- `MemWrite(addr, 2, v)`: the low byte at the lower address (R11, 20_memory.md R78). -/
def State.memWrite16 (s : State) (addr : Word) (v : Word) : State :=
  (s.memWrite addr (lowByte v)).memWrite (addr + 1) (highByte v)

/-! ### CPU registers -/

/-- The state with PC replaced. -/
def State.setPc (s : State) (v : Word) : State := { s with cpu := { s.cpu with pc := v } }

/-- The state with SP replaced. -/
def State.setSp (s : State) (v : Word) : State := { s with cpu := { s.cpu with sp := v } }

/-- The state with A replaced. -/
def State.setA (s : State) (v : Byte) : State := { s with cpu := { s.cpu with a := v } }

/-- The state with the flags replaced. -/
def State.setFlags (s : State) (f : Flags) : State := { s with cpu := { s.cpu with flags := f } }

/-- The state with `halted` replaced. -/
def State.setHalted (s : State) (v : Bool) : State := { s with cpu := { s.cpu with halted := v } }

/-- The state with `ime` replaced. -/
def State.setIme (s : State) (v : Bool) : State := { s with cpu := { s.cpu with ime := v } }

/-- The state with `ime_sched` replaced. -/
def State.setImeSched (s : State) (v : ImeSched) : State := { s with cpu := { s.cpu with imeSched := v } }

/-- `Fetch8()` (00_scope.md R11). -/
def State.fetch8 (s : State) : Byte × State :=
  let (v, s) := s.memRead s.cpu.pc
  (v, s.setPc (s.cpu.pc + 1))

/-! ### The stack (00_scope.md R12) -/

/-- One byte onto the stack: SP down by one, then the write. -/
def State.push8 (s : State) (v : Byte) : State :=
  let s := s.setSp (s.cpu.sp - 1)
  s.memWrite s.cpu.sp v

/-- `Push16(v)`: the high byte first (R12). -/
def State.push16 (s : State) (v : Word) : State := (s.push8 (highByte v)).push8 (lowByte v)

/-- One byte off the stack: the read, then SP up by one. -/
def State.pop8 (s : State) : Byte × State :=
  let (v, s) := s.memRead s.cpu.sp
  (v, s.setSp (s.cpu.sp + 1))

/-- `Pop16()`: the low byte first (R12). -/
def State.pop16 (s : State) : Word × State :=
  let (lo, s) := s.pop8
  let (hi, s) := s.pop8
  (hi ++ lo, s)

/-! ### Interrupts (60_exceptions.md section 3) -/

/-- The interrupt request byte IF, `io[0x0F]` (R327). -/
def ifCell : Cell := ⟨.io, 0x0F⟩

/-- The interrupt enable byte IE (10_state.md R35). -/
def ieCell : Cell := ⟨.ie, 0⟩

/-- `pend <- ie & io[0x0F] & 0x1F`, read past the lock gate and at no cycle cost (R328). -/
def State.pendingInterrupts (s : State) : Byte := s.readCell ieCell &&& s.readCell ifCell &&& 0x1F

/-- The number of the lowest set bit of `pend`, 0 to 4 (R329). -/
def lowestInterrupt (pend : Byte) : Nat :=
  if pend.getLsbD 0 then 0
  else if pend.getLsbD 1 then 1
  else if pend.getLsbD 2 then 2
  else if pend.getLsbD 3 then 3
  else 4

/-- The entry address of interrupt `i`: `0x0040 + 8 * i` (R327, R330). -/
def interruptVector (i : Nat) : Word := BitVec.ofNat 16 (0x40 + 8 * i)

/-- Interrupt entry for source `i` (R330): acknowledge, mask, discard the pending toggle, push PC, go to the vector;
the call returns 20. -/
def State.interruptEntry (s : State) (i : Nat) : State :=
  let s := s.writeCell ifCell (s.readCell ifCell &&& ~~~(1#8 <<< i))
  let s := s.setIme false
  let s := s.setImeSched .none
  let s := s.push16 s.cpu.pc
  let s := s.setPc (interruptVector i)
  { s with cycles := 20 }

/-- Return from interrupt (R331, 47_control.md R300): pop PC, then set `ime` at once; `ime_sched` is left as it is. -/
def State.interruptReturn (s : State) : State :=
  let (v, s) := s.pop16
  (s.setPc v).setIme true

/-- The end-of-call rule for the delayed toggle (R326). -/
def State.endOfCall (s : State) : State :=
  match s.cpu.imeSched with
  | .aged v => (s.setIme v).setImeSched .none
  | .fresh v => s.setImeSched (.aged v)
  | .none => s

end Sys2Proof.Machine
end

