-- ==== Sys2Proof/Machine/Operands.lean ====
section
/-! DEFINITION. Every operand form of the instructions: 8-bit registers, 16-bit registers and views, the byte at HL, the
high page, signed displacements and conditions (10_state.md R20, R21, R30; 30_encoding.md R124 to R130). -/

namespace Sys2Proof.Machine

/-! ### 8-bit registers -/

/-- `r8[i]` for a register operand (30_encoding.md R124). -/
def State.reg8 (s : State) : Reg8 → Byte
  | .a => s.cpu.a
  | .b => s.cpu.b
  | .c => s.cpu.c
  | .d => s.cpu.d
  | .e => s.cpu.e
  | .h => s.cpu.h
  | .l => s.cpu.l

/-- The state with an 8-bit register written. -/
def State.setReg8 (s : State) (r : Reg8) (v : Byte) : State :=
  match r with
  | .a => { s with cpu := { s.cpu with a := v } }
  | .b => { s with cpu := { s.cpu with b := v } }
  | .c => { s with cpu := { s.cpu with c := v } }
  | .d => { s with cpu := { s.cpu with d := v } }
  | .e => { s with cpu := { s.cpu with e := v } }
  | .h => { s with cpu := { s.cpu with h := v } }
  | .l => { s with cpu := { s.cpu with l := v } }

/-! ### 16-bit views: the first-named register is the high byte (10_state.md R21) -/

/-- `BC = B ++ C`. -/
def State.bc (s : State) : Word := s.cpu.b ++ s.cpu.c

/-- `DE = D ++ E`. -/
def State.de (s : State) : Word := s.cpu.d ++ s.cpu.e

/-- `HL = H ++ L`. -/
def State.hl (s : State) : Word := s.cpu.h ++ s.cpu.l

/-- Register F as a byte (10_state.md R25). -/
def State.f (s : State) : Byte := s.cpu.flags.toByte

/-- `AF = A ++ F`. -/
def State.af (s : State) : Word := s.cpu.a ++ s.f

/-- `BC <- v`. -/
def State.setBc (s : State) (v : Word) : State :=
  { s with cpu := { s.cpu with b := highByte v, c := lowByte v } }

/-- `DE <- v`. -/
def State.setDe (s : State) (v : Word) : State :=
  { s with cpu := { s.cpu with d := highByte v, e := lowByte v } }

/-- `HL <- v`. -/
def State.setHl (s : State) (v : Word) : State :=
  { s with cpu := { s.cpu with h := highByte v, l := lowByte v } }

/-- `AF <- v`: the low nibble of F is discarded (10_state.md R21, R24). -/
def State.setAf (s : State) (v : Word) : State :=
  { s with cpu := { s.cpu with a := highByte v, flags := Flags.ofByte (lowByte v) } }

/-- The operand of the field `rr` (30_encoding.md R125). -/
def State.reg16 (s : State) : Reg16 → Word
  | .bc => s.bc
  | .de => s.de
  | .hl => s.hl
  | .sp => s.cpu.sp

/-- The state with the operand of the field `rr` written. -/
def State.setReg16 (s : State) (rr : Reg16) (v : Word) : State :=
  match rr with
  | .bc => s.setBc v
  | .de => s.setDe v
  | .hl => s.setHl v
  | .sp => s.setSp v

/-- The operand of the field `qq` other than AF (30_encoding.md R126). -/
def State.pair (s : State) : Pair → Word
  | .bc => s.bc
  | .de => s.de
  | .hl => s.hl

/-- The state with the operand of the field `qq` written. -/
def State.setPair (s : State) (q : Pair) (v : Word) : State :=
  match q with
  | .bc => s.setBc v
  | .de => s.setDe v
  | .hl => s.setHl v

/-! ### Memory operands and immediates -/

/-- The byte at HL as a source: one `MemRead` (30_encoding.md R124). -/
def State.readHl (s : State) : Byte × State := s.memRead s.hl

/-- The high-page address `0xFF00 + n`, `n` unsigned (30_encoding.md R130, 20_memory.md R81). -/
def highPage (n : Byte) : Word := 0xFF00 + n.setWidth 16

/-- `sext_16(e)`: a displacement byte as two's complement (00_scope.md R9). -/
def signExtend16 (e : Byte) : Word := e.signExtend 16

/-! ### Conditions -/

/-- The condition `cc` holds on the flags (47_control.md R290). -/
def Flags.holds (f : Flags) : Cond → Bool
  | .nz => !f.z
  | .z => f.z
  | .nc => !f.cy
  | .c => f.cy

end Sys2Proof.Machine
end

