-- ==== Sys2Proof/Machine/Alu8.lean ====
section
/-! DEFINITION. The 8-bit ALU instructions (41_alu_a.md R160 to R186): eight operations on A, each with a register, the
byte at HL or an immediate as the second operand. -/

namespace Sys2Proof.Machine

/-! ### The shared operations -/

/-- The carry helpers are defined for `FLAG_SOURCE = operands`; R186 says a model must not give the other mode a meaning
beyond `ADD A,r` (log 2). -/
def withOperandFlags (s : State) (run : Outcome) : Outcome :=
  match s.params.flagSource with
  | .operands => run
  | .postResult => .refused .flagSourcePostResult

/-- A and the flags written. -/
def State.setAluResult (s : State) (res : Byte) (f : Flags) : State := (s.setA res).setFlags f

/-- ADD and ADC with carry-in `c` (R162, R165). -/
def aluAdd (v : Byte) (c : Bool) (s : State) : Outcome :=
  withOperandFlags s (.next (s.setAluResult (addResult s.cpu.a v c) (addFlags s.cpu.a v c)))

/-- `ADD A,r`, the one operation that R186 defines in both modes of `FLAG_SOURCE`. -/
def aluAddRegister (v : Byte) (s : State) : Outcome :=
  match s.params.flagSource with
  | .operands => .next (s.setAluResult (addResult s.cpu.a v false) (addFlags s.cpu.a v false))
  | .postResult => .next (s.setAluResult (addResult s.cpu.a v false) (addFlagsPostResult s.cpu.a v))

/-- SUB and SBC with borrow-in `c` (R168, R171). -/
def aluSub (v : Byte) (c : Bool) (s : State) : Outcome :=
  withOperandFlags s (.next (s.setAluResult (subResult s.cpu.a v c) (subFlags s.cpu.a v c)))

/-- AND (R174): H is 1. -/
def aluAnd (v : Byte) (s : State) : Outcome :=
  .next (s.setAluResult (s.cpu.a &&& v) (logicFlags s.params.logicN true (s.cpu.a &&& v)))

/-- XOR (R177): H is 0. -/
def aluXor (v : Byte) (s : State) : Outcome :=
  .next (s.setAluResult (s.cpu.a ^^^ v) (logicFlags s.params.logicN false (s.cpu.a ^^^ v)))

/-- OR (R180): H is 0. -/
def aluOr (v : Byte) (s : State) : Outcome :=
  .next (s.setAluResult (s.cpu.a ||| v) (logicFlags s.params.logicN false (s.cpu.a ||| v)))

/-- CP (R183): the flags of SUB, A not written. -/
def aluCp (v : Byte) (s : State) : Outcome :=
  withOperandFlags s (.next (s.setFlags (subFlags s.cpu.a v false)))

/-! ### The instructions -/

/-- `ADD A,r` (R162). -/
def execAddAR (r : Reg8) (s : State) : Outcome := aluAddRegister (s.reg8 r) s

/-- `ADD A,(HL)` (R163). -/
def execAddAHl (s : State) : Outcome :=
  let (v, s) := s.readHl
  aluAdd v false s

/-- `ADD A,n` (R164). -/
def execAddAN (n : Byte) (s : State) : Outcome := aluAdd n false s

/-- `ADC A,r` (R165). -/
def execAdcAR (r : Reg8) (s : State) : Outcome := aluAdd (s.reg8 r) s.cpu.flags.cy s

/-- `ADC A,(HL)` (R166). -/
def execAdcAHl (s : State) : Outcome :=
  let (v, s) := s.readHl
  aluAdd v s.cpu.flags.cy s

/-- `ADC A,n` (R167). -/
def execAdcAN (n : Byte) (s : State) : Outcome := aluAdd n s.cpu.flags.cy s

/-- `SUB r` (R168). -/
def execSubR (r : Reg8) (s : State) : Outcome := aluSub (s.reg8 r) false s

/-- `SUB (HL)` (R169). -/
def execSubHl (s : State) : Outcome :=
  let (v, s) := s.readHl
  aluSub v false s

/-- `SUB n` (R170). -/
def execSubN (n : Byte) (s : State) : Outcome := aluSub n false s

/-- `SBC A,r` (R171). -/
def execSbcAR (r : Reg8) (s : State) : Outcome := aluSub (s.reg8 r) s.cpu.flags.cy s

/-- `SBC A,(HL)` (R172). -/
def execSbcAHl (s : State) : Outcome :=
  let (v, s) := s.readHl
  aluSub v s.cpu.flags.cy s

/-- `SBC A,n` (R173). -/
def execSbcAN (n : Byte) (s : State) : Outcome := aluSub n s.cpu.flags.cy s

/-- `AND r` (R174). -/
def execAndR (r : Reg8) (s : State) : Outcome := aluAnd (s.reg8 r) s

/-- `AND (HL)` (R175). -/
def execAndHl (s : State) : Outcome :=
  let (v, s) := s.readHl
  aluAnd v s

/-- `AND n` (R176). -/
def execAndN (n : Byte) (s : State) : Outcome := aluAnd n s

/-- `XOR r` (R177). -/
def execXorR (r : Reg8) (s : State) : Outcome := aluXor (s.reg8 r) s

/-- `XOR (HL)` (R178). -/
def execXorHl (s : State) : Outcome :=
  let (v, s) := s.readHl
  aluXor v s

/-- `XOR n` (R179). -/
def execXorN (n : Byte) (s : State) : Outcome := aluXor n s

/-- `OR r` (R180). -/
def execOrR (r : Reg8) (s : State) : Outcome := aluOr (s.reg8 r) s

/-- `OR (HL)` (R181). -/
def execOrHl (s : State) : Outcome :=
  let (v, s) := s.readHl
  aluOr v s

/-- `OR n` (R182). -/
def execOrN (n : Byte) (s : State) : Outcome := aluOr n s

/-- `CP r` (R183). -/
def execCpR (r : Reg8) (s : State) : Outcome := aluCp (s.reg8 r) s

/-- `CP (HL)` (R184). -/
def execCpHl (s : State) : Outcome :=
  let (v, s) := s.readHl
  aluCp v s

/-- `CP n` (R185). -/
def execCpN (n : Byte) (s : State) : Outcome := aluCp n s

end Sys2Proof.Machine
end

