-- ==== Sys2Proof/Machine/CbGroup.lean ====
section
/-! DEFINITION. The two-byte group behind 0xCB (42_cb_group.md R190 to R212): rotates, shifts, SWAP, BIT, RES and SET on a
register and on the byte at HL, and the table's own row for the byte 0xCB. -/

namespace Sys2Proof.Machine

/-! ### The shared operations -/

/-- A rotate or shift of a register: the result and the bit shifted out give the flags. -/
def rotateRegister (op : Byte → Byte × Bool) (r : Reg8) (s : State) : State :=
  let (res, out) := op (s.reg8 r)
  (s.setReg8 r res).setFlags (shiftFlags res out)

/-- A rotate or shift of the byte at HL: one read, one write, and the flags whether or not the write lands. -/
def rotateAtHl (op : Byte → Byte × Bool) (s : State) : State :=
  let (v, s) := s.readHl
  let (res, out) := op v
  (s.memWrite s.hl res).setFlags (shiftFlags res out)

/-- A change of the byte at HL that leaves the flags alone (RES, SET). -/
def modifyAtHl (op : Byte → Byte) (s : State) : State :=
  let (v, s) := s.readHl
  s.memWrite s.hl (op v)

/-! ### The instructions -/

/-- `RLC r` (R191). -/
def execRlcR (r : Reg8) (s : State) : Outcome := .next (rotateRegister rotateLeft r s)

/-- `RLC (HL)` (R192). -/
def execRlcHl (s : State) : Outcome := .next (rotateAtHl rotateLeft s)

/-- `RRC r` (R193). -/
def execRrcR (r : Reg8) (s : State) : Outcome := .next (rotateRegister rotateRight r s)

/-- `RRC (HL)` (R194). -/
def execRrcHl (s : State) : Outcome := .next (rotateAtHl rotateRight s)

/-- `RL r` (R195). -/
def execRlR (r : Reg8) (s : State) : Outcome := .next (rotateRegister (rotateLeftCarry s.cpu.flags.cy) r s)

/-- `RL (HL)` (R196). -/
def execRlHl (s : State) : Outcome := .next (rotateAtHl (rotateLeftCarry s.cpu.flags.cy) s)

/-- `RR r` (R197). -/
def execRrR (r : Reg8) (s : State) : Outcome := .next (rotateRegister (rotateRightCarry s.cpu.flags.cy) r s)

/-- `RR (HL)` (R198). -/
def execRrHl (s : State) : Outcome := .next (rotateAtHl (rotateRightCarry s.cpu.flags.cy) s)

/-- `SLA r` (R199). -/
def execSlaR (r : Reg8) (s : State) : Outcome := .next (rotateRegister shiftLeft r s)

/-- `SLA (HL)` (R200). -/
def execSlaHl (s : State) : Outcome := .next (rotateAtHl shiftLeft s)

/-- `SRA r` (R201). -/
def execSraR (r : Reg8) (s : State) : Outcome := .next (rotateRegister shiftRightArith r s)

/-- `SRA (HL)` (R202). -/
def execSraHl (s : State) : Outcome := .next (rotateAtHl shiftRightArith s)

/-- `SWAP r` (R203). -/
def execSwapR (r : Reg8) (s : State) : Outcome := .next (rotateRegister swapNibbles r s)

/-- `SWAP (HL)` (R204). -/
def execSwapHl (s : State) : Outcome := .next (rotateAtHl swapNibbles s)

/-- `SRL r` (R205). -/
def execSrlR (r : Reg8) (s : State) : Outcome := .next (rotateRegister shiftRight r s)

/-- `SRL (HL)` (R206). -/
def execSrlHl (s : State) : Outcome := .next (rotateAtHl shiftRight s)

/-- `BIT b,r` (R207). -/
def execBitR (b : Nat) (r : Reg8) (s : State) : Outcome :=
  .next (s.setFlags (bitFlags s.cpu.flags b (s.reg8 r)))

/-- `BIT b,(HL)` (R208): read only. -/
def execBitHl (b : Nat) (s : State) : Outcome :=
  let (v, s) := s.readHl
  .next (s.setFlags (bitFlags s.cpu.flags b v))

/-- `RES b,r` (R209). -/
def execResR (b : Nat) (r : Reg8) (s : State) : Outcome := .next (s.setReg8 r (clearBit b (s.reg8 r)))

/-- `RES b,(HL)` (R210). -/
def execResHl (b : Nat) (s : State) : Outcome := .next (modifyAtHl (clearBit b) s)

/-- `SET b,r` (R211). -/
def execSetR (b : Nat) (r : Reg8) (s : State) : Outcome := .next (s.setReg8 r (setBit b (s.reg8 r)))

/-- `SET b,(HL)` (R212). -/
def execSetHl (b : Nat) (s : State) : Outcome := .next (modifyAtHl (setBit b) s)

/-! ### The row of the byte 0xCB itself -/

/-- The rotate or shift that `y` selects, on the operand `z` (R129, `x = 0`). -/
def runRotate (y : Nat) (operand : Option Reg8) (s : State) : Outcome :=
  match y, operand with
  | 0, some r => execRlcR r s
  | 0, none => execRlcHl s
  | 1, some r => execRrcR r s
  | 1, none => execRrcHl s
  | 2, some r => execRlR r s
  | 2, none => execRlHl s
  | 3, some r => execRrR r s
  | 3, none => execRrHl s
  | 4, some r => execSlaR r s
  | 4, none => execSlaHl s
  | 5, some r => execSraR r s
  | 5, none => execSraHl s
  | 6, some r => execSwapR r s
  | 6, none => execSwapHl s
  | _, some r => execSrlR r s
  | _, none => execSrlHl s

/-- The instruction that the fields of a second byte select (R190). -/
def runSecondByte (op2 : Byte) (s : State) : Outcome :=
  match fieldX op2, reg8Of (fieldZ op2) with
  | 0, operand => runRotate (fieldY op2) operand s
  | 1, some r => execBitR (fieldY op2) r s
  | 1, none => execBitHl (fieldY op2) s
  | 2, some r => execResR (fieldY op2) r s
  | 2, none => execResHl (fieldY op2) s
  | _, some r => execSetR (fieldY op2) r s
  | _, none => execSetHl (fieldY op2) s

/-- The row `PREFIX CB` (R190, 30_encoding.md R131 class 3): fetch the second byte, decode its fields, run it. A step
fetches both bytes at once and runs the instruction they make (log 13). -/
def execPrefixCb (s : State) : Outcome :=
  let (op2, s) := s.fetch8
  runSecondByte op2 s

end Sys2Proof.Machine
end

