-- ==== Sys2Proof/Machine/Control.lean ====
section
/-! DEFINITION. Jumps, calls, returns and restarts (47_control.md R290 to R301). PC already points past the instruction,
so it is the return address and the base of a relative jump. -/

namespace Sys2Proof.Machine

/-- Push the return address and jump (R296, R301). -/
def State.callTo (s : State) (target : Word) : State := (s.push16 s.cpu.pc).setPc target

/-- `PC <- Pop16()` (R298). -/
def State.returnToCaller (s : State) : State :=
  let (v, s) := s.pop16
  s.setPc v

/-- `PC <- (PC + sext(e)) mod 2^16` (R294). -/
def State.jumpRelative (s : State) (e : Byte) : State := s.setPc (s.cpu.pc + signExtend16 e)

/-- `JP nn` (R291). -/
def execJpNn (nn : Word) (s : State) : Outcome := .next (s.setPc nn)

/-- `JP cc,nn` (R292). -/
def execJpCcNn (cc : Cond) (nn : Word) (s : State) : Outcome :=
  .next (if s.cpu.flags.holds cc then s.setPc nn else s)

/-- `JP HL` (R293): memory is not read. -/
def execJpHl (s : State) : Outcome := .next (s.setPc s.hl)

/-- `JR e` (R294). -/
def execJrE (e : Byte) (s : State) : Outcome := .next (s.jumpRelative e)

/-- `JR cc,e` (R295). -/
def execJrCcE (cc : Cond) (e : Byte) (s : State) : Outcome :=
  .next (if s.cpu.flags.holds cc then s.jumpRelative e else s)

/-- `CALL nn` (R296). -/
def execCallNn (nn : Word) (s : State) : Outcome := .next (s.callTo nn)

/-- `CALL cc,nn` (R297). -/
def execCallCcNn (cc : Cond) (nn : Word) (s : State) : Outcome :=
  .next (if s.cpu.flags.holds cc then s.callTo nn else s)

/-- `RET` (R298). -/
def execRet (s : State) : Outcome := .next s.returnToCaller

/-- `RET cc` (R299). -/
def execRetCc (cc : Cond) (s : State) : Outcome :=
  .next (if s.cpu.flags.holds cc then s.returnToCaller else s)

/-- `RETI` (R300). -/
def execReti (s : State) : Outcome := .next s.interruptReturn

/-- `RST t` (R301). -/
def execRst (t : Word) (s : State) : Outcome := .next (s.callTo t)

end Sys2Proof.Machine
end

