-- ==== Sys2Proof/Machine/IncDecAdd16.lean ====
section
/-! DEFINITION. Increment, decrement and 16-bit addition (44_incdec_add16.md R250 to R257). -/

namespace Sys2Proof.Machine

/-- `INC r` (R250). -/
def execIncR (r : Reg8) (s : State) : Outcome :=
  .next ((s.setReg8 r (s.reg8 r + 1)).setFlags (incFlags s.cpu.flags (s.reg8 r)))

/-- `INC (HL)` (R251): the flags are those of the computed result whether or not the write lands. -/
def execIncHl (s : State) : Outcome :=
  let (v, s) := s.readHl
  .next ((s.memWrite s.hl (v + 1)).setFlags (incFlags s.cpu.flags v))

/-- `DEC r` (R252). -/
def execDecR (r : Reg8) (s : State) : Outcome :=
  .next ((s.setReg8 r (s.reg8 r - 1)).setFlags (decFlags s.cpu.flags (s.reg8 r)))

/-- `DEC (HL)` (R253). -/
def execDecHl (s : State) : Outcome :=
  let (v, s) := s.readHl
  .next ((s.memWrite s.hl (v - 1)).setFlags (decFlags s.cpu.flags v))

/-- `INC rr` (R254). -/
def execIncRr (rr : Reg16) (s : State) : Outcome := .next (s.setReg16 rr (s.reg16 rr + 1))

/-- `DEC rr` (R255). -/
def execDecRr (rr : Reg16) (s : State) : Outcome := .next (s.setReg16 rr (s.reg16 rr - 1))

/-- `ADD HL,rr` (R256). -/
def execAddHlRr (rr : Reg16) (s : State) : Outcome :=
  .next ((s.setHl (s.hl + s.reg16 rr)).setFlags (addHlFlags s.cpu.flags s.hl (s.reg16 rr)))

/-- `ADD SP,e` (R257). -/
def execAddSpE (e : Byte) (s : State) : Outcome :=
  .next ((s.setSp (s.cpu.sp + signExtend16 e)).setFlags (spOffsetFlags s.cpu.sp e))

end Sys2Proof.Machine
end

