-- ==== Sys2Proof/Machine/Loads.lean ====
section
/-! DEFINITION. The loads (40_ld_r_r.md R150 to R152, 43_loads.md R220 to R239). Each meaning runs after the bytes of the
instruction have been fetched: PC points past them and their accesses are counted (30_encoding.md R120). -/

namespace Sys2Proof.Machine

/-- A load of A from memory. -/
def loadA (addr : Word) (s : State) : State :=
  let (v, s) := s.memRead addr
  s.setA v

/-- A store of A to memory. -/
def storeA (addr : Word) (s : State) : State := s.memWrite addr s.cpu.a

/-- `LD r,r'` (R150). -/
def execLdRR (dst src : Reg8) (s : State) : Outcome := .next (s.setReg8 dst (s.reg8 src))

/-- `LD r,(HL)` (R151). -/
def execLdRHl (r : Reg8) (s : State) : Outcome :=
  let (v, s) := s.readHl
  .next (s.setReg8 r v)

/-- `LD (HL),r` (R152). -/
def execLdHlR (r : Reg8) (s : State) : Outcome := .next (s.memWrite s.hl (s.reg8 r))

/-- `LD r,n` (R220). -/
def execLdRN (r : Reg8) (n : Byte) (s : State) : Outcome := .next (s.setReg8 r n)

/-- `LD (HL),n` (R221). -/
def execLdHlN (n : Byte) (s : State) : Outcome := .next (s.memWrite s.hl n)

/-- `LD (BC),A` (R222). -/
def execLdBcA (s : State) : Outcome := .next (storeA s.bc s)

/-- `LD (DE),A` (R223). -/
def execLdDeA (s : State) : Outcome := .next (storeA s.de s)

/-- `LD A,(BC)` (R224). -/
def execLdABc (s : State) : Outcome := .next (loadA s.bc s)

/-- `LD A,(DE)` (R225). -/
def execLdADe (s : State) : Outcome := .next (loadA s.de s)

/-- `LD (HL+),A` (R226): the store uses HL before the increment. -/
def execLdHlIncA (s : State) : Outcome :=
  let s := storeA s.hl s
  .next (s.setHl (s.hl + 1))

/-- `LD (HL-),A` (R227). -/
def execLdHlDecA (s : State) : Outcome :=
  let s := storeA s.hl s
  .next (s.setHl (s.hl - 1))

/-- `LD A,(HL+)` (R228): the read uses HL before the increment. -/
def execLdAHlInc (s : State) : Outcome :=
  let s := loadA s.hl s
  .next (s.setHl (s.hl + 1))

/-- `LD A,(HL-)` (R229). -/
def execLdAHlDec (s : State) : Outcome :=
  let s := loadA s.hl s
  .next (s.setHl (s.hl - 1))

/-- `LDH (n),A` (R230). -/
def execLdhNA (n : Byte) (s : State) : Outcome := .next (storeA (highPage n) s)

/-- `LDH A,(n)` (R231). -/
def execLdhAN (n : Byte) (s : State) : Outcome := .next (loadA (highPage n) s)

/-- `LD (C),A` (R232): C is the register. -/
def execLdCA (s : State) : Outcome := .next (storeA (highPage s.cpu.c) s)

/-- `LD A,(C)` (R233). -/
def execLdAC (s : State) : Outcome := .next (loadA (highPage s.cpu.c) s)

/-- `LD (nn),A` (R234). -/
def execLdNnA (nn : Word) (s : State) : Outcome := .next (storeA nn s)

/-- `LD A,(nn)` (R235). -/
def execLdANn (nn : Word) (s : State) : Outcome := .next (loadA nn s)

/-- `LD rr,nn` (R236). -/
def execLdRrNn (rr : Reg16) (nn : Word) (s : State) : Outcome := .next (s.setReg16 rr nn)

/-- `LD SP,HL` (R237). -/
def execLdSpHl (s : State) : Outcome := .next (s.setSp s.hl)

/-- `LD HL,SP+e` (R238). -/
def execLdHlSpE (e : Byte) (s : State) : Outcome :=
  .next ((s.setHl (s.cpu.sp + signExtend16 e)).setFlags (spOffsetFlags s.cpu.sp e))

/-- `LD (nn),SP` (R239): two byte writes, low byte first. -/
def execLdNnSp (nn : Word) (s : State) : Outcome := .next (s.memWrite16 nn s.cpu.sp)

end Sys2Proof.Machine
end

