-- ==== Sys2Proof/Machine/MiscAlu.lean ====
section
/-! DEFINITION. DAA, CPL, CCF, SCF and the accumulator rotates (46_misc_alu.md R280 to R287). -/

namespace Sys2Proof.Machine

/-- A rotate of A with the flags of the one-byte forms: Z is 0. -/
def rotateA (op : Byte → Byte × Bool) (s : State) : State :=
  let (res, out) := op s.cpu.a
  (s.setA res).setFlags (accRotateFlags out)

/-- `DAA` (R280). -/
def execDaa (s : State) : Outcome :=
  .next ((s.setA (daaResult s.cpu.flags s.cpu.a)).setFlags (daaFlags s.cpu.flags s.cpu.a))

/-- `CPL` (R281). -/
def execCpl (s : State) : Outcome :=
  .next ((s.setA (s.cpu.a ^^^ 0xFF)).setFlags { s.cpu.flags with n := true, h := true })

/-- `CCF` (R282). -/
def execCcf (s : State) : Outcome :=
  .next (s.setFlags { s.cpu.flags with n := false, h := false, cy := !s.cpu.flags.cy })

/-- `SCF` (R283). -/
def execScf (s : State) : Outcome :=
  .next (s.setFlags { s.cpu.flags with n := false, h := false, cy := true })

/-- `RLCA` (R284). -/
def execRlca (s : State) : Outcome := .next (rotateA rotateLeft s)

/-- `RRCA` (R285). -/
def execRrca (s : State) : Outcome := .next (rotateA rotateRight s)

/-- `RLA` (R286). -/
def execRla (s : State) : Outcome := .next (rotateA (rotateLeftCarry s.cpu.flags.cy) s)

/-- `RRA` (R287). -/
def execRra (s : State) : Outcome := .next (rotateA (rotateRightCarry s.cpu.flags.cy) s)

end Sys2Proof.Machine
end

