-- ==== Sys2Proof/Machine/Stack.lean ====
section
/-! DEFINITION. PUSH and POP (45_stack.md R270 to R273). -/

namespace Sys2Proof.Machine

/-- `PUSH rr` (R270). -/
def execPushRr (q : Pair) (s : State) : Outcome := .next (s.push16 (s.pair q))

/-- `PUSH AF` (R271). -/
def execPushAf (s : State) : Outcome := .next (s.push16 s.af)

/-- `POP rr` (R272). -/
def execPopRr (q : Pair) (s : State) : Outcome :=
  let (v, s) := s.pop16
  .next (s.setPair q v)

/-- `POP AF` (R273). -/
def execPopAf (s : State) : Outcome :=
  let (v, s) := s.pop16
  .next (s.setAf v)

end Sys2Proof.Machine
end

