-- ==== Sys2Proof/Machine/System.lean ====
section
/-! DEFINITION. NOP, HALT, STOP, DI, EI and the unknown opcodes (48_system.md R310 to R315). What the rules log is no state
(10_state.md R47; log 11). -/

namespace Sys2Proof.Machine

/-- `NOP` (R310). -/
def execNop (s : State) : Outcome := .next s

/-- `HALT` (R311). -/
def execHalt (s : State) : Outcome := .next (s.setHalted true)

/-- `STOP` (R312): with the operand 0x00 it halts, with any other it is a logged no-op. -/
def execStop (n : Byte) (s : State) : Outcome := .next (if n = 0x00 then s.setHalted true else s)

/-- `DI` (R313): `ime_sched <- (false, 0)`. -/
def execDi (s : State) : Outcome := .next (s.setImeSched (.fresh false))

/-- `EI` (R314): `ime_sched <- (true, 0)`. -/
def execEi (s : State) : Outcome := .next (s.setImeSched (.fresh true))

/-- The effect of an unknown opcode: none but the byte consumed and the log (R315). -/
def unknownOpcode (s : State) : Outcome := .next s

/-- Unknown opcode 0xD3 (R315). -/
def execUnknownD3 (s : State) : Outcome := unknownOpcode s

/-- Unknown opcode 0xDB (R315). -/
def execUnknownDB (s : State) : Outcome := unknownOpcode s

/-- Unknown opcode 0xDD (R315). -/
def execUnknownDD (s : State) : Outcome := unknownOpcode s

/-- Unknown opcode 0xE3 (R315). -/
def execUnknownE3 (s : State) : Outcome := unknownOpcode s

/-- Unknown opcode 0xE4 (R315). -/
def execUnknownE4 (s : State) : Outcome := unknownOpcode s

/-- Unknown opcode 0xEB (R315). -/
def execUnknownEB (s : State) : Outcome := unknownOpcode s

/-- Unknown opcode 0xEC (R315). -/
def execUnknownEC (s : State) : Outcome := unknownOpcode s

/-- Unknown opcode 0xED (R315). -/
def execUnknownED (s : State) : Outcome := unknownOpcode s

/-- Unknown opcode 0xF4 (R315). -/
def execUnknownF4 (s : State) : Outcome := unknownOpcode s

/-- Unknown opcode 0xFC (R315). -/
def execUnknownFC (s : State) : Outcome := unknownOpcode s

/-- Unknown opcode 0xFD (R315). -/
def execUnknownFD (s : State) : Outcome := unknownOpcode s

end Sys2Proof.Machine
end

