-- ==== Sys2Proof/Machine/Ports.lean ====
section
/-! DEFINITION. The host side: the cartridge loader (20_memory.md R100 to R113), the MMU's ports (R85 to R90), reset
(70_reset_and_hazards.md R350 to R353), and the host's actions between calls (R91, R92). -/

namespace Sys2Proof.Machine

/-! ### The loader -/

/-- A byte of the image; only offsets below the image's length are asked for. -/
def imageByte (image : List Byte) (i : Nat) : Byte := image.getD i 0

/-- The header checksum: the one's complements of the 25 bytes 0x134 to 0x14C, summed modulo 256 (R102). -/
def headerChecksum (image : List Byte) : Byte :=
  ((image.drop 0x134).take 25).foldl (fun acc v => acc + ~~~v) 0

/-- `ROM_TABLE` (R106). -/
def romBanksOf (code : Byte) : Option Nat :=
  match code.toNat with
  | 0 => some 2
  | 1 => some 4
  | 2 => some 8
  | 3 => some 16
  | 4 => some 32
  | 5 => some 64
  | 6 => some 128
  | 7 => some 256
  | 8 => some 512
  | _ => none

/-- `RAM_TABLE` (R107). -/
def ramBanksOf (code : Byte) : Option Nat :=
  match code.toNat with
  | 0 => some 0
  | 2 => some 1
  | 3 => some 4
  | 4 => some 16
  | 5 => some 8
  | _ => none

/-- The bank-controller variants with a battery (R104, R105); a code in no table is not persistent. -/
def hasBattery (mbc : Byte) : Bool :=
  [0x03, 0x06, 0x09, 0x0F, 0x10, 0x13, 0x1B, 0x1E].contains mbc.toNat

/-- `initCartridge(image)` (R100 to R107): the record, or the first failing step's error. -/
def initCartridge (image : List Byte) : Except LoadError Cartridge :=
  if image.length < 0x150 then .error .unreadableHeader
  else if headerChecksum image ≠ imageByte image 0x14D then .error .badChecksum
  else match romBanksOf (imageByte image 0x148), ramBanksOf (imageByte image 0x149) with
    | some romBanks, some ramBanks => .ok {
        mbc := imageByte image 0x147
        romBanks := romBanks
        ramBanks := ramBanks
        persistent := hasBattery (imageByte image 0x147)
        title := Vector.ofFn (fun i => imageByte image (0x134 + i.val)) }
    | _, _ => .error .invalidSizeCode

/-- Port `loadROM0`, of a 0x4000-byte buffer (R86). -/
def Mmu.loadRom0 (m : Mmu) (buf : List Byte) : Mmu := { m with rom0 := Memory.ofBytes (buf.take 0x4000) }

/-- Port `loadROM1`, of `count` buffers of 0x4000 bytes: bank `k` at linear position `k * 0x4000` (R87). -/
def Mmu.loadRom1 (m : Mmu) (banks : List (List Byte)) (count : Nat) : Mmu :=
  { m with rom1 := Memory.ofBytes ((banks.take count).flatten.take (count * 0x4000)) }

/-- Port `setERAM` (R89): a persistent array starts with the bytes its last session left, as far as it reaches (R75,
decision D43); every other byte is unspecified. -/
def Mmu.setEram (m : Mmu) (bankCount : Nat) (persistent : Bool) (kept : Memory) : Mmu :=
  { m with eram := if persistent then kept.restrict (bankCount * 0x2000) else {} }

/-- The 0x4000 bytes of bank `k` of an image (R87). -/
def imageBank (image : List Byte) (k : Nat) : List Byte := (image.drop (k * 0x4000)).take 0x4000

/-- Steps 2 and 3 of `loadCartridge(mmu)` (R109, R110): ROM0 and the ROM1 banks from the image. -/
def Mmu.loadRom (m : Mmu) (image : List Byte) (c : Cartridge) : Mmu :=
  (m.loadRom0 (imageBank image 0)).loadRom1
    ((List.range (c.romBanks - 1)).map (fun k => imageBank image (k + 1))) (c.romBanks - 1)

/-- `getGameTitle()` (R111). -/
def State.gameTitle (s : State) : Option (Vector Byte 16) := s.cart.map (·.title)

/-! ### Non-volatile ERAM (10_state.md R34, 20_memory.md R75) -/

/-- The array kept for a cartridge that is out of the machine; one that has none starts a new array. -/
def State.keptArray (s : State) (number : Nat) : Memory := (lookupCells s.shelf number).getD {}

/-- Power-off: a persistent array goes with its cartridge, whole; every other array is lost (log 9). What the rest holds
while the power is off the spec leaves open (10_state.md R32, R33). DESIGN CHOICE (log 9): the four bank indices are 0, not
`VRAM_INDEX`, `WRAM1_INDEX` and `ERAM_INDEX`, both locks are clear, and the CPU registers and the cycle count stay as they
are, until a host action writes them or the next power-on resets them all. No call runs before that. -/
def State.powerOff (s : State) : State :=
  { s with
    mmu := {}
    cart := none
    loadError := none
    shelf := if s.persistent then insertCells s.shelf s.slot s.mmu.eram else s.shelf }

/-- Step 1 of `loadCartridge(mmu)` (R109): the cartridge is in the slot, and its ERAM is the MMU's (R89). A persistent
array leaves the shelf, so that it stands in one place. -/
def State.insertCartridge (s : State) (number : Nat) (c : Cartridge) : State :=
  { s with
    mmu := s.mmu.setEram c.ramBanks c.persistent (s.keptArray number)
    cart := some c
    slot := number
    shelf := if c.persistent then eraseCells s.shelf number else s.shelf }

/-! ### Reset and power-on -/

/-- The arrays a reset leaves: the ROM image and a persistent ERAM stay, the rest is unspecified again (10_state.md
R42). -/
def Mmu.afterReset (p : Params) (persistent : Bool) (m : Mmu) : Mmu :=
  Mmu.resetControl p { rom0 := m.rom0, rom1 := m.rom1, eram := if persistent then m.eram else {} }

/-- Reset of the core with its cartridge (70_reset_and_hazards.md R350 to R352). -/
def State.resetCore (s : State) : State :=
  { s with
    cpu := Cpu.reset s.params
    mmu := s.mmu.afterReset s.params s.persistent
    cycles := 0
    epoch := s.epoch + 1 }

/-- `loadCartridge(mmu)` (R109): an image shorter than its header says is fatal after the ERAM has been set up (R110,
decision D46). -/
def State.loadCartridge (s : State) (number : Nat) (image : List Byte) (c : Cartridge) : State :=
  let s := s.insertCartridge number c
  if image.length < c.romBanks * 0x4000 then { s.powerOff with loadError := some .romCorrupt }
  else { s with mmu := s.mmu.loadRom image c }

/-- Power-on with a cartridge, after the end of the session before: `initCartridge`, `loadCartridge`, reset
(70_reset_and_hazards.md R353, 20_memory.md R113); after a load-fatal error there is no cartridge (R108). -/
def State.powerOn (s : State) (number : Nat) (image : List Byte) : State :=
  match initCartridge image with
  | .error e => { s.powerOff with loadError := some e }.resetCore
  | .ok c => (s.powerOff.loadCartridge number image c).resetCore

/-! ### The host's turn -/

/-- The storage cell of a byte of the I/O region (10_state.md R36). -/
def ioCell (offset : BitVec 7) : Cell := ⟨.io, offset.toNat⟩

/-- One host action (20_memory.md R88, R90, R91; 70_reset_and_hazards.md R350, R353). -/
def State.applyAction (s : State) : HostAction → State
  | .setROM1Index i => { s with mmu := { s.mmu with rom1Index := i } }
  | .setVRAMLock locked => { s with mmu := { s.mmu with vramLock := locked } }
  | .setOAMLock locked => { s with mmu := { s.mmu with oamLock := locked } }
  | .writeIo offset v => s.writeCell (ioCell offset) v
  | .reset => s.resetCore
  | .powerOff => s.powerOff
  | .powerOn number image => s.powerOn number image

/-- Host actions one after the other (20_memory.md R95). -/
def State.applyActions (s : State) : List HostAction → State
  | [] => s
  | act :: rest => (s.applyAction act).applyActions rest

/-- The host's turn before a call: the next batch of its schedule (log 7). -/
def State.hostTurn (s : State) : State :=
  match s.host with
  | [] => s
  | batch :: rest => { s with host := rest }.applyActions batch

end Sys2Proof.Machine
end

