-- ==== Sys2Proof/Machine/Execute.lean ====
section
/-! DEFINITION. One call of `execute()` (30_encoding.md R120, 60_exceptions.md R328 to R330, R340), and the placing of an
instruction where the next call fetches it. -/

namespace Sys2Proof.Machine

/-- The next `n` bytes of the instruction stream, each by `Fetch8()` (00_scope.md R11). -/
def State.fetchBytes : (n : Nat) → State → List Byte × State
  | 0, s => ([], s)
  | n + 1, s =>
    let (v, s) := s.fetch8
    let (vs, s) := State.fetchBytes n s
    (v :: vs, s)

/-- The length of the instruction at PC (30_encoding.md R138). -/
def State.nextLength (s : State) : Nat := instrLength (s.readByte s.cpu.pc)

/-- An instruction whose bytes have been fetched, and the end-of-call rule after it (30_encoding.md R120 steps 3 to
5b). -/
def finishCall (i : Instr) (s : State) : Outcome :=
  match exec i s with
  | .next t => .next t.endOfCall
  | .fault e => .fault e
  | .refused e => .refused e

/-- One instruction: fetch, decode, run, end of call (30_encoding.md R120). Its bytes are read before its own data
accesses, as R361 (70_reset_and_hazards.md) says; steps 2 and 5 of R120 copy F to the flags and back, one piece of state
here (10_state.md R25; log 12). -/
def runInstruction (s : State) : Outcome :=
  let (bytes, s) := State.fetchBytes s.nextLength s
  match decode bytes with
  | .ok (i, _) => finishCall i s
  | .error _ => .fault .decoderInvariant

/-- A call of `execute()` on a machine with a cartridge: interrupt check, halted test, instruction (60_exceptions.md
R329). -/
def executeLoaded (s : State) : Outcome :=
  let s := { s with cycles := 0 }
  if s.params.irqDispatch && decide (s.pendingInterrupts ≠ 0) then
    let s := s.setHalted false
    if s.cpu.ime then .next (s.interruptEntry (lowestInterrupt s.pendingInterrupts)) else runInstruction s
  else if s.cpu.halted then .next { s with cycles := 4 }
  else runInstruction s

/-- A call of `execute()`: outside the model's domain before a cartridge is loaded or after a load-fatal error
(20_memory.md R108, 10_state.md R43; log 6). -/
def execute (s : State) : Outcome :=
  match s.cart, s.loadError with
  | some _, _ => executeLoaded s
  | none, some e => .refused (.loadFatal e)
  | none, none => .refused .noCartridge

/-! ### Placing an instruction -/

/-- A two-bank cartridge without RAM, the record a machine gets that has none when an instruction is placed in it
(log 6). -/
def Cartridge.blank : Cartridge where
  mbc := 0
  romBanks := 2
  ramBanks := 0
  persistent := false
  title := Vector.replicate 16 0

/-- A byte stored in the cell an address selects, whatever a lock or the ROM says; nothing where no cell is selected. -/
def State.placeByte (s : State) (addr : Word) (v : Byte) : State :=
  match s.locate addr with
  | some c => s.writeCell c v
  | none => s

/-- Bytes stored at consecutive addresses. -/
def State.placeBytes (s : State) (addr : Word) : List Byte → State
  | [] => s
  | v :: rest => (s.placeByte addr v).placeBytes (addr + 1) rest

/-- One of the three bytes of an instruction at PC lies in the region. -/
def State.fetchTouches (s : State) (r : Region) : Bool :=
  [s.cpu.pc, s.cpu.pc + 1, s.cpu.pc + 2].any (fun a => regionOf (redirect a) = r)

/-- What the very next call needs so that it fetches at PC: a cartridge, no host action before it, not halted, the
region of PC not locked (log 16). -/
def State.readyToFetch (s : State) : State :=
  { s with
    cart := some (s.cart.getD Cartridge.blank)
    host := []
    cpu := { s.cpu with halted := false }
    mmu := { s.mmu with
      vramLock := s.mmu.vramLock && !s.fetchTouches .vram
      oamLock := s.mmu.oamLock && !s.fetchTouches .oam } }

/-- `ime` cleared if an interrupt entry would otherwise come first (log 16). -/
def State.maskPending (s : State) : State :=
  if s.params.irqDispatch && (s.cpu.ime && decide (s.pendingInterrupts ≠ 0)) then s.setIme false else s

end Sys2Proof.Machine
end

