-- ==== Sys2Proof/Machine/Step.lean ====
section
/-! DEFINITION. The step of the machine: the host's turn, then one call of `execute()` (20_memory.md R92, 30_encoding.md
R120). -/

namespace Sys2Proof.Machine

/-- One step. -/
def step (s : State) : Host.Outcome State Fault Refusal := execute s.hostTurn

/-- The state with an instruction's bits stored where the next step fetches: three bytes from PC on, the bits above
`nbits` zero (log 16). -/
def State.withFetchWord (s : State) (nbits w : Nat) : State :=
  (s.readyToFetch.placeBytes s.cpu.pc (wordBytes 3 (w % 2 ^ nbits))).maskPending

end Sys2Proof.Machine
end

