-- ==== Sys2Proof/Safety.lean ====
section
/-! DEFINITION. The terms in which claims speak: a sound state, a run that goes on, and the manual's own tables and
arithmetic (natural numbers, 00_scope.md R9) that a result is held against. -/

namespace Sys2Proof.Machine

/-! ### Sound states and runs -/

/-- The number of bytes of an array (00_scope.md R6, 10_state.md R31). -/
def State.storeSize (s : State) : Store → Nat
  | .rom0 => 0x4000
  | .rom1 => (s.romBanks - 1) * 0x4000
  | .vram => 2 * 0x2000
  | .eram => s.ramBanks * 0x2000
  | .wram0 => 0x1000
  | .wram1 => 7 * 0x1000
  | .oam => 0xA0
  | .io => 0x80
  | .hram => 0x7F
  | .ie => 1

/-- Every array is canonical and lists only positions it has. -/
def State.storageOk (s : State) : Prop :=
  ∀ st : Store, (s.mmu.array st).wf = true ∧ (s.mmu.array st).below (s.storeSize st) = true

/-- The bank counts are entries of the size tables and persistence is the battery of the variant (20_memory.md R105 to
R107). -/
def Cartridge.legal (c : Cartridge) : Prop :=
  c.romBanks ∈ [2, 4, 8, 16, 32, 64, 128, 256, 512] ∧ c.ramBanks ∈ [0, 1, 4, 16, 8] ∧
    c.persistent = hasBattery c.mbc

/-- The arrays that are out of the machine are canonical, and each cartridge has one at most (log 9). -/
def State.shelfOk (s : State) : Prop :=
  risingAbove 0 s.shelf = true ∧ ∀ kept ∈ s.shelf, kept.2.wf = true

/-- The invariant of the machine. -/
structure State.Inv (s : State) : Prop where
  storage : s.storageOk
  cart : ∀ c, s.cart = some c → c.legal
  shelf : s.shelfOk

/-- The host's actions to come hold no power-on and no power-off: the cartridge stays the one that is loaded (20_memory.md
R113). -/
def State.keepsCartridge (s : State) : Prop :=
  ∀ batch ∈ s.host, ∀ act ∈ batch, act ≠ .powerOff ∧ ∀ number image, act ≠ .powerOn number image

/-- The machine can be stepped: it has a cartridge it keeps, and the flag mode is the one the spec defines whole (R186). -/
def State.Ready (s : State) : Prop :=
  s.cart.isSome = true ∧ s.keepsCartridge ∧ s.params.flagSource = .operands

/-- A run of `k` steps goes on. -/
def State.RunsFor (s : State) : (k : Nat) → Prop
  | 0 => True
  | k + 1 => ∃ t, step s = .next t ∧ t.RunsFor k

/-- An interrupt request is pending and enabled, and the machine dispatches interrupts (60_exceptions.md R328). -/
def State.requestPending (s : State) : Prop :=
  s.params.irqDispatch = true ∧ ∃ i, i < 5 ∧ (s.readCell ⟨.ie, 0⟩).getLsbD i = true ∧
    (s.readCell ⟨.io, 0x0F⟩).getLsbD i = true

/-- The bytes from PC on that the first of them asks for (30_encoding.md R121). -/
def State.nextBytes (s : State) : List Byte :=
  (List.range (instrLength (s.readByte s.cpu.pc))).map (fun k => s.readByte (s.cpu.pc + BitVec.ofNat 16 k))

/-- The state in which a call's instruction runs: not halted, PC past the instruction, its bytes counted (30_encoding.md
R120 step 1, R130). -/
def State.afterFetch (s : State) : State :=
  { s with
    cpu := { s.cpu with
      halted := false
      pc := s.cpu.pc + BitVec.ofNat 16 (instrLength (s.readByte s.cpu.pc)) }
    cycles := 4 * instrLength (s.readByte s.cpu.pc) }

/-! ### The manual's arithmetic -/

/-- `(a + v + c) mod 256` (41_alu_a.md R162, R165). -/
def sumByte (a v c : Nat) : Byte := BitVec.ofNat 8 (a + v + c)

/-- The flags of an addition (41_alu_a.md R162, R165). -/
def sumFlags (a v c : Nat) : Flags where
  z := decide ((a + v + c) % 256 = 0)
  n := false
  h := decide (a % 16 + v % 16 + c > 0xF)
  cy := decide (a + v + c > 0xFF)

/-- `(a - v - c) mod 256` for bytes `a`, `v` and a bit `c` (41_alu_a.md R168, R171). -/
def differenceByte (a v c : Nat) : Byte := BitVec.ofNat 8 (a + 512 - v - c)

/-- The flags of a subtraction (41_alu_a.md R168, R171). -/
def differenceFlags (a v c : Nat) : Flags where
  z := decide ((a + 512 - v - c) % 256 = 0)
  n := true
  h := decide (a % 16 < v % 16 + c)
  cy := decide (a < v + c)

/-- The state after an ALU result: A, the flags and nothing else. -/
def State.withAluResult (s : State) (res : Byte) (f : Flags) : State :=
  { s with cpu := { s.cpu with a := res, flags := f } }

/-- The state after a rotate or shift of a register: Z from the result, N and H zero, Cy the bit shifted out
(42_cb_group.md R191). -/
def State.withShifted (s : State) (r : Reg8) (res : Nat) (out : Bool) : State :=
  { s.setReg8 r (BitVec.ofNat 8 res) with
    cpu := { (s.setReg8 r (BitVec.ofNat 8 res)).cpu with
      flags := { z := decide (res = 0), n := false, h := false, cy := out } } }

/-- The state after a rotate or shift of the byte at HL: one write at HL, two accesses (42_cb_group.md R192). -/
def State.withShiftedAtHl (s : State) (res : Nat) (out : Bool) : State :=
  { s.writeByte s.hl (BitVec.ofNat 8 res) with
    cpu := { s.cpu with flags := { z := decide (res = 0), n := false, h := false, cy := out } }
    cycles := s.cycles + 8 }

/-- A byte in packed decimal (46_misc_alu.md R280): two digits, `n` below 100. -/
def decimalByte (n : Nat) : Byte := BitVec.ofNat 8 (n / 10 * 16 + n % 10)

end Sys2Proof.Machine

namespace Sys2Proof

open Machine

/-! ### The manual's tables -/

/-- The ALU instructions on A (41_alu_a.md R162 to R185). -/
def Instr.isAlu : Instr → Bool
  | .addAR _ | .addAHl | .addAN _ | .adcAR _ | .adcAHl | .adcAN _ | .subR _ | .subHl | .subN _
  | .sbcAR _ | .sbcAHl | .sbcAN _ | .andR _ | .andHl | .andN _ | .xorR _ | .xorHl | .xorN _
  | .orR _ | .orHl | .orN _ | .cpR _ | .cpHl | .cpN _ => true
  | _ => false

/-- The rotates and shifts behind 0xCB (42_cb_group.md R191 to R206). -/
def Instr.isShift : Instr → Bool
  | .rlcR _ | .rlcHl | .rrcR _ | .rrcHl | .rlR _ | .rlHl | .rrR _ | .rrHl
  | .slaR _ | .slaHl | .sraR _ | .sraHl | .swapR _ | .swapHl | .srlR _ | .srlHl => true
  | _ => false

/-- The rotates of A (46_misc_alu.md R284 to R287). -/
def Instr.isAccRotate : Instr → Bool
  | .rlca | .rrca | .rla | .rra => true
  | _ => false

/-- The row `Z` of 10_state.md R26. -/
def Instr.setsZ (i : Instr) : Bool :=
  i.isAlu || i.isShift || i.isAccRotate || match i with
    | .incR _ | .incHl | .decR _ | .decHl | .daa | .bitR _ _ | .bitHl _ | .addSpE _ | .ldHlSpE _ | .popAf => true
    | _ => false

/-- The row `N` of 10_state.md R26. -/
def Instr.setsN (i : Instr) : Bool :=
  match i with
    | .daa => false
    | .addHlRr _ | .cpl | .scf | .ccf => true
    | i => i.setsZ

/-- The row `H` of 10_state.md R26. -/
def Instr.setsH (i : Instr) : Bool :=
  match i with
    | .addHlRr _ | .cpl | .scf | .ccf => true
    | i => i.setsZ

/-- The row `Cy` of 10_state.md R26. -/
def Instr.setsCy (i : Instr) : Bool :=
  i.isAlu || i.isShift || i.isAccRotate || match i with
    | .daa | .addHlRr _ | .addSpE _ | .ldHlSpE _ | .scf | .ccf | .popAf => true
    | _ => false

/-- The 8-bit register is a half of the 16-bit register. -/
def Reg16.hasHalf : Reg16 → Reg8 → Bool
  | .bc, r => r == .b || r == .c
  | .de, r => r == .d || r == .e
  | .hl, r => r == .h || r == .l
  | .sp, _ => false

/-- The 8-bit register is a half of the pair. -/
def Pair.hasHalf : Pair → Reg8 → Bool
  | .bc, r => r == .b || r == .c
  | .de, r => r == .d || r == .e
  | .hl, r => r == .h || r == .l

/-- The instruction may write the 8-bit register: its destination, or HL in the increment and decrement loads. -/
def Instr.writesReg8 (i : Instr) (r : Reg8) : Bool :=
  match i with
  | .ldRrNn rr _ | .incRr rr | .decRr rr => rr.hasHalf r
  | .popRr q => q.hasHalf r
  | .addHlRr _ | .ldHlSpE _ | .ldHlIncA | .ldHlDecA => Reg16.hl.hasHalf r
  | .ldAHlInc | .ldAHlDec => Reg16.hl.hasHalf r || r == .a
  | .incR dst | .decR dst | .ldRN dst _ | .ldRR dst _ | .ldRHl dst | .rlcR dst | .rrcR dst | .rlR dst | .rrR dst
  | .slaR dst | .sraR dst | .swapR dst | .srlR dst | .resR _ dst | .setR _ dst => r == dst
  | .ldABc | .ldADe | .ldhAN _ | .ldAC | .ldANn _ | .daa | .cpl | .popAf | .rlca | .rrca | .rla | .rra | .addAR _
  | .addAHl | .addAN _ | .adcAR _ | .adcAHl | .adcAN _ | .subR _ | .subHl | .subN _ | .sbcAR _ | .sbcAHl | .sbcAN _
  | .andR _ | .andHl | .andN _ | .xorR _ | .xorHl | .xorN _ | .orR _ | .orHl | .orN _ => r == .a
  | .nop | .ldBcA | .ldDeA | .incHl | .decHl | .ldHlN _ | .ldNnSp _ | .stop _ | .jrE _ | .jrCcE _ _ | .scf | .ccf
  | .ldHlR _ | .halt | .cpR _ | .cpHl | .cpN _ | .retCc _ | .jpCcNn _ _ | .jpNn _ | .callCcNn _ _ | .pushRr _
  | .pushAf | .rst _ | .ret | .reti | .prefixCb | .callNn _ | .ldhNA _ | .ldCA | .addSpE _ | .jpHl | .ldNnA _ | .di
  | .ldSpHl | .ei | .unknownD3 | .unknownDB | .unknownDD | .unknownE3 | .unknownE4 | .unknownEB | .unknownEC
  | .unknownED | .unknownF4 | .unknownFC | .unknownFD | .rlcHl | .rrcHl | .rlHl | .rrHl | .slaHl | .sraHl | .swapHl
  | .srlHl | .bitR _ _ | .bitHl _ | .resHl _ | .setHl _ => false

/-- The instructions that write SP (10_state.md R22). -/
def Instr.writesSp : Instr → Bool
  | .ldRrNn rr _ | .incRr rr | .decRr rr => rr == .sp
  | .ldSpHl | .addSpE _ | .pushRr _ | .pushAf | .popRr _ | .popAf | .callNn _ | .callCcNn _ _ | .ret | .retCc _
  | .reti | .rst _ => true
  | .nop | .ldBcA | .ldDeA | .ldHlIncA | .ldHlDecA | .ldABc | .ldADe | .ldAHlInc | .ldAHlDec | .incR _ | .incHl
  | .decR _ | .decHl | .ldRN _ _ | .ldHlN _ | .rlca | .rrca | .rla | .rra | .ldNnSp _ | .addHlRr _ | .stop _ | .jrE _
  | .jrCcE _ _ | .daa | .cpl | .scf | .ccf | .ldRR _ _ | .ldRHl _ | .ldHlR _ | .halt | .addAR _ | .addAHl | .addAN _
  | .adcAR _ | .adcAHl | .adcAN _ | .subR _ | .subHl | .subN _ | .sbcAR _ | .sbcAHl | .sbcAN _ | .andR _ | .andHl
  | .andN _ | .xorR _ | .xorHl | .xorN _ | .orR _ | .orHl | .orN _ | .cpR _ | .cpHl | .cpN _ | .jpCcNn _ _ | .jpNn _
  | .prefixCb | .ldhNA _ | .ldCA | .jpHl | .ldNnA _ | .ldhAN _ | .ldAC | .di | .ldHlSpE _ | .ldANn _ | .ei
  | .unknownD3 | .unknownDB | .unknownDD | .unknownE3 | .unknownE4 | .unknownEB | .unknownEC | .unknownED | .unknownF4
  | .unknownFC | .unknownFD | .rlcR _ | .rlcHl | .rrcR _ | .rrcHl | .rlR _ | .rlHl | .rrR _ | .rrHl | .slaR _ | .slaHl
  | .sraR _ | .sraHl | .swapR _ | .swapHl | .srlR _ | .srlHl | .bitR _ _ | .bitHl _ | .resR _ _ | .resHl _ | .setR _ _
  | .setHl _ => false

/-- The instructions that write PC beyond their own fetch (10_state.md R23, 47_control.md). -/
def Instr.writesPc : Instr → Bool
  | .jpNn _ | .jpCcNn _ _ | .jpHl | .jrE _ | .jrCcE _ _ | .callNn _ | .callCcNn _ _ | .ret | .retCc _ | .reti
  | .rst _ => true
  | .nop | .ldRrNn _ _ | .ldBcA | .ldDeA | .ldHlIncA | .ldHlDecA | .ldABc | .ldADe | .ldAHlInc | .ldAHlDec | .incRr _
  | .decRr _ | .incR _ | .incHl | .decR _ | .decHl | .ldRN _ _ | .ldHlN _ | .rlca | .rrca | .rla | .rra | .ldNnSp _
  | .addHlRr _ | .stop _ | .daa | .cpl | .scf | .ccf | .ldRR _ _ | .ldRHl _ | .ldHlR _ | .halt | .addAR _ | .addAHl
  | .addAN _ | .adcAR _ | .adcAHl | .adcAN _ | .subR _ | .subHl | .subN _ | .sbcAR _ | .sbcAHl | .sbcAN _ | .andR _
  | .andHl | .andN _ | .xorR _ | .xorHl | .xorN _ | .orR _ | .orHl | .orN _ | .cpR _ | .cpHl | .cpN _ | .popRr _
  | .popAf | .pushRr _ | .pushAf | .prefixCb | .ldhNA _ | .ldCA | .addSpE _ | .ldNnA _ | .ldhAN _ | .ldAC | .di
  | .ldHlSpE _ | .ldSpHl | .ldANn _ | .ei | .unknownD3 | .unknownDB | .unknownDD | .unknownE3 | .unknownE4
  | .unknownEB | .unknownEC | .unknownED | .unknownF4 | .unknownFC | .unknownFD | .rlcR _ | .rlcHl | .rrcR _ | .rrcHl
  | .rlR _ | .rlHl | .rrR _ | .rrHl | .slaR _ | .slaHl | .sraR _ | .sraHl | .swapR _ | .swapHl | .srlR _ | .srlHl
  | .bitR _ _ | .bitHl _ | .resR _ _ | .resHl _ | .setR _ _ | .setHl _ => false

/-- The addresses an instruction stores to, from the state in which it runs (20_memory.md R82). -/
def Instr.storeAddresses (i : Instr) (s : State) : List Word :=
  match i with
  | .ldHlR _ | .ldHlN _ | .ldHlIncA | .ldHlDecA | .incHl | .decHl | .rlcHl | .rrcHl | .rlHl | .rrHl | .slaHl | .sraHl
  | .swapHl | .srlHl | .resHl _ | .setHl _ => [s.hl]
  | .ldBcA => [s.bc]
  | .ldDeA => [s.de]
  | .ldhNA n => [highPage n]
  | .ldCA => [highPage s.cpu.c]
  | .ldNnA nn => [nn]
  | .ldNnSp nn => [nn, nn + 1]
  | .pushRr _ | .pushAf | .callNn _ | .rst _ => [s.cpu.sp - 1, s.cpu.sp - 2]
  | .callCcNn cc _ => if s.cpu.flags.holds cc then [s.cpu.sp - 1, s.cpu.sp - 2] else []
  | .nop | .ldRrNn _ _ | .ldABc | .ldADe | .ldAHlInc | .ldAHlDec | .incRr _ | .decRr _ | .incR _ | .decR _ | .ldRN _ _
  | .rlca | .rrca | .rla | .rra | .addHlRr _ | .stop _ | .jrE _ | .jrCcE _ _ | .daa | .cpl | .scf | .ccf | .ldRR _ _
  | .ldRHl _ | .halt | .addAR _ | .addAHl | .addAN _ | .adcAR _ | .adcAHl | .adcAN _ | .subR _ | .subHl | .subN _
  | .sbcAR _ | .sbcAHl | .sbcAN _ | .andR _ | .andHl | .andN _ | .xorR _ | .xorHl | .xorN _ | .orR _ | .orHl | .orN _
  | .cpR _ | .cpHl | .cpN _ | .retCc _ | .popRr _ | .popAf | .jpCcNn _ _ | .jpNn _ | .ret | .reti | .prefixCb
  | .addSpE _ | .jpHl | .ldhAN _ | .ldAC | .di | .ldHlSpE _ | .ldSpHl | .ldANn _ | .ei | .unknownD3 | .unknownDB
  | .unknownDD | .unknownE3 | .unknownE4 | .unknownEB | .unknownEC | .unknownED | .unknownF4 | .unknownFC | .unknownFD
  | .rlcR _ | .rrcR _ | .rlR _ | .rrR _ | .slaR _ | .sraR _ | .swapR _ | .srlR _ | .bitR _ _ | .bitHl _ | .resR _ _
  | .setR _ _ => []

/-- The first column of the timing table (70_reset_and_hazards.md R364), with the flags at the start; the row of the byte
0xCB has no entry there. -/
def callCycles (f : Flags) : Instr → Nat
  | .stop _ => 8
  | .ldRHl _ | .ldHlR _ | .ldRN _ _ => 8
  | .ldHlN _ => 12
  | .ldBcA | .ldDeA | .ldABc | .ldADe | .ldHlIncA | .ldHlDecA | .ldAHlInc | .ldAHlDec => 8
  | .ldhNA _ | .ldhAN _ => 12
  | .ldCA | .ldAC => 8
  | .ldNnA _ | .ldANn _ => 16
  | .ldRrNn _ _ => 12
  | .ldNnSp _ => 20
  | .ldHlSpE _ => 8
  | .pushRr _ | .pushAf | .popRr _ | .popAf => 12
  | .addAHl | .adcAHl | .subHl | .sbcAHl | .andHl | .xorHl | .orHl | .cpHl => 8
  | .addAN _ | .adcAN _ | .subN _ | .sbcAN _ | .andN _ | .xorN _ | .orN _ | .cpN _ => 8
  | .incHl | .decHl => 12
  | .addSpE _ => 8
  | .rlcR _ | .rrcR _ | .rlR _ | .rrR _ | .slaR _ | .sraR _ | .swapR _ | .srlR _ | .bitR _ _ | .resR _ _ | .setR _ _ => 8
  | .rlcHl | .rrcHl | .rlHl | .rrHl | .slaHl | .sraHl | .swapHl | .srlHl | .resHl _ | .setHl _ => 16
  | .bitHl _ => 12
  | .jpNn _ | .jpCcNn _ _ => 12
  | .jrE _ | .jrCcE _ _ => 8
  | .callNn _ => 20
  | .callCcNn cc _ => if f.holds cc then 20 else 12
  | .ret | .reti => 12
  | .retCc cc => if f.holds cc then 12 else 4
  | .rst _ => 12
  | .nop | .incRr _ | .decRr _ | .incR _ | .decR _ | .rlca | .rrca | .rla | .rra | .addHlRr _ | .daa | .cpl | .scf
  | .ccf | .ldRR _ _ | .halt | .addAR _ | .adcAR _ | .subR _ | .sbcAR _ | .andR _ | .xorR _ | .orR _ | .cpR _
  | .prefixCb | .jpHl | .di | .ldSpHl | .ei | .unknownD3 | .unknownDB | .unknownDD | .unknownE3 | .unknownE4
  | .unknownEB | .unknownEC | .unknownED | .unknownF4 | .unknownFC | .unknownFD => 4

/-- A call that runs the instruction, its bytes counted, ends with `n` cycles (the `Cycles` line of its rule). -/
def Instr.takes (i : Instr) (s : State) (n : Nat) : Prop :=
  s.cycles = 4 * (encode i).length → ∀ t, exec i s = .next t → t.cycles = n

end Sys2Proof
end

