-- ==== Sys2Proof/Certificates/Slice0/Obligations.lean ====
section
/-! DEFINITION. The statements for the provers. An equation `exec i s = .next t` says that the instruction completes, what
it does, and, since `t` is written as `s` with the fields it changes, that it changes nothing else. Rules that carry a
decision mark of 92_eei_decisions.md are the spec's own choices; a statement that rests on one is `derived` and its
docstring names the decision. -/

open Sys2Proof Sys2Proof.Machine

/-! ### Encoding -/

/-- 30_encoding.md R122 to R133 (decisions D2 to D4): no bit of an encoding is dropped, whatever follows it. The lone byte
0xCB is the table's own row only where nothing follows it (log 13). -/
def Obligations.DecodeUndoesEncode : Prop :=
  (∀ (i : Instr) (rest : List Byte), i.wellFormed = true → i ≠ .prefixCb → decode (encode i ++ rest) = .ok (i, rest)) ∧
    decode (encode .prefixCb) = .ok (.prefixCb, [])

/-- 30_encoding.md R122 to R133, R139 (decisions D2 to D4): each byte list has one reading, it is well formed, and its
bytes are the encoding of what it decodes to. -/
def Obligations.EncodeUndoesDecode : Prop :=
  ∀ (bytes rest : List Byte) (i : Instr), decode bytes = .ok (i, rest) → i.wellFormed = true ∧ encode i ++ rest = bytes

/-- Words written out bit by bit from the encodings of the rules: R150, R163, R174, R185, R192, R207, R211, R226, R238,
R239, R254, R270, R280, R292, R295, R301, R311, R312, R315. The source gives few opcode numbers: the map of 30_encoding.md,
the codes of its operand field and of its operation fields are the spec's own decisions D2, D3 and D4 (log 17). -/
def Obligations.WrittenOutWordsDecode : Prop :=
  decode [0b01111000#8] = .ok (.ldRR .a .b, []) ∧
  decode [0b10000110#8] = .ok (.addAHl, []) ∧
  decode [0b10100001#8] = .ok (.andR .c, []) ∧
  decode [0b11111110#8, 0x12#8] = .ok (.cpN 0x12, []) ∧
  decode [0b11001011#8, 0b00000110#8] = .ok (.rlcHl, []) ∧
  decode [0b11001011#8, 0b01111111#8] = .ok (.bitR 7 .a, []) ∧
  decode [0b11001011#8, 0b11001011#8] = .ok (.setR 1 .e, []) ∧
  decode [0b00100010#8] = .ok (.ldHlIncA, []) ∧
  decode [0b11111000#8, 0xFE#8] = .ok (.ldHlSpE 0xFE, []) ∧
  decode [0b00001000#8, 0x34#8, 0x12#8] = .ok (.ldNnSp 0x1234, []) ∧
  decode [0b00110011#8] = .ok (.incRr .sp, []) ∧
  decode [0b11010101#8] = .ok (.pushRr .de, []) ∧
  decode [0b00100111#8] = .ok (.daa, []) ∧
  decode [0b11011010#8, 0x50#8, 0x01#8] = .ok (.jpCcNn .c 0x0150, []) ∧
  decode [0b00100000#8, 0x05#8] = .ok (.jrCcE .nz 0x05, []) ∧
  decode [0b11111111#8] = .ok (.rst 0x0038, []) ∧
  decode [0b00010000#8, 0x00#8] = .ok (.stop 0x00, []) ∧
  decode [0b01110110#8] = .ok (.halt, []) ∧
  decode [0b11010011#8] = .ok (.unknownD3, [])

/-- 30_encoding.md R138 (derived there from R122 and R132, decision D2): the length list. -/
def Obligations.InstructionLengthList : Prop :=
  ∀ op : Byte, instrLength op =
    if op.toNat ∈ [0x01, 0x11, 0x21, 0x31, 0x08, 0xC2, 0xC3, 0xC4, 0xCA, 0xCC, 0xCD, 0xD2, 0xD4, 0xDA, 0xDC, 0xEA, 0xFA]
    then 3
    else if op.toNat ∈ [0x06, 0x0E, 0x16, 0x1E, 0x26, 0x2E, 0x36, 0x3E, 0x10, 0x18, 0x20, 0x28, 0x30, 0x38, 0xC6, 0xCE,
      0xD6, 0xDE, 0xE6, 0xEE, 0xF6, 0xFE, 0xE0, 0xF0, 0xE8, 0xF8, 0xCB] then 2
    else 1

/-- 30_encoding.md R121, R139: an instruction is 1, 2 or 3 bytes long, its first byte alone decides how many, and every
list of that many bytes decodes to an instruction whose operands are valid. -/
def Obligations.EveryOpcodeDecodes : Prop :=
  ∀ (op : Byte) (operands rest : List Byte), operands.length + 1 = instrLength op →
    (1 ≤ instrLength op ∧ instrLength op ≤ 3) ∧
      ∃ i, decode (op :: operands ++ rest) = .ok (i, rest) ∧ i.wellFormed = true

/-! ### Registers -/

/-- 10_state.md R20, R21 (decisions D5, D47): each 8-bit register is its own storage, and a pair is a view with the
first-named register high; writing one changes nothing else in the whole state. The operands `rr` and `qq` are these views
and SP, by name (30_encoding.md R125, R126). -/
def Obligations.RegisterFileAndPairViews : Prop :=
  ∀ (s : State) (v : Byte) (w : Word),
    s.setReg8 .a v = { s with cpu := { s.cpu with a := v } } ∧
    s.setReg8 .b v = { s with cpu := { s.cpu with b := v } } ∧
    s.setReg8 .c v = { s with cpu := { s.cpu with c := v } } ∧
    s.setReg8 .d v = { s with cpu := { s.cpu with d := v } } ∧
    s.setReg8 .e v = { s with cpu := { s.cpu with e := v } } ∧
    s.setReg8 .h v = { s with cpu := { s.cpu with h := v } } ∧
    s.setReg8 .l v = { s with cpu := { s.cpu with l := v } } ∧
    s.reg8 .a = s.cpu.a ∧ s.reg8 .b = s.cpu.b ∧ s.reg8 .c = s.cpu.c ∧ s.reg8 .d = s.cpu.d ∧ s.reg8 .e = s.cpu.e ∧
    s.reg8 .h = s.cpu.h ∧ s.reg8 .l = s.cpu.l ∧
    s.bc.toNat = s.cpu.b.toNat * 256 + s.cpu.c.toNat ∧
    s.de.toNat = s.cpu.d.toNat * 256 + s.cpu.e.toNat ∧
    s.hl.toNat = s.cpu.h.toNat * 256 + s.cpu.l.toNat ∧
    s.af.toNat = s.cpu.a.toNat * 256 + s.f.toNat ∧
    (let high : Byte := BitVec.ofNat 8 (w.toNat / 256)
     let low : Byte := BitVec.ofNat 8 (w.toNat % 256)
     s.setBc w = { s with cpu := { s.cpu with b := high, c := low } } ∧
     s.setDe w = { s with cpu := { s.cpu with d := high, e := low } } ∧
     s.setHl w = { s with cpu := { s.cpu with h := high, l := low } }) ∧
    s.setSp w = { s with cpu := { s.cpu with sp := w } } ∧
    (s.setBc w).bc = w ∧ (s.setDe w).de = w ∧ (s.setHl w).hl = w ∧
    s.reg16 .bc = s.bc ∧ s.reg16 .de = s.de ∧ s.reg16 .hl = s.hl ∧ s.reg16 .sp = s.cpu.sp ∧
    s.setReg16 .bc w = s.setBc w ∧ s.setReg16 .de w = s.setDe w ∧ s.setReg16 .hl w = s.setHl w ∧
    s.setReg16 .sp w = s.setSp w ∧
    s.pair .bc = s.bc ∧ s.pair .de = s.de ∧ s.pair .hl = s.hl ∧
    s.setPair .bc w = s.setBc w ∧ s.setPair .de w = s.setDe w ∧ s.setPair .hl w = s.setHl w

/-- 10_state.md R24, R25 (decisions D6, D15): F is the four flags in bits 7 to 4; bits 3 to 0 read as zero and a write to
them is discarded. -/
def Obligations.FlagRegisterIsAView : Prop :=
  (∀ s : State, s.f.getLsbD 7 = s.cpu.flags.z ∧ s.f.getLsbD 6 = s.cpu.flags.n ∧ s.f.getLsbD 5 = s.cpu.flags.h ∧
    s.f.getLsbD 4 = s.cpu.flags.cy ∧ s.f.toNat % 16 = 0) ∧
  (∀ (s : State) (w : Word), (s.setAf w).af = w &&& 0xFFF0)

/-! ### Loads -/

/-- 40_ld_r_r.md R150, R151, R152: the load group, with its encodings `01 ddd sss`, `01 ddd 110`, `01 110 sss` and its
cycles. -/
def Obligations.LoadRegisterGroup : Prop :=
  ∀ (s : State) (dst src : Reg8),
    (exec (.ldRR dst src) s = .next (s.setReg8 dst (s.reg8 src)) ∧
      encode (.ldRR dst src) = [BitVec.ofNat 8 (0x40 + 8 * dst.code + src.code)] ∧
      Instr.takes (.ldRR dst src) s 4) ∧
    (exec (.ldRHl dst) s = .next { s.setReg8 dst (s.readByte s.hl) with cycles := s.cycles + 4 } ∧
      encode (.ldRHl dst) = [BitVec.ofNat 8 (0x46 + 8 * dst.code)] ∧ Instr.takes (.ldRHl dst) s 8) ∧
    (exec (.ldHlR src) s = .next { s.writeByte s.hl (s.reg8 src) with cycles := s.cycles + 4 } ∧
      encode (.ldHlR src) = [BitVec.ofNat 8 (0x70 + src.code)] ∧ Instr.takes (.ldHlR src) s 8)

/-- 43_loads.md R220 to R235 (decisions D2, D5, D31): the 8-bit loads. The flags never change; HL+ and HL- use HL before
the change and wrap; the high page is 0xFF00 plus an unsigned byte. -/
def Obligations.ByteLoads : Prop :=
  ∀ (s : State) (r : Reg8) (n : Byte) (nn : Word),
    exec (.ldRN r n) s = .next (s.setReg8 r n) ∧
    exec (.ldHlN n) s = .next { s.writeByte s.hl n with cycles := s.cycles + 4 } ∧
    exec .ldBcA s = .next { s.writeByte s.bc s.cpu.a with cycles := s.cycles + 4 } ∧
    exec .ldDeA s = .next { s.writeByte s.de s.cpu.a with cycles := s.cycles + 4 } ∧
    exec .ldABc s = .next { s with cpu := { s.cpu with a := s.readByte s.bc }, cycles := s.cycles + 4 } ∧
    exec .ldADe s = .next { s with cpu := { s.cpu with a := s.readByte s.de }, cycles := s.cycles + 4 } ∧
    exec .ldHlIncA s = .next
      { (s.writeByte s.hl s.cpu.a).setHl (BitVec.ofNat 16 (s.hl.toNat + 1)) with cycles := s.cycles + 4 } ∧
    exec .ldHlDecA s = .next
      { (s.writeByte s.hl s.cpu.a).setHl (BitVec.ofNat 16 (s.hl.toNat + 0xFFFF)) with cycles := s.cycles + 4 } ∧
    exec .ldAHlInc s = .next
      { (s.setA (s.readByte s.hl)).setHl (BitVec.ofNat 16 (s.hl.toNat + 1)) with cycles := s.cycles + 4 } ∧
    exec .ldAHlDec s = .next
      { (s.setA (s.readByte s.hl)).setHl (BitVec.ofNat 16 (s.hl.toNat + 0xFFFF)) with cycles := s.cycles + 4 } ∧
    exec (.ldhNA n) s = .next
      { s.writeByte (BitVec.ofNat 16 (0xFF00 + n.toNat)) s.cpu.a with cycles := s.cycles + 4 } ∧
    exec (.ldhAN n) s = .next
      { s with cpu := { s.cpu with a := s.readByte (BitVec.ofNat 16 (0xFF00 + n.toNat)) }, cycles := s.cycles + 4 } ∧
    exec .ldCA s = .next
      { s.writeByte (BitVec.ofNat 16 (0xFF00 + s.cpu.c.toNat)) s.cpu.a with cycles := s.cycles + 4 } ∧
    exec .ldAC s = .next
      { s with
        cpu := { s.cpu with a := s.readByte (BitVec.ofNat 16 (0xFF00 + s.cpu.c.toNat)) }
        cycles := s.cycles + 4 } ∧
    exec (.ldNnA nn) s = .next { s.writeByte nn s.cpu.a with cycles := s.cycles + 4 } ∧
    exec (.ldANn nn) s = .next { s with cpu := { s.cpu with a := s.readByte nn }, cycles := s.cycles + 4 }

/-- 43_loads.md R236 to R239 (decisions D2, D5, D10, D17, D44): the 16-bit loads. `LD HL,SP+e` adds a signed byte and
takes H and Cy from the unsigned sum of the low bytes; `LD (nn),SP` stores the low byte first, then the high byte at the
next address modulo 2^16. -/
def Obligations.WordLoads : Prop :=
  ∀ (s : State) (rr : Reg16) (nn : Word) (e : Byte),
    exec (.ldRrNn rr nn) s = .next (s.setReg16 rr nn) ∧
    exec .ldSpHl s = .next { s with cpu := { s.cpu with sp := s.hl } } ∧
    exec (.ldHlSpE e) s = .next
      ((s.setHl (BitVec.ofNat 16 (s.cpu.sp.toNat + if e.toNat < 0x80 then e.toNat else e.toNat + 0xFF00))).setFlags
        { z := false
          n := false
          h := decide (s.cpu.sp.toNat % 16 + e.toNat % 16 > 0xF)
          cy := decide (s.cpu.sp.toNat % 256 + e.toNat > 0xFF) }) ∧
    exec (.ldNnSp nn) s = .next
      { (s.writeByte nn (BitVec.ofNat 8 (s.cpu.sp.toNat % 256))).writeByte (BitVec.ofNat 16 (nn.toNat + 1))
          (BitVec.ofNat 8 (s.cpu.sp.toNat / 256)) with
        cycles := s.cycles + 8 }

/-! ### The 8-bit ALU -/

/-- 41_alu_a.md R162, R163, R168, R169, in the flag mode the rules are written for: ADD and SUB with a register and with
the byte at HL, with their encodings and cycles. -/
def Obligations.AddAndSubtract : Prop :=
  ∀ (s : State) (r : Reg8), s.params.flagSource = .operands →
    let a := s.cpu.a.toNat
    let v := (s.reg8 r).toNat
    let m := (s.readByte s.hl).toNat
    let read : State := { s with cycles := s.cycles + 4 }
    (exec (.addAR r) s = .next (s.withAluResult (sumByte a v 0) (sumFlags a v 0)) ∧
      encode (.addAR r) = [BitVec.ofNat 8 (0x80 + r.code)] ∧ Instr.takes (.addAR r) s 4) ∧
    (exec .addAHl s = .next (read.withAluResult (sumByte a m 0) (sumFlags a m 0)) ∧ encode .addAHl = [0x86] ∧
      Instr.takes .addAHl s 8) ∧
    (exec (.subR r) s = .next (s.withAluResult (differenceByte a v 0) (differenceFlags a v 0)) ∧
      encode (.subR r) = [BitVec.ofNat 8 (0x90 + r.code)] ∧ Instr.takes (.subR r) s 4) ∧
    (exec .subHl s = .next (read.withAluResult (differenceByte a m 0) (differenceFlags a m 0)) ∧
      encode .subHl = [0x96] ∧ Instr.takes .subHl s 8)

/-- 41_alu_a.md R164 to R167, R170 to R173, R183 to R185 (decisions D2 for the immediates, D9 for the carry-in in H and
Cy; that CP keeps A is the spec's general knowledge, R183): ADC, SBC and CP in all forms and the immediate forms of ADD
and SUB. -/
def Obligations.CarryChainCompareAndImmediates : Prop :=
  ∀ (s : State) (r : Reg8) (n : Byte), s.params.flagSource = .operands →
    let a := s.cpu.a.toNat
    let v := (s.reg8 r).toNat
    let m := (s.readByte s.hl).toNat
    let k := n.toNat
    let c := s.cpu.flags.cy.toNat
    let read : State := { s with cycles := s.cycles + 4 }
    exec (.adcAR r) s = .next (s.withAluResult (sumByte a v c) (sumFlags a v c)) ∧
    exec .adcAHl s = .next (read.withAluResult (sumByte a m c) (sumFlags a m c)) ∧
    exec (.adcAN n) s = .next (s.withAluResult (sumByte a k c) (sumFlags a k c)) ∧
    exec (.sbcAR r) s = .next (s.withAluResult (differenceByte a v c) (differenceFlags a v c)) ∧
    exec .sbcAHl s = .next (read.withAluResult (differenceByte a m c) (differenceFlags a m c)) ∧
    exec (.sbcAN n) s = .next (s.withAluResult (differenceByte a k c) (differenceFlags a k c)) ∧
    exec (.addAN n) s = .next (s.withAluResult (sumByte a k 0) (sumFlags a k 0)) ∧
    exec (.subN n) s = .next (s.withAluResult (differenceByte a k 0) (differenceFlags a k 0)) ∧
    exec (.cpR r) s = .next (s.withAluResult s.cpu.a { differenceFlags a v 0 with z := decide (a = v) }) ∧
    exec .cpHl s = .next (read.withAluResult s.cpu.a { differenceFlags a m 0 with z := decide (a = m) }) ∧
    exec (.cpN n) s = .next (s.withAluResult s.cpu.a { differenceFlags a k 0 with z := decide (a = k) })

/-- 41_alu_a.md R174 to R182 (decision D8: N is the parameter LOGIC_N): AND, XOR and OR in all forms. They keep their
meaning in both modes of FLAG_SOURCE (log 2: the model's choice, no carry helper takes part). -/
def Obligations.LogicalOperations : Prop :=
  ∀ (s : State) (r : Reg8) (n : Byte),
    let read : State := { s with cycles := s.cycles + 4 }
    let flags (h : Bool) (res : Byte) : Flags :=
      { z := decide (res.toNat = 0), n := s.params.logicN, h := h, cy := false }
    let m := s.readByte s.hl
    exec (.andR r) s = .next (s.withAluResult (s.cpu.a &&& s.reg8 r) (flags true (s.cpu.a &&& s.reg8 r))) ∧
    exec .andHl s = .next (read.withAluResult (s.cpu.a &&& m) (flags true (s.cpu.a &&& m))) ∧
    exec (.andN n) s = .next (s.withAluResult (s.cpu.a &&& n) (flags true (s.cpu.a &&& n))) ∧
    exec (.xorR r) s = .next (s.withAluResult (s.cpu.a ^^^ s.reg8 r) (flags false (s.cpu.a ^^^ s.reg8 r))) ∧
    exec .xorHl s = .next (read.withAluResult (s.cpu.a ^^^ m) (flags false (s.cpu.a ^^^ m))) ∧
    exec (.xorN n) s = .next (s.withAluResult (s.cpu.a ^^^ n) (flags false (s.cpu.a ^^^ n))) ∧
    exec (.orR r) s = .next (s.withAluResult (s.cpu.a ||| s.reg8 r) (flags false (s.cpu.a ||| s.reg8 r))) ∧
    exec .orHl s = .next (read.withAluResult (s.cpu.a ||| m) (flags false (s.cpu.a ||| m))) ∧
    exec (.orN n) s = .next (s.withAluResult (s.cpu.a ||| n) (flags false (s.cpu.a ||| n)))

/-- 41_alu_a.md R186 (decision D7; 93_implementation_defined.md U1): under FLAG_SOURCE = post_result the carry helpers of
`ADD A,r` see the result in place of A, and every other instruction that uses them is refused by name (log 2: which
ones is the model's reading). -/
def Obligations.PostResultFlagMode : Prop :=
  ∀ (s : State) (r : Reg8) (n : Byte), s.params.flagSource = .postResult →
    (let v := (s.reg8 r).toNat
     let res := (s.cpu.a.toNat + v) % 256
     exec (.addAR r) s = .next (s.withAluResult (sumByte s.cpu.a.toNat v 0)
       { z := decide (res = 0), n := false, h := decide (res % 16 + v % 16 > 0xF), cy := decide (res + v > 0xFF) })) ∧
    ∀ i ∈ [Instr.addAHl, .addAN n, .adcAR r, .adcAHl, .adcAN n, .subR r, .subHl, .subN n, .sbcAR r, .sbcAHl, .sbcAN n,
        .cpR r, .cpHl, .cpN n],
      exec i s = .refused .flagSourcePostResult

/-! ### Rotates, shifts, bits -/

/-- 42_cb_group.md R191 to R205, the register forms (decisions D4, D12). -/
def Obligations.ShiftsOfRegisters : Prop :=
  ∀ (s : State) (r : Reg8),
    let v := (s.reg8 r).toNat
    let c := s.cpu.flags.cy.toNat
    exec (.rlcR r) s = .next (s.withShifted r (v * 2 % 256 + v / 128) (decide (v / 128 = 1))) ∧
    exec (.rrcR r) s = .next (s.withShifted r (v / 2 + v % 2 * 128) (decide (v % 2 = 1))) ∧
    exec (.rlR r) s = .next (s.withShifted r (v * 2 % 256 + c) (decide (v / 128 = 1))) ∧
    exec (.rrR r) s = .next (s.withShifted r (v / 2 + c * 128) (decide (v % 2 = 1))) ∧
    exec (.slaR r) s = .next (s.withShifted r (v * 2 % 256) (decide (v / 128 = 1))) ∧
    exec (.sraR r) s = .next (s.withShifted r (v / 2 + v / 128 * 128) (decide (v % 2 = 1))) ∧
    exec (.swapR r) s = .next (s.withShifted r (v % 16 * 16 + v / 16) false) ∧
    exec (.srlR r) s = .next (s.withShifted r (v / 2) (decide (v % 2 = 1)))

/-- 42_cb_group.md R192 to R206, the forms on the byte at HL (decisions D4, D12): one read and one write at HL, the flags
from the computed result whether or not the write lands. -/
def Obligations.ShiftsOfMemory : Prop :=
  ∀ s : State,
    let v := (s.readByte s.hl).toNat
    let c := s.cpu.flags.cy.toNat
    exec .rlcHl s = .next (s.withShiftedAtHl (v * 2 % 256 + v / 128) (decide (v / 128 = 1))) ∧
    exec .rrcHl s = .next (s.withShiftedAtHl (v / 2 + v % 2 * 128) (decide (v % 2 = 1))) ∧
    exec .rlHl s = .next (s.withShiftedAtHl (v * 2 % 256 + c) (decide (v / 128 = 1))) ∧
    exec .rrHl s = .next (s.withShiftedAtHl (v / 2 + c * 128) (decide (v % 2 = 1))) ∧
    exec .slaHl s = .next (s.withShiftedAtHl (v * 2 % 256) (decide (v / 128 = 1))) ∧
    exec .sraHl s = .next (s.withShiftedAtHl (v / 2 + v / 128 * 128) (decide (v % 2 = 1))) ∧
    exec .swapHl s = .next (s.withShiftedAtHl (v % 16 * 16 + v / 16) false) ∧
    exec .srlHl s = .next (s.withShiftedAtHl (v / 2) (decide (v % 2 = 1)))

/-- 42_cb_group.md R207, R208 (decision D12): Z is the complement of the tested bit, N 0, H 1, Cy unchanged; nothing is
written. The bit index has three bits. -/
def Obligations.BitTests : Prop :=
  ∀ (s : State) (b : Nat) (r : Reg8), b < 8 →
    exec (.bitR b r) s = .next (s.setFlags
      { z := decide ((s.reg8 r).toNat / 2 ^ b % 2 = 0), n := false, h := true, cy := s.cpu.flags.cy }) ∧
    exec (.bitHl b) s = .next { s.setFlags
      { z := decide ((s.readByte s.hl).toNat / 2 ^ b % 2 = 0), n := false, h := true, cy := s.cpu.flags.cy } with
      cycles := s.cycles + 4 }

/-- 42_cb_group.md R209 to R212: RES clears and SET sets one bit of a register or of the byte at HL, and leaves the other
bits and every flag; with the encodings `0xCB`, `10 bbb zzz` and `11 bbb zzz` and the cycles. -/
def Obligations.BitResetAndSet : Prop :=
  ∀ (s : State) (b : Nat) (r : Reg8), b < 8 →
    let cleared (v : Byte) : Byte := BitVec.ofNat 8 (v.toNat - v.toNat / 2 ^ b % 2 * 2 ^ b)
    let raised (v : Byte) : Byte := BitVec.ofNat 8 (v.toNat + (1 - v.toNat / 2 ^ b % 2) * 2 ^ b)
    let m := s.readByte s.hl
    (exec (.resR b r) s = .next (s.setReg8 r (cleared (s.reg8 r))) ∧
      encode (.resR b r) = [0xCB, BitVec.ofNat 8 (0x80 + 8 * b + r.code)] ∧ Instr.takes (.resR b r) s 8) ∧
    (exec (.resHl b) s = .next { s.writeByte s.hl (cleared m) with cycles := s.cycles + 8 } ∧
      encode (.resHl b) = [0xCB, BitVec.ofNat 8 (0x86 + 8 * b)] ∧ Instr.takes (.resHl b) s 16) ∧
    (exec (.setR b r) s = .next (s.setReg8 r (raised (s.reg8 r))) ∧
      encode (.setR b r) = [0xCB, BitVec.ofNat 8 (0xC0 + 8 * b + r.code)] ∧ Instr.takes (.setR b r) s 8) ∧
    (exec (.setHl b) s = .next { s.writeByte s.hl (raised m) with cycles := s.cycles + 8 } ∧
      encode (.setHl b) = [0xCB, BitVec.ofNat 8 (0xC6 + 8 * b)] ∧ Instr.takes (.setHl b) s 16)

/-- 42_cb_group.md R190 (decisions D4, D38), 30_encoding.md R131 class 3: the byte 0xCB fetches a second byte at PC and
runs the instruction the two bytes make; it always completes. -/
def Obligations.PrefixByteRunsTheSecondByte : Prop :=
  ∀ s : State,
    (∀ i : Instr, decode [0xCB, s.readByte s.cpu.pc] = .ok (i, []) →
      exec .prefixCb s =
        exec i { s with cpu := { s.cpu with pc := BitVec.ofNat 16 (s.cpu.pc.toNat + 1) }, cycles := s.cycles + 4 }) ∧
    ∃ t, exec .prefixCb s = .next t

/-! ### Increment, decrement, 16-bit addition -/

/-- 44_incdec_add16.md R250 to R253 (decisions D2, D11): INC and DEC of a register and of the byte at HL; Cy is left
alone. -/
def Obligations.ByteIncrementAndDecrement : Prop :=
  ∀ (s : State) (r : Reg8),
    let incF (v : Nat) : Flags :=
      { z := decide ((v + 1) % 256 = 0), n := false, h := decide (v % 16 = 0xF), cy := s.cpu.flags.cy }
    let decF (v : Nat) : Flags :=
      { z := decide ((v + 255) % 256 = 0), n := true, h := decide (v % 16 = 0), cy := s.cpu.flags.cy }
    let v := (s.reg8 r).toNat
    let m := (s.readByte s.hl).toNat
    exec (.incR r) s = .next ((s.setReg8 r (BitVec.ofNat 8 (v + 1))).setFlags (incF v)) ∧
    exec (.decR r) s = .next ((s.setReg8 r (BitVec.ofNat 8 (v + 255))).setFlags (decF v)) ∧
    exec .incHl s = .next
      { (s.writeByte s.hl (BitVec.ofNat 8 (m + 1))).setFlags (incF m) with cycles := s.cycles + 8 } ∧
    exec .decHl s = .next
      { (s.writeByte s.hl (BitVec.ofNat 8 (m + 255))).setFlags (decF m) with cycles := s.cycles + 8 }

/-- 44_incdec_add16.md R254 to R257 (decisions D2, D10, D11, D17, D31): 16-bit INC and DEC set no flag; `ADD HL,rr`
carries out of bits 11 and 15 and leaves Z; `ADD SP,e` adds a signed byte with the carries of the low bytes. -/
def Obligations.WordArithmetic : Prop :=
  ∀ (s : State) (rr : Reg16) (e : Byte),
    exec (.incRr rr) s = .next (s.setReg16 rr (BitVec.ofNat 16 ((s.reg16 rr).toNat + 1))) ∧
    exec (.decRr rr) s = .next (s.setReg16 rr (BitVec.ofNat 16 ((s.reg16 rr).toNat + 0xFFFF))) ∧
    exec (.addHlRr rr) s = .next
      ((s.setHl (BitVec.ofNat 16 (s.hl.toNat + (s.reg16 rr).toNat))).setFlags
        { z := s.cpu.flags.z
          n := false
          h := decide (s.hl.toNat % 0x1000 + (s.reg16 rr).toNat % 0x1000 > 0xFFF)
          cy := decide (s.hl.toNat + (s.reg16 rr).toNat > 0xFFFF) }) ∧
    exec (.addSpE e) s = .next
      ((s.setSp (BitVec.ofNat 16 (s.cpu.sp.toNat + if e.toNat < 0x80 then e.toNat else e.toNat + 0xFF00))).setFlags
        { z := false
          n := false
          h := decide (s.cpu.sp.toNat % 16 + e.toNat % 16 > 0xF)
          cy := decide (s.cpu.sp.toNat % 256 + e.toNat > 0xFF) })

/-! ### Stack -/

/-- 45_stack.md R270 to R273, 00_scope.md R12 (decisions D2, D15, D16, D31): PUSH stores the high byte at SP-1 and then
the low byte at SP-2; POP reads the low byte at SP and the high byte at SP+1; POP AF drops the low nibble. -/
def Obligations.PushAndPop : Prop :=
  ∀ (s : State) (q : Pair),
    let pushed (w : Word) : State :=
      { (s.writeByte (s.cpu.sp - 1) (BitVec.ofNat 8 (w.toNat / 256))).writeByte (s.cpu.sp - 2)
          (BitVec.ofNat 8 (w.toNat % 256)) with
        cpu := { s.cpu with sp := s.cpu.sp - 2 }
        cycles := s.cycles + 8 }
    let popped : State := { s with cpu := { s.cpu with sp := s.cpu.sp + 2 }, cycles := s.cycles + 8 }
    let lo := s.readByte s.cpu.sp
    let hi := s.readByte (s.cpu.sp + 1)
    exec (.pushRr q) s = .next (pushed (s.pair q)) ∧
    exec .pushAf s = .next (pushed s.af) ∧
    exec (.popRr q) s = .next (popped.setPair q (BitVec.ofNat 16 (hi.toNat * 256 + lo.toNat))) ∧
    exec .popAf s = .next { popped with
      cpu := { popped.cpu with
        a := hi
        flags := { z := lo.getLsbD 7, n := lo.getLsbD 6, h := lo.getLsbD 5, cy := lo.getLsbD 4 } } }

/-- 45_stack.md R270 to R273, 20_memory.md R95 (decision D16): where both bytes of the stack slot accept a write, a POP
right after a PUSH gives back the pair and SP, into any pair; AF comes back whole. -/
def Obligations.PopUndoesPush : Prop :=
  ∀ (s : State) (q q' : Pair), (s.writeTarget (s.cpu.sp - 1)).isSome = true →
    (s.writeTarget (s.cpu.sp - 2)).isSome = true →
    (∃ t u, exec (.pushRr q) s = .next t ∧ exec (.popRr q') t = .next u ∧ u.pair q' = s.pair q ∧
      u.cpu.sp = s.cpu.sp) ∧
    (∃ t u, exec .pushAf s = .next t ∧ exec .popAf t = .next u ∧ u.cpu = s.cpu)

/-! ### DAA and the rest of the accumulator group -/

/-- 46_misc_alu.md R280 (decisions D2, D13): DAA by its pseudocode. -/
def Obligations.DecimalAdjust : Prop :=
  ∀ s : State,
    let a := s.cpu.a.toNat
    let f := s.cpu.flags
    let up := (if f.h = true ∨ a % 16 > 9 then 0x06 else 0) + (if f.cy = true ∨ a > 0x99 then 0x60 else 0)
    let down := (if f.h = true then 0x06 else 0) + (if f.cy = true then 0x60 else 0)
    let res := if f.n = true then (a + 256 - down) % 256 else (a + up) % 256
    exec .daa s = .next (s.withAluResult (BitVec.ofNat 8 res)
      { z := decide (res = 0)
        n := f.n
        h := false
        cy := if f.n = true then f.cy else decide (f.cy = true ∨ a > 0x99) })

/-- 46_misc_alu.md R280 with 41_alu_a.md R164 (decision D13): adding two packed-decimal bytes and adjusting gives the
packed-decimal sum of two digits, with the hundred in Cy. -/
def Obligations.AddThenAdjustIsDecimalAddition : Prop :=
  ∀ (s : State) (x y : Nat), x < 100 → y < 100 → s.params.flagSource = .operands → s.cpu.a = decimalByte x →
    ∃ t u, exec (.addAN (decimalByte y)) s = .next t ∧ exec .daa t = .next u ∧
      u.cpu.a = decimalByte ((x + y) % 100) ∧ u.cpu.flags.cy = decide (x + y ≥ 100)

/-- 46_misc_alu.md R280 with 41_alu_a.md R170 (decision D13): the same for subtraction, with the borrow in Cy. -/
def Obligations.SubtractThenAdjustIsDecimalSubtraction : Prop :=
  ∀ (s : State) (x y : Nat), x < 100 → y < 100 → s.params.flagSource = .operands → s.cpu.a = decimalByte x →
    ∃ t u, exec (.subN (decimalByte y)) s = .next t ∧ exec .daa t = .next u ∧
      u.cpu.a = decimalByte ((x + 100 - y) % 100) ∧ u.cpu.flags.cy = decide (x < y)

/-- 46_misc_alu.md R281 to R287 (decisions D2, D12, D14): CPL, CCF, SCF and the rotates of A, whose Z is always 0. -/
def Obligations.AccumulatorOperations : Prop :=
  ∀ s : State,
    let v := s.cpu.a.toNat
    let c := s.cpu.flags.cy.toNat
    let f := s.cpu.flags
    let rotated (res : Nat) (out : Bool) : State :=
      s.withAluResult (BitVec.ofNat 8 res) { z := false, n := false, h := false, cy := out }
    exec .cpl s = .next (s.withAluResult (BitVec.ofNat 8 (255 - v)) { z := f.z, n := true, h := true, cy := f.cy }) ∧
    exec .ccf s = .next (s.setFlags { z := f.z, n := false, h := false, cy := !f.cy }) ∧
    exec .scf s = .next (s.setFlags { z := f.z, n := false, h := false, cy := true }) ∧
    exec .rlca s = .next (rotated (v * 2 % 256 + v / 128) (decide (v / 128 = 1))) ∧
    exec .rrca s = .next (rotated (v / 2 + v % 2 * 128) (decide (v % 2 = 1))) ∧
    exec .rla s = .next (rotated (v * 2 % 256 + c) (decide (v / 128 = 1))) ∧
    exec .rra s = .next (rotated (v / 2 + c * 128) (decide (v % 2 = 1)))

/-! ### Control transfer -/

/-- 47_control.md R290 to R295 (decisions D2, D17, D31, D36): jumps. PC points past the instruction, so a relative jump is
relative to the next one; a condition that fails changes nothing; no flag changes. -/
def Obligations.Jumps : Prop :=
  ∀ (s : State) (cc : Cond) (nn : Word) (e : Byte),
    let taken : Bool := match cc with
      | .nz => !s.cpu.flags.z
      | .z => s.cpu.flags.z
      | .nc => !s.cpu.flags.cy
      | .c => s.cpu.flags.cy
    let target : Word := BitVec.ofNat 16 (s.cpu.pc.toNat + if e.toNat < 0x80 then e.toNat else e.toNat + 0xFF00)
    let goto (w : Word) : State := { s with cpu := { s.cpu with pc := w } }
    exec (.jpNn nn) s = .next (goto nn) ∧
    exec (.jpCcNn cc nn) s = .next (if taken then goto nn else s) ∧
    exec .jpHl s = .next (goto s.hl) ∧
    exec (.jrE e) s = .next (goto target) ∧
    exec (.jrCcE cc e) s = .next (if taken then goto target else s)

/-- 47_control.md R296 to R301 (decisions D2, D16, D18, D22, D36): calls push the address of the next instruction;
returns pop PC; RETI sets `ime` at once and leaves `ime_sched`; RST goes to its vector. -/
def Obligations.CallsAndReturns : Prop :=
  ∀ (s : State) (cc : Cond) (nn : Word),
    let taken : Bool := match cc with
      | .nz => !s.cpu.flags.z
      | .z => s.cpu.flags.z
      | .nc => !s.cpu.flags.cy
      | .c => s.cpu.flags.cy
    let called (w : Word) : State :=
      { (s.writeByte (s.cpu.sp - 1) (BitVec.ofNat 8 (s.cpu.pc.toNat / 256))).writeByte (s.cpu.sp - 2)
          (BitVec.ofNat 8 (s.cpu.pc.toNat % 256)) with
        cpu := { s.cpu with sp := s.cpu.sp - 2, pc := w }
        cycles := s.cycles + 8 }
    let returned : State :=
      { s with
        cpu := { s.cpu with
          sp := s.cpu.sp + 2
          pc := BitVec.ofNat 16 ((s.readByte (s.cpu.sp + 1)).toNat * 256 + (s.readByte s.cpu.sp).toNat) }
        cycles := s.cycles + 8 }
    exec (.callNn nn) s = .next (called nn) ∧
    exec (.callCcNn cc nn) s = .next (if taken then called nn else s) ∧
    exec .ret s = .next returned ∧
    exec (.retCc cc) s = .next (if taken then returned else s) ∧
    exec .reti s = .next { returned with cpu := { returned.cpu with ime := true } } ∧
    (∀ y : Nat, y < 8 → exec (.rst (BitVec.ofNat 16 (8 * y))) s = .next (called (BitVec.ofNat 16 (8 * y))))

/-- 47_control.md R302 with R296, R298 and R301 (decision D16): where both bytes of the stack slot accept a write, a RET
right after a CALL or RST restores SP and continues after it. -/
def Obligations.ReturnUndoesCall : Prop :=
  ∀ (s : State) (i : Instr) (nn t : Word), (s.writeTarget (s.cpu.sp - 1)).isSome = true →
    (s.writeTarget (s.cpu.sp - 2)).isSome = true → i ∈ [Instr.callNn nn, .rst t] →
    ∃ u v, exec i s = .next u ∧ exec .ret u = .next v ∧ v.cpu = s.cpu

/-! ### System -/

/-- 48_system.md R310 to R315 (decisions D2, D19, D20, D21, D37): NOP and the eleven unknown opcodes do nothing; HALT
halts; STOP halts if its operand byte is 0x00 and does nothing otherwise; DI and EI only schedule. -/
def Obligations.SystemInstructions : Prop :=
  ∀ (s : State) (n : Byte),
    exec .nop s = .next s ∧
    exec .halt s = .next { s with cpu := { s.cpu with halted := true } } ∧
    exec (.stop n) s = .next (if n.toNat = 0 then { s with cpu := { s.cpu with halted := true } } else s) ∧
    exec .di s = .next { s with cpu := { s.cpu with imeSched := .fresh false } } ∧
    exec .ei s = .next { s with cpu := { s.cpu with imeSched := .fresh true } } ∧
    exec .unknownD3 s = .next s ∧ exec .unknownDB s = .next s ∧ exec .unknownDD s = .next s ∧
    exec .unknownE3 s = .next s ∧ exec .unknownE4 s = .next s ∧ exec .unknownEB s = .next s ∧
    exec .unknownEC s = .next s ∧ exec .unknownED s = .next s ∧ exec .unknownF4 s = .next s ∧
    exec .unknownFC s = .next s ∧ exec .unknownFD s = .next s

/-! ### Memory -/

/-- 20_memory.md R62, R63, R65, R66, R68, R74, with the bounds of R60; the clauses of the unassigned range and of bank
validity are decisions D30 and D28 (R61, R64). The address decode of a read, by the numbers of the map. -/
def Obligations.ReadsFollowTheMemoryMap : Prop :=
  ∀ (s : State) (addr : Word),
    let a := addr.toNat
    let x := if 0xE000 ≤ a ∧ a ≤ 0xFDFF then a - 0x2000 else a
    s.readByte addr =
      if 0xFEA0 ≤ x ∧ x ≤ 0xFEFF then 0xFF
      else if (0x8000 ≤ x ∧ x ≤ 0x9FFF ∧ s.mmu.vramLock = true) ∨ (0xFE00 ≤ x ∧ x ≤ 0xFE9F ∧ s.mmu.oamLock = true) then
        0xFF
      else if x ≤ 0x3FFF then s.readCell ⟨.rom0, x⟩
      else if x ≤ 0x7FFF then
        if s.mmu.rom1Index < s.romBanks - 1 then s.readCell ⟨.rom1, s.mmu.rom1Index * 0x4000 + (x - 0x4000)⟩ else 0xFF
      else if x ≤ 0x9FFF then
        if s.mmu.vramIndex < 2 then s.readCell ⟨.vram, s.mmu.vramIndex * 0x2000 + (x - 0x8000)⟩ else 0xFF
      else if x ≤ 0xBFFF then
        if s.mmu.eramIndex < s.ramBanks then s.readCell ⟨.eram, s.mmu.eramIndex * 0x2000 + (x - 0xA000)⟩ else 0xFF
      else if x ≤ 0xCFFF then s.readCell ⟨.wram0, x - 0xC000⟩
      else if x ≤ 0xDFFF then
        if s.mmu.wram1Index < 7 then s.readCell ⟨.wram1, s.mmu.wram1Index * 0x1000 + (x - 0xD000)⟩ else 0xFF
      else if x ≤ 0xFE9F then s.readCell ⟨.oam, x - 0xFE00⟩
      else if x ≤ 0xFF7F then s.readCell ⟨.io, x - 0xFF00⟩
      else if x ≤ 0xFFFE then s.readCell ⟨.hram, x - 0xFF80⟩
      else s.readCell ⟨.ie, 0⟩

/-- 20_memory.md R62, R63, R65, R70, R71, R73, R74, with the bounds of R60; the unassigned range, bank validity and the
dropping of a locked write are decisions D30, D28 and D29 (R61, R64, R72). Where a write lands, by the numbers of the
map. -/
def Obligations.WritesFollowTheMemoryMap : Prop :=
  ∀ (s : State) (addr : Word) (v : Byte),
    let a := addr.toNat
    let x := if 0xE000 ≤ a ∧ a ≤ 0xFDFF then a - 0x2000 else a
    s.writeByte addr v =
      if x ≤ 0x7FFF then s
      else if 0xFEA0 ≤ x ∧ x ≤ 0xFEFF then s
      else if (0x8000 ≤ x ∧ x ≤ 0x9FFF ∧ s.mmu.vramLock = true) ∨ (0xFE00 ≤ x ∧ x ≤ 0xFE9F ∧ s.mmu.oamLock = true) then
        s
      else if x ≤ 0x9FFF then
        if s.mmu.vramIndex < 2 then s.writeCell ⟨.vram, s.mmu.vramIndex * 0x2000 + (x - 0x8000)⟩ v else s
      else if x ≤ 0xBFFF then
        if s.mmu.eramIndex < s.ramBanks then s.writeCell ⟨.eram, s.mmu.eramIndex * 0x2000 + (x - 0xA000)⟩ v else s
      else if x ≤ 0xCFFF then s.writeCell ⟨.wram0, x - 0xC000⟩ v
      else if x ≤ 0xDFFF then
        if s.mmu.wram1Index < 7 then s.writeCell ⟨.wram1, s.mmu.wram1Index * 0x1000 + (x - 0xD000)⟩ v else s
      else if x ≤ 0xFE9F then s.writeCell ⟨.oam, x - 0xFE00⟩ v
      else if x ≤ 0xFF7F then s.writeCell ⟨.io, x - 0xFF00⟩ v
      else if x ≤ 0xFFFE then s.writeCell ⟨.hram, x - 0xFF80⟩ v
      else s.writeCell ⟨.ie, 0⟩ v

/-- 20_memory.md R95: a cell holds the last value written to it, and a write changes no other cell of any bank; through
addresses, after a write that lands every address of the same cell reads the value and every other address reads as
before. -/
def Obligations.ReadReturnsTheLastWrite : Prop :=
  (∀ (s : State) (c d : Cell) (v : Byte), (s.writeCell c v).readCell d = if d = c then v else s.readCell d) ∧
  (∀ (s : State) (addr b : Word) (v : Byte), (s.writeTarget addr).isSome = true →
    (s.writeByte addr v).readByte b = if redirect b = redirect addr then v else s.readByte b) ∧
  (∀ (s : State) (addr b : Word) (v : Byte), (s.writeTarget addr).isSome = false →
    (s.writeByte addr v).readByte b = s.readByte b)

/-- 20_memory.md R62: echo RAM is a redirection, to reads and writes alike. -/
def Obligations.EchoIsARedirection : Prop :=
  ∀ (s : State) (addr : Word) (v : Byte), 0xE000 ≤ addr.toNat → addr.toNat ≤ 0xFDFF →
    let target : Word := BitVec.ofNat 16 (addr.toNat - 0x2000)
    s.readByte addr = s.readByte target ∧ s.writeByte addr v = s.writeByte target v ∧
      s.readByteWith true addr = s.readByteWith true target

/-- 20_memory.md R71: a write to 0x0000 to 0x7FFF changes no state at all. -/
def Obligations.RomWritesChangeNothing : Prop :=
  ∀ (s : State) (addr : Word) (v : Byte), addr.toNat ≤ 0x7FFF → s.writeByte addr v = s

/-- 20_memory.md R65, R66, R67 (decisions D29, D45): while a lock is set every read of its region that does not ignore the
lock returns 0xFF and every write vanishes; no other address is denied: a read or write there is that of the machine with
both locks clear. -/
def Obligations.LockGateDeniesItsRegion : Prop :=
  ∀ (s : State) (addr : Word) (v : Byte),
    ((0x8000 ≤ addr.toNat ∧ addr.toNat ≤ 0x9FFF ∧ s.mmu.vramLock = true) ∨
      (0xFE00 ≤ addr.toNat ∧ addr.toNat ≤ 0xFE9F ∧ s.mmu.oamLock = true) →
        s.readByte addr = 0xFF ∧ s.writeByte addr v = s) ∧
    (¬ ((0x8000 ≤ addr.toNat ∧ addr.toNat ≤ 0x9FFF ∧ s.mmu.vramLock = true) ∨
      (0xFE00 ≤ addr.toNat ∧ addr.toNat ≤ 0xFE9F ∧ s.mmu.oamLock = true)) →
        s.readByte addr = s.readByteWith true addr ∧
        (let t := State.writeByte { s with mmu := { s.mmu with vramLock := false, oamLock := false } } addr v
         s.writeByte addr v =
           { t with mmu := { t.mmu with vramLock := s.mmu.vramLock, oamLock := s.mmu.oamLock } })) ∧
    (s.readByteWith true addr =
      State.readByte { s with mmu := { s.mmu with vramLock := false, oamLock := false } } addr)

/-! ### Rules about all instructions -/

/-- 20_memory.md R71, R84, 10_state.md R32, R33, R37 (decisions D26, D29): no instruction changes ROM, a bank index, a
lock, the cartridge record or a parameter, nor the host's schedule or an array that is out of the machine. -/
def Obligations.InstructionsLeaveRomAndController : Prop :=
  ∀ (i : Instr) (s t : State), exec i s = .next t →
    t.mmu.rom0 = s.mmu.rom0 ∧ t.mmu.rom1 = s.mmu.rom1 ∧ t.mmu.rom1Index = s.mmu.rom1Index ∧
      t.mmu.vramIndex = s.mmu.vramIndex ∧ t.mmu.eramIndex = s.mmu.eramIndex ∧ t.mmu.wram1Index = s.mmu.wram1Index ∧
      t.mmu.vramLock = s.mmu.vramLock ∧ t.mmu.oamLock = s.mmu.oamLock ∧ t.cart = s.cart ∧ t.params = s.params ∧
      t.loadError = s.loadError ∧ t.slot = s.slot ∧ t.shelf = s.shelf ∧ t.epoch = s.epoch ∧ t.host = s.host

/-- 20_memory.md R80, R82 (derived there): the addresses each instruction stores to, computed from the state it runs in;
every cell and every address outside them is as before, and an instruction that is not in the list of R82 leaves all of
the MMU. The row of the byte 0xCB runs another instruction (`PrefixByteRunsTheSecondByte`). -/
def Obligations.StoresOnlyAtTheirAddresses : Prop :=
  ∀ (i : Instr) (s t : State), i ≠ .prefixCb → exec i s = .next t →
    (∀ c : Cell, (∀ a ∈ i.storeAddresses s, s.writeTarget a ≠ some c) → t.readCell c = s.readCell c) ∧
    (∀ b : Word, (∀ a ∈ i.storeAddresses s, redirect b ≠ redirect a) → t.readByte b = s.readByte b) ∧
    (i.storeAddresses s = [] → t.mmu = s.mmu)

/-- 10_state.md R20, R22, R23, R27, R28, R29 (decisions D19, D21, D22, D31): every register is unchanged but the
destinations the instruction's rule names, SP but for the list of R22, PC but for control transfer, `halted` but for HALT
and STOP, `ime` but for RETI, `ime_sched` but for DI and EI. -/
def Obligations.RegistersOnlyByTheirInstructions : Prop :=
  ∀ (i : Instr) (s t : State), i ≠ .prefixCb → exec i s = .next t →
    (∀ r : Reg8, i.writesReg8 r = false → t.reg8 r = s.reg8 r) ∧
    (i.writesSp = false → t.cpu.sp = s.cpu.sp) ∧
    (i.writesPc = false → t.cpu.pc = s.cpu.pc) ∧
    ((∀ n, i ≠ .halt ∧ i ≠ .stop n) → t.cpu.halted = s.cpu.halted) ∧
    (i ≠ .reti → t.cpu.ime = s.cpu.ime) ∧
    (i ≠ .di ∧ i ≠ .ei → t.cpu.imeSched = s.cpu.imeSched)

/-- 10_state.md R26: which instructions may change each flag; every other instruction leaves it unchanged. -/
def Obligations.FlagsOnlyByTheirInstructions : Prop :=
  ∀ (i : Instr) (s t : State), i ≠ .prefixCb → exec i s = .next t →
    (i.setsZ = false → t.cpu.flags.z = s.cpu.flags.z) ∧
    (i.setsN = false → t.cpu.flags.n = s.cpu.flags.n) ∧
    (i.setsH = false → t.cpu.flags.h = s.cpu.flags.h) ∧
    (i.setsCy = false → t.cpu.flags.cy = s.cpu.flags.cy)

/-- 70_reset_and_hazards.md R363, R364 (decision D36): a call that fetches an instruction's bytes and runs it counts what
the timing table says. -/
def Obligations.CycleLaw : Prop :=
  ∀ (i : Instr) (s t : State), i ≠ .prefixCb → s.cycles = 4 * (encode i).length → finishCall i s = .next t →
    t.cycles = callCycles s.cpu.flags i

/-! ### One call -/

/-- 30_encoding.md R120, R121, 20_memory.md R92 (decisions D19, D21, D23): after the host's turn, a machine with a
cartridge that is not halted and has no request pending fetches the bytes its first byte asks for, runs the instruction
they decode to with PC past them and their accesses counted, and ends with the delayed toggle. The host's turn before it
takes one batch of port calls in order (R85, R88, R90, R91; log 7: that they come in batches is the model's choice), and
each port writes its own register or byte of I/O and nothing else. -/
def Obligations.StepRunsTheDecodedInstruction : Prop :=
  (∀ (s u : State) (i : Instr), u = s.hostTurn → u.cart.isSome = true → u.cpu.halted = false → ¬ u.requestPending →
    decode u.nextBytes = .ok (i, []) →
    step s = match exec i u.afterFetch with
      | .next t => .next (match t.cpu.imeSched with
        | .aged v => { t with cpu := { t.cpu with ime := v, imeSched := .none } }
        | .fresh v => { t with cpu := { t.cpu with imeSched := .aged v } }
        | .none => t)
      | .fault e => .fault e
      | .refused e => .refused e) ∧
  (∀ s : State, s.host = [] → s.hostTurn = s) ∧
  (∀ (s : State) (batch : List HostAction) (rest : List (List HostAction)), s.host = batch :: rest →
    s.hostTurn = batch.foldl State.applyAction { s with host := rest }) ∧
  (∀ (s : State) (i : Nat) (locked : Bool) (offset : BitVec 7) (v : Byte) (number : Nat) (image : List Byte),
    s.applyAction (.setROM1Index i) = { s with mmu := { s.mmu with rom1Index := i } } ∧
    s.applyAction (.setVRAMLock locked) = { s with mmu := { s.mmu with vramLock := locked } } ∧
    s.applyAction (.setOAMLock locked) = { s with mmu := { s.mmu with oamLock := locked } } ∧
    s.applyAction (.writeIo offset v) = { s with mmu := { s.mmu with io := s.mmu.io.write offset.toNat v } } ∧
    (∀ k : Nat, (s.applyAction (.writeIo offset v)).readCell ⟨.io, k⟩ =
      if k = offset.toNat then v else s.readCell ⟨.io, k⟩) ∧
    s.applyAction .reset = s.resetCore ∧ s.applyAction .powerOff = s.powerOff ∧
    s.applyAction (.powerOn number image) = s.powerOn number image)

/-- 60_exceptions.md R328 (decisions D19, D23): with a request pending and `ime` false the call ends the halted state and
executes the instruction at PC. -/
def Obligations.PendingRequestEndsHalt : Prop :=
  ∀ (s u : State) (i : Instr), u = s.hostTurn → u.cart.isSome = true → u.requestPending → u.cpu.ime = false →
    decode u.nextBytes = .ok (i, []) → step s = finishCall i u.afterFetch

/-- 60_exceptions.md R340 (decisions D19, D36): a halted call with no request pending changes nothing and returns 4. -/
def Obligations.HaltedCallChangesNothing : Prop :=
  ∀ s u : State, u = s.hostTurn → u.cart.isSome = true → u.cpu.halted = true → ¬ u.requestPending →
    step s = .next { u with cycles := 4 }

/-- 60_exceptions.md R328, R329, R330 (decisions D16, D23, D36, D41): with `ime` set, the lowest pending enabled request
`i` is taken: its bit of IF is cleared, `ime` and the toggle are cleared, `halted` ends, PC goes onto the stack high byte
first, PC becomes 0x0040 + 8 i, and the call returns 20. -/
def Obligations.InterruptEntry : Prop :=
  ∀ (s u : State) (i : Nat), u = s.hostTurn → u.cart.isSome = true → u.params.irqDispatch = true →
    u.cpu.ime = true → i < 5 →
    (∀ j, j ≤ i → ((u.readCell ⟨.ie, 0⟩).getLsbD j = true ∧ (u.readCell ⟨.io, 0x0F⟩).getLsbD j = true ↔ j = i)) →
    let acknowledged := u.writeCell ⟨.io, 0x0F⟩ (BitVec.ofNat 8 ((u.readCell ⟨.io, 0x0F⟩).toNat - 2 ^ i))
    step s = .next
      { (acknowledged.writeByte (u.cpu.sp - 1) (BitVec.ofNat 8 (u.cpu.pc.toNat / 256))).writeByte (u.cpu.sp - 2)
          (BitVec.ofNat 8 (u.cpu.pc.toNat % 256)) with
        cpu := { u.cpu with
          halted := false
          ime := false
          imeSched := .none
          sp := u.cpu.sp - 2
          pc := BitVec.ofNat 16 (0x40 + 8 * i) }
        cycles := 20 }

/-- 60_exceptions.md R326, R331 (decisions D21, D22): DI and EI leave `ime` and are applied at the end of the call of the
next instruction, where they win over RETI; a later DI or EI replaces them; without a pending toggle only RETI changes
`ime`. -/
def Obligations.EnableToggleIsDelayedByOneInstruction : Prop :=
  (∀ (s : State) (v : Bool), finishCall (if v = true then .ei else .di) s =
    .next { s with cpu := { s.cpu with imeSched := .aged v } }) ∧
  (∀ (i : Instr) (s t : State) (v : Bool), i ≠ .di → i ≠ .ei → s.cpu.imeSched = .aged v → finishCall i s = .next t →
    t.cpu.ime = v ∧ t.cpu.imeSched = .none) ∧
  (∀ (i : Instr) (s t : State), i ≠ .di → i ≠ .ei → s.cpu.imeSched = .none → finishCall i s = .next t →
    t.cpu.ime = (if i = .reti then true else s.cpu.ime) ∧ t.cpu.imeSched = .none)

/-- 70_reset_and_hazards.md R359, 20_memory.md R61, R62, R64, R65, R98 (decisions D28, D30, D45): with PC in the unassigned
range, in locked VRAM or OAM or in a region whose bank index is invalid (ROM1, VRAM, ERAM, WRAM1, and the echo of WRAM1),
the call runs RST 38: it pushes PC + 1 and goes to 0x0038. -/
def Obligations.FetchFromDeniedPlaceIsRst38 : Prop :=
  ∀ s : State, s.cart.isSome = true → s.host = [] → s.cpu.halted = false → ¬ s.requestPending →
    s.cpu.imeSched = .none →
    ((0xFEA0 ≤ s.cpu.pc.toNat ∧ s.cpu.pc.toNat ≤ 0xFEFF) ∨
      (0x8000 ≤ s.cpu.pc.toNat ∧ s.cpu.pc.toNat ≤ 0x9FFF ∧ s.mmu.vramLock = true) ∨
      (0xFE00 ≤ s.cpu.pc.toNat ∧ s.cpu.pc.toNat ≤ 0xFE9F ∧ s.mmu.oamLock = true) ∨
      (0x4000 ≤ s.cpu.pc.toNat ∧ s.cpu.pc.toNat ≤ 0x7FFF ∧ ¬ s.mmu.rom1Index < s.romBanks - 1) ∨
      (0x8000 ≤ s.cpu.pc.toNat ∧ s.cpu.pc.toNat ≤ 0x9FFF ∧ ¬ s.mmu.vramIndex < 2) ∨
      (0xA000 ≤ s.cpu.pc.toNat ∧ s.cpu.pc.toNat ≤ 0xBFFF ∧ ¬ s.mmu.eramIndex < s.ramBanks) ∨
      (0xD000 ≤ s.cpu.pc.toNat ∧ s.cpu.pc.toNat ≤ 0xDFFF ∧ ¬ s.mmu.wram1Index < 7) ∨
      (0xF000 ≤ s.cpu.pc.toNat ∧ s.cpu.pc.toNat ≤ 0xFDFF ∧ ¬ s.mmu.wram1Index < 7)) →
    step s = .next
      { (s.writeByte (s.cpu.sp - 1) (BitVec.ofNat 8 ((s.cpu.pc + 1).toNat / 256))).writeByte (s.cpu.sp - 2)
          (BitVec.ofNat 8 ((s.cpu.pc + 1).toNat % 256)) with
        cpu := { s.cpu with sp := s.cpu.sp - 2, pc := 0x0038 }
        cycles := 12 }

/-- 70_reset_and_hazards.md R355, 60_exceptions.md R339 (decisions D19, D48): without interrupt dispatch and without host
actions the halted state is quiescent, for any number of calls. -/
def Obligations.HaltedMachineStaysHalted : Prop :=
  ∀ (s : State) (k : Nat), s.cart.isSome = true → s.host = [] → s.params.irqDispatch = false → s.cpu.halted = true →
    Host.Core.run Sys2Proof.core (k + 1) s = .next { s with cycles := 4 }

/-! ### Loader and reset -/

/-- 20_memory.md R106, R107: the size tables, the header bytes they map, and that every other code is fatal. -/
def Obligations.SizeTables : Prop :=
  (∀ code : Byte, romBanksOf code = if code.toNat ≤ 8 then some (2 ^ (code.toNat + 1)) else none) ∧
  (∀ code : Byte, ramBanksOf code =
    if code.toNat = 0 then some 0 else if code.toNat = 2 then some 1 else if code.toNat = 3 then some 4
    else if code.toNat = 4 then some 16 else if code.toNat = 5 then some 8 else none) ∧
  (∀ (image : List Byte) (c : Cartridge), initCartridge image = .ok c →
    romBanksOf (image.getD 0x148 0) = some c.romBanks ∧ ramBanksOf (image.getD 0x149 0) = some c.ramBanks) ∧
  (∀ image : List Byte, romBanksOf (image.getD 0x148 0) = none ∨ ramBanksOf (image.getD 0x149 0) = none →
    ∃ e, initCartridge image = .error e)

/-- 20_memory.md R100 to R107 (decisions D32, D33, D34, D35): the loader accepts exactly the images with a readable
header, a right checksum and size codes of the tables, and the record holds the header's fields; otherwise the first
failing step decides the error. -/
def Obligations.LoaderAcceptsExactlyTheGoodHeaders : Prop :=
  (∀ (image : List Byte) (c : Cartridge), initCartridge image = .ok c ↔
    0x150 ≤ image.length ∧
    ((List.range 25).map (fun k => 255 - (image.getD (0x134 + k) 0).toNat)).sum % 256 =
      (image.getD 0x14D 0).toNat ∧
    romBanksOf (image.getD 0x148 0) = some c.romBanks ∧ ramBanksOf (image.getD 0x149 0) = some c.ramBanks ∧
    c.mbc = image.getD 0x147 0 ∧
    (c.persistent = true ↔ c.mbc.toNat ∈ [0x03, 0x06, 0x09, 0x0F, 0x10, 0x13, 0x1B, 0x1E]) ∧
    ∀ k : Fin 16, c.title[k] = image.getD (0x134 + k.val) 0) ∧
  (∀ image : List Byte, image.length < 0x150 → initCartridge image = .error .unreadableHeader) ∧
  (∀ image : List Byte, 0x150 ≤ image.length →
    ((List.range 25).map (fun k => 255 - (image.getD (0x134 + k) 0).toNat)).sum % 256 ≠
      (image.getD 0x14D 0).toNat →
    initCartridge image = .error .badChecksum) ∧
  (∀ image : List Byte, 0x150 ≤ image.length →
    ((List.range 25).map (fun k => 255 - (image.getD (0x134 + k) 0).toNat)).sum % 256 =
      (image.getD 0x14D 0).toNat →
    (romBanksOf (image.getD 0x148 0) = none ∨ ramBanksOf (image.getD 0x149 0) = none) →
    initCartridge image = .error .invalidSizeCode)

/-- 20_memory.md R86, R87, R109, R110, R113, 70_reset_and_hazards.md R353 (decisions D27, D46): after a power-on with a
good image as long as its header says, ROM0 is the first 0x4000 bytes, bank `k` of ROM1 is the bytes from
`(k + 1) * 0x4000` on, the record is the loader's, and the CPU is in its reset state. -/
def Obligations.PowerOnFillsRom : Prop :=
  ∀ (s : State) (number : Nat) (image : List Byte) (c : Cartridge), initCartridge image = .ok c →
    c.romBanks * 0x4000 ≤ image.length →
    let t := s.powerOn number image
    t.cart = some c ∧ t.loadError = none ∧ t.cpu = Cpu.reset s.params ∧ t.mmu.rom1Index = 0 ∧
    t.mmu.vramLock = false ∧ t.mmu.oamLock = false ∧
    (∀ j, j < 0x4000 → t.readCell ⟨.rom0, j⟩ = image.getD j 0) ∧
    (∀ k j, k < c.romBanks - 1 → j < 0x4000 →
      t.readCell ⟨.rom1, k * 0x4000 + j⟩ = image.getD ((k + 1) * 0x4000 + j) 0)

/-- 20_memory.md R108, R110 (decision D46), 10_state.md R43: a load-fatal error, also one of an image shorter than its header
says, leaves no cartridge. The refusals by name are the model's choice (log 6, log 9): the spec puts `execute()` outside
the domain (93_implementation_defined.md U22) after a load-fatal error and before any load. -/
def Obligations.NoCallAfterALoadFatalError : Prop :=
  (∀ (s : State) (number : Nat) (image : List Byte) (e : LoadError), initCartridge image = .error e →
    (s.powerOn number image).cart = none ∧ execute (s.powerOn number image) = .refused (.loadFatal e)) ∧
  (∀ (s : State) (number : Nat) (image : List Byte) (c : Cartridge), initCartridge image = .ok c →
    image.length < c.romBanks * 0x4000 →
    (s.powerOn number image).cart = none ∧ execute (s.powerOn number image) = .refused (.loadFatal .romCorrupt)) ∧
  (∀ s : State, s.cart = none → s.loadError = none → execute s = .refused .noCartridge)

/-- 70_reset_and_hazards.md R350, R351, 10_state.md R41, R42. The values are the spec's own choice (decisions D24, D26,
D29) and the model's parameters (log 3): a reset puts every CPU register at its parameter, clears `halted`, `ime`,
`ime_sched`, the locks and `rom1_index`, and keeps the cartridge and its ROM; State.reset has the default values. -/
def Obligations.ResetPutsEveryRegisterAtItsValue : Prop :=
  (∀ s : State,
    let t := s.resetCore
    t.af = s.params.resetAF &&& 0xFFF0 ∧ t.bc = s.params.resetBC ∧ t.de = s.params.resetDE ∧ t.hl = s.params.resetHL ∧
    t.cpu.sp = s.params.resetSP ∧ t.cpu.pc = s.params.resetPC ∧ t.cpu.halted = false ∧ t.cpu.ime = false ∧
    t.cpu.imeSched = .none ∧ t.mmu.rom1Index = 0 ∧ t.mmu.vramIndex = s.params.vramIndex ∧
    t.mmu.eramIndex = s.params.eramIndex ∧ t.mmu.wram1Index = s.params.wram1Index ∧ t.mmu.vramLock = false ∧
    t.mmu.oamLock = false ∧ t.mmu.rom0 = s.mmu.rom0 ∧ t.mmu.rom1 = s.mmu.rom1 ∧ t.cart = s.cart ∧
    t.params = s.params) ∧
  (State.reset.af = 0x01B0 ∧ State.reset.bc = 0x0013 ∧ State.reset.de = 0x00D8 ∧ State.reset.hl = 0x014D ∧
    State.reset.cpu.sp = 0xFFFE ∧ State.reset.cpu.pc = 0x0100 ∧ State.reset.cpu.halted = false ∧
    State.reset.cpu.ime = false ∧ State.reset.cpu.imeSched = .none ∧ State.reset.cart = none)

/-- 20_memory.md R75, 10_state.md R34 (decisions D25, D43): with a persistent cartridge every byte of ERAM survives a reset
and a power-off: the same cartridge powered on again, at once, after a power-off, or after a session with another one,
starts with those bytes, as far as both sizes reach. Without persistence the array is lost at power-off. The number that
says which cartridge it is and the shelf that holds its array meanwhile are the model's (log 9). That a byte nothing has
written reads the same again is the model's choice too (log 8: R42 and R352 call such a byte unspecified). -/
def Obligations.PersistentRamSurvives : Prop :=
  (∀ (s : State) (c : Cartridge) (i : Nat), s.cart = some c → c.persistent = true →
    s.resetCore.readCell ⟨.eram, i⟩ = s.readCell ⟨.eram, i⟩) ∧
  (∀ (s : State) (image : List Byte) (c d : Cartridge) (i : Nat), s.cart = some c → c.persistent = true →
    s.mmu.eram.wf = true → initCartridge image = .ok d → d.romBanks * 0x4000 ≤ image.length → d.persistent = true →
    i < c.ramBanks * 0x2000 → i < d.ramBanks * 0x2000 →
    (s.powerOn s.slot image).readCell ⟨.eram, i⟩ = s.readCell ⟨.eram, i⟩ ∧
    (s.powerOff.powerOn s.slot image).readCell ⟨.eram, i⟩ = s.readCell ⟨.eram, i⟩ ∧
    ∀ (number : Nat) (other : List Byte), number ≠ s.slot →
      ((s.powerOn number other).powerOn s.slot image).readCell ⟨.eram, i⟩ = s.readCell ⟨.eram, i⟩) ∧
  (∀ (s : State) (c : Cartridge), s.cart = some c → c.persistent = false →
    s.powerOff.mmu.eram = {} ∧ s.powerOff.shelf = s.shelf) ∧
  (∀ (s : State) (number : Nat) (image : List Byte) (d : Cartridge), initCartridge image = .ok d →
    d.romBanks * 0x4000 ≤ image.length → d.persistent = false → (s.powerOn number image).mmu.eram = {})

/-! ### Invariants and headline results -/

/-- 10_state.md R31, R42, R43: the invariant holds at State.reset. The canonical form it asks of the arrays is the model's
choice (log 4), and so are the machine that starts empty and without a cartridge (log 3, log 4, log 6) and the empty shelf
(log 9). -/
def Obligations.ResetMeetsTheInvariant : Prop := State.reset.Inv

/-- 10_state.md R31, R37, 20_memory.md R63, R105 to R107: in every state, reached or not, a step keeps every byte array
inside its size and canonical, the cartridge record legal and the shelf canonical, whatever actions the host's turn takes.
The canonical form and the one list for an array are the model's choice (log 4, log 5), the shelf is log 9, and what the
host may do is the list of actions of log 7 and no more. -/
def Obligations.EveryStepKeepsTheInvariant : Prop :=
  ∀ s t : State, s.Inv → step s = .next t → t.Inv

/-- 60_exceptions.md R323, 30_encoding.md R139: the decoder-invariant violation is unreachable, from any state. -/
def Obligations.NoStepFaults : Prop :=
  ∀ (s : State) (e : Fault), step s ≠ .fault e

/-- 60_exceptions.md R320: no instruction, operand, address or encoding stops the machine. A machine that has a cartridge
it keeps, in the flag mode the spec defines whole, takes any number of steps. -/
def Obligations.ReadyMachineNeverStops : Prop :=
  ∀ (s : State) (k : Nat), s.Ready → s.RunsFor k

/-- 20_memory.md R65, 70_reset_and_hazards.md R357 (decision D29): while a lock is set and the host leaves it, what the
locked array holds can neither be learnt nor changed by the program: replacing it commutes with a step. -/
def Obligations.LockedMemoryIsIsolated : Prop :=
  (∀ (s t : State) (x : Memory), s.host = [] → s.mmu.vramLock = true → step s = .next t →
    step { s with mmu := { s.mmu with vram := x } } = .next { t with mmu := { t.mmu with vram := x } } ∧
      t.mmu.vram = s.mmu.vram ∧ t.mmu.vramLock = true) ∧
  (∀ (s t : State) (x : Memory), s.host = [] → s.mmu.oamLock = true → step s = .next t →
    step { s with mmu := { s.mmu with oam := x } } = .next { t with mmu := { t.mmu with oam := x } } ∧
      t.mmu.oam = s.mmu.oam ∧ t.mmu.oamLock = true)
end

