-- ==== Sys2Proof/Laws/State.lean ====
section
/-! SUPPORT. What each state update leaves and writes: one lemma per field per update, for the simplifier. An update of the
CPU has one lemma for the whole CPU record (its other fields are seen through it) and one for every other field and
every view of storage. -/

namespace Sys2Proof.Machine

/-! ### `setPc` -/

@[simp] theorem State.setPc_cpu (s : State) (v : Word) : (s.setPc v).cpu = { s.cpu with pc := v } := rfl
@[simp] theorem State.setPc_params (s : State) (v : Word) : (s.setPc v).params = s.params := rfl
@[simp] theorem State.setPc_mmu (s : State) (v : Word) : (s.setPc v).mmu = s.mmu := rfl
@[simp] theorem State.setPc_cart (s : State) (v : Word) : (s.setPc v).cart = s.cart := rfl
@[simp] theorem State.setPc_loadError (s : State) (v : Word) : (s.setPc v).loadError = s.loadError := rfl
@[simp] theorem State.setPc_slot (s : State) (v : Word) : (s.setPc v).slot = s.slot := rfl
@[simp] theorem State.setPc_shelf (s : State) (v : Word) : (s.setPc v).shelf = s.shelf := rfl
@[simp] theorem State.setPc_cycles (s : State) (v : Word) : (s.setPc v).cycles = s.cycles := rfl
@[simp] theorem State.setPc_epoch (s : State) (v : Word) : (s.setPc v).epoch = s.epoch := rfl
@[simp] theorem State.setPc_host (s : State) (v : Word) : (s.setPc v).host = s.host := rfl
@[simp] theorem State.setPc_romBanks (s : State) (v : Word) :
    (s.setPc v).romBanks = s.romBanks := rfl
@[simp] theorem State.setPc_ramBanks (s : State) (v : Word) :
    (s.setPc v).ramBanks = s.ramBanks := rfl
@[simp] theorem State.setPc_persistent (s : State) (v : Word) :
    (s.setPc v).persistent = s.persistent := rfl
@[simp] theorem State.setPc_readCell (s : State) (v : Word) (c : Cell) :
    (s.setPc v).readCell c = s.readCell c := rfl
@[simp] theorem State.setPc_locate (s : State) (v : Word) (addr : Word) :
    (s.setPc v).locate addr = s.locate addr := rfl
@[simp] theorem State.setPc_lockDenied (s : State) (v : Word) (addr : Word) :
    (s.setPc v).lockDenied addr = s.lockDenied addr := rfl
@[simp] theorem State.setPc_writeTarget (s : State) (v : Word) (addr : Word) :
    (s.setPc v).writeTarget addr = s.writeTarget addr := rfl
@[simp] theorem State.setPc_readByteWith (s : State) (v : Word) (ign : Bool) (addr : Word) :
    (s.setPc v).readByteWith ign addr = s.readByteWith ign addr := rfl
@[simp] theorem State.setPc_readByte (s : State) (v : Word) (addr : Word) :
    (s.setPc v).readByte addr = s.readByte addr := rfl
@[simp] theorem State.setPc_pendingInterrupts (s : State) (v : Word) :
    (s.setPc v).pendingInterrupts = s.pendingInterrupts := rfl

/-! ### `setSp` -/

@[simp] theorem State.setSp_cpu (s : State) (v : Word) : (s.setSp v).cpu = { s.cpu with sp := v } := rfl
@[simp] theorem State.setSp_params (s : State) (v : Word) : (s.setSp v).params = s.params := rfl
@[simp] theorem State.setSp_mmu (s : State) (v : Word) : (s.setSp v).mmu = s.mmu := rfl
@[simp] theorem State.setSp_cart (s : State) (v : Word) : (s.setSp v).cart = s.cart := rfl
@[simp] theorem State.setSp_loadError (s : State) (v : Word) : (s.setSp v).loadError = s.loadError := rfl
@[simp] theorem State.setSp_slot (s : State) (v : Word) : (s.setSp v).slot = s.slot := rfl
@[simp] theorem State.setSp_shelf (s : State) (v : Word) : (s.setSp v).shelf = s.shelf := rfl
@[simp] theorem State.setSp_cycles (s : State) (v : Word) : (s.setSp v).cycles = s.cycles := rfl
@[simp] theorem State.setSp_epoch (s : State) (v : Word) : (s.setSp v).epoch = s.epoch := rfl
@[simp] theorem State.setSp_host (s : State) (v : Word) : (s.setSp v).host = s.host := rfl
@[simp] theorem State.setSp_romBanks (s : State) (v : Word) :
    (s.setSp v).romBanks = s.romBanks := rfl
@[simp] theorem State.setSp_ramBanks (s : State) (v : Word) :
    (s.setSp v).ramBanks = s.ramBanks := rfl
@[simp] theorem State.setSp_persistent (s : State) (v : Word) :
    (s.setSp v).persistent = s.persistent := rfl
@[simp] theorem State.setSp_readCell (s : State) (v : Word) (c : Cell) :
    (s.setSp v).readCell c = s.readCell c := rfl
@[simp] theorem State.setSp_locate (s : State) (v : Word) (addr : Word) :
    (s.setSp v).locate addr = s.locate addr := rfl
@[simp] theorem State.setSp_lockDenied (s : State) (v : Word) (addr : Word) :
    (s.setSp v).lockDenied addr = s.lockDenied addr := rfl
@[simp] theorem State.setSp_writeTarget (s : State) (v : Word) (addr : Word) :
    (s.setSp v).writeTarget addr = s.writeTarget addr := rfl
@[simp] theorem State.setSp_readByteWith (s : State) (v : Word) (ign : Bool) (addr : Word) :
    (s.setSp v).readByteWith ign addr = s.readByteWith ign addr := rfl
@[simp] theorem State.setSp_readByte (s : State) (v : Word) (addr : Word) :
    (s.setSp v).readByte addr = s.readByte addr := rfl
@[simp] theorem State.setSp_pendingInterrupts (s : State) (v : Word) :
    (s.setSp v).pendingInterrupts = s.pendingInterrupts := rfl

/-! ### `setA` -/

@[simp] theorem State.setA_cpu (s : State) (v : Byte) : (s.setA v).cpu = { s.cpu with a := v } := rfl
@[simp] theorem State.setA_params (s : State) (v : Byte) : (s.setA v).params = s.params := rfl
@[simp] theorem State.setA_mmu (s : State) (v : Byte) : (s.setA v).mmu = s.mmu := rfl
@[simp] theorem State.setA_cart (s : State) (v : Byte) : (s.setA v).cart = s.cart := rfl
@[simp] theorem State.setA_loadError (s : State) (v : Byte) : (s.setA v).loadError = s.loadError := rfl
@[simp] theorem State.setA_slot (s : State) (v : Byte) : (s.setA v).slot = s.slot := rfl
@[simp] theorem State.setA_shelf (s : State) (v : Byte) : (s.setA v).shelf = s.shelf := rfl
@[simp] theorem State.setA_cycles (s : State) (v : Byte) : (s.setA v).cycles = s.cycles := rfl
@[simp] theorem State.setA_epoch (s : State) (v : Byte) : (s.setA v).epoch = s.epoch := rfl
@[simp] theorem State.setA_host (s : State) (v : Byte) : (s.setA v).host = s.host := rfl
@[simp] theorem State.setA_romBanks (s : State) (v : Byte) :
    (s.setA v).romBanks = s.romBanks := rfl
@[simp] theorem State.setA_ramBanks (s : State) (v : Byte) :
    (s.setA v).ramBanks = s.ramBanks := rfl
@[simp] theorem State.setA_persistent (s : State) (v : Byte) :
    (s.setA v).persistent = s.persistent := rfl
@[simp] theorem State.setA_readCell (s : State) (v : Byte) (c : Cell) :
    (s.setA v).readCell c = s.readCell c := rfl
@[simp] theorem State.setA_locate (s : State) (v : Byte) (addr : Word) :
    (s.setA v).locate addr = s.locate addr := rfl
@[simp] theorem State.setA_lockDenied (s : State) (v : Byte) (addr : Word) :
    (s.setA v).lockDenied addr = s.lockDenied addr := rfl
@[simp] theorem State.setA_writeTarget (s : State) (v : Byte) (addr : Word) :
    (s.setA v).writeTarget addr = s.writeTarget addr := rfl
@[simp] theorem State.setA_readByteWith (s : State) (v : Byte) (ign : Bool) (addr : Word) :
    (s.setA v).readByteWith ign addr = s.readByteWith ign addr := rfl
@[simp] theorem State.setA_readByte (s : State) (v : Byte) (addr : Word) :
    (s.setA v).readByte addr = s.readByte addr := rfl
@[simp] theorem State.setA_pendingInterrupts (s : State) (v : Byte) :
    (s.setA v).pendingInterrupts = s.pendingInterrupts := rfl

/-! ### `setFlags` -/

@[simp] theorem State.setFlags_cpu (s : State) (v : Flags) : (s.setFlags v).cpu = { s.cpu with flags := v } := rfl
@[simp] theorem State.setFlags_params (s : State) (v : Flags) : (s.setFlags v).params = s.params := rfl
@[simp] theorem State.setFlags_mmu (s : State) (v : Flags) : (s.setFlags v).mmu = s.mmu := rfl
@[simp] theorem State.setFlags_cart (s : State) (v : Flags) : (s.setFlags v).cart = s.cart := rfl
@[simp] theorem State.setFlags_loadError (s : State) (v : Flags) : (s.setFlags v).loadError = s.loadError := rfl
@[simp] theorem State.setFlags_slot (s : State) (v : Flags) : (s.setFlags v).slot = s.slot := rfl
@[simp] theorem State.setFlags_shelf (s : State) (v : Flags) : (s.setFlags v).shelf = s.shelf := rfl
@[simp] theorem State.setFlags_cycles (s : State) (v : Flags) : (s.setFlags v).cycles = s.cycles := rfl
@[simp] theorem State.setFlags_epoch (s : State) (v : Flags) : (s.setFlags v).epoch = s.epoch := rfl
@[simp] theorem State.setFlags_host (s : State) (v : Flags) : (s.setFlags v).host = s.host := rfl
@[simp] theorem State.setFlags_romBanks (s : State) (v : Flags) :
    (s.setFlags v).romBanks = s.romBanks := rfl
@[simp] theorem State.setFlags_ramBanks (s : State) (v : Flags) :
    (s.setFlags v).ramBanks = s.ramBanks := rfl
@[simp] theorem State.setFlags_persistent (s : State) (v : Flags) :
    (s.setFlags v).persistent = s.persistent := rfl
@[simp] theorem State.setFlags_readCell (s : State) (v : Flags) (c : Cell) :
    (s.setFlags v).readCell c = s.readCell c := rfl
@[simp] theorem State.setFlags_locate (s : State) (v : Flags) (addr : Word) :
    (s.setFlags v).locate addr = s.locate addr := rfl
@[simp] theorem State.setFlags_lockDenied (s : State) (v : Flags) (addr : Word) :
    (s.setFlags v).lockDenied addr = s.lockDenied addr := rfl
@[simp] theorem State.setFlags_writeTarget (s : State) (v : Flags) (addr : Word) :
    (s.setFlags v).writeTarget addr = s.writeTarget addr := rfl
@[simp] theorem State.setFlags_readByteWith (s : State) (v : Flags) (ign : Bool) (addr : Word) :
    (s.setFlags v).readByteWith ign addr = s.readByteWith ign addr := rfl
@[simp] theorem State.setFlags_readByte (s : State) (v : Flags) (addr : Word) :
    (s.setFlags v).readByte addr = s.readByte addr := rfl
@[simp] theorem State.setFlags_pendingInterrupts (s : State) (v : Flags) :
    (s.setFlags v).pendingInterrupts = s.pendingInterrupts := rfl

/-! ### `setHalted` -/

@[simp] theorem State.setHalted_cpu (s : State) (v : Bool) : (s.setHalted v).cpu = { s.cpu with halted := v } := rfl
@[simp] theorem State.setHalted_params (s : State) (v : Bool) : (s.setHalted v).params = s.params := rfl
@[simp] theorem State.setHalted_mmu (s : State) (v : Bool) : (s.setHalted v).mmu = s.mmu := rfl
@[simp] theorem State.setHalted_cart (s : State) (v : Bool) : (s.setHalted v).cart = s.cart := rfl
@[simp] theorem State.setHalted_loadError (s : State) (v : Bool) : (s.setHalted v).loadError = s.loadError := rfl
@[simp] theorem State.setHalted_slot (s : State) (v : Bool) : (s.setHalted v).slot = s.slot := rfl
@[simp] theorem State.setHalted_shelf (s : State) (v : Bool) : (s.setHalted v).shelf = s.shelf := rfl
@[simp] theorem State.setHalted_cycles (s : State) (v : Bool) : (s.setHalted v).cycles = s.cycles := rfl
@[simp] theorem State.setHalted_epoch (s : State) (v : Bool) : (s.setHalted v).epoch = s.epoch := rfl
@[simp] theorem State.setHalted_host (s : State) (v : Bool) : (s.setHalted v).host = s.host := rfl
@[simp] theorem State.setHalted_romBanks (s : State) (v : Bool) :
    (s.setHalted v).romBanks = s.romBanks := rfl
@[simp] theorem State.setHalted_ramBanks (s : State) (v : Bool) :
    (s.setHalted v).ramBanks = s.ramBanks := rfl
@[simp] theorem State.setHalted_persistent (s : State) (v : Bool) :
    (s.setHalted v).persistent = s.persistent := rfl
@[simp] theorem State.setHalted_readCell (s : State) (v : Bool) (c : Cell) :
    (s.setHalted v).readCell c = s.readCell c := rfl
@[simp] theorem State.setHalted_locate (s : State) (v : Bool) (addr : Word) :
    (s.setHalted v).locate addr = s.locate addr := rfl
@[simp] theorem State.setHalted_lockDenied (s : State) (v : Bool) (addr : Word) :
    (s.setHalted v).lockDenied addr = s.lockDenied addr := rfl
@[simp] theorem State.setHalted_writeTarget (s : State) (v : Bool) (addr : Word) :
    (s.setHalted v).writeTarget addr = s.writeTarget addr := rfl
@[simp] theorem State.setHalted_readByteWith (s : State) (v : Bool) (ign : Bool) (addr : Word) :
    (s.setHalted v).readByteWith ign addr = s.readByteWith ign addr := rfl
@[simp] theorem State.setHalted_readByte (s : State) (v : Bool) (addr : Word) :
    (s.setHalted v).readByte addr = s.readByte addr := rfl
@[simp] theorem State.setHalted_pendingInterrupts (s : State) (v : Bool) :
    (s.setHalted v).pendingInterrupts = s.pendingInterrupts := rfl

/-! ### `setIme` -/

@[simp] theorem State.setIme_cpu (s : State) (v : Bool) : (s.setIme v).cpu = { s.cpu with ime := v } := rfl
@[simp] theorem State.setIme_params (s : State) (v : Bool) : (s.setIme v).params = s.params := rfl
@[simp] theorem State.setIme_mmu (s : State) (v : Bool) : (s.setIme v).mmu = s.mmu := rfl
@[simp] theorem State.setIme_cart (s : State) (v : Bool) : (s.setIme v).cart = s.cart := rfl
@[simp] theorem State.setIme_loadError (s : State) (v : Bool) : (s.setIme v).loadError = s.loadError := rfl
@[simp] theorem State.setIme_slot (s : State) (v : Bool) : (s.setIme v).slot = s.slot := rfl
@[simp] theorem State.setIme_shelf (s : State) (v : Bool) : (s.setIme v).shelf = s.shelf := rfl
@[simp] theorem State.setIme_cycles (s : State) (v : Bool) : (s.setIme v).cycles = s.cycles := rfl
@[simp] theorem State.setIme_epoch (s : State) (v : Bool) : (s.setIme v).epoch = s.epoch := rfl
@[simp] theorem State.setIme_host (s : State) (v : Bool) : (s.setIme v).host = s.host := rfl
@[simp] theorem State.setIme_romBanks (s : State) (v : Bool) :
    (s.setIme v).romBanks = s.romBanks := rfl
@[simp] theorem State.setIme_ramBanks (s : State) (v : Bool) :
    (s.setIme v).ramBanks = s.ramBanks := rfl
@[simp] theorem State.setIme_persistent (s : State) (v : Bool) :
    (s.setIme v).persistent = s.persistent := rfl
@[simp] theorem State.setIme_readCell (s : State) (v : Bool) (c : Cell) :
    (s.setIme v).readCell c = s.readCell c := rfl
@[simp] theorem State.setIme_locate (s : State) (v : Bool) (addr : Word) :
    (s.setIme v).locate addr = s.locate addr := rfl
@[simp] theorem State.setIme_lockDenied (s : State) (v : Bool) (addr : Word) :
    (s.setIme v).lockDenied addr = s.lockDenied addr := rfl
@[simp] theorem State.setIme_writeTarget (s : State) (v : Bool) (addr : Word) :
    (s.setIme v).writeTarget addr = s.writeTarget addr := rfl
@[simp] theorem State.setIme_readByteWith (s : State) (v : Bool) (ign : Bool) (addr : Word) :
    (s.setIme v).readByteWith ign addr = s.readByteWith ign addr := rfl
@[simp] theorem State.setIme_readByte (s : State) (v : Bool) (addr : Word) :
    (s.setIme v).readByte addr = s.readByte addr := rfl
@[simp] theorem State.setIme_pendingInterrupts (s : State) (v : Bool) :
    (s.setIme v).pendingInterrupts = s.pendingInterrupts := rfl

/-! ### `setImeSched` -/

@[simp] theorem State.setImeSched_cpu (s : State) (v : ImeSched) : (s.setImeSched v).cpu = { s.cpu with imeSched := v } := rfl
@[simp] theorem State.setImeSched_params (s : State) (v : ImeSched) : (s.setImeSched v).params = s.params := rfl
@[simp] theorem State.setImeSched_mmu (s : State) (v : ImeSched) : (s.setImeSched v).mmu = s.mmu := rfl
@[simp] theorem State.setImeSched_cart (s : State) (v : ImeSched) : (s.setImeSched v).cart = s.cart := rfl
@[simp] theorem State.setImeSched_loadError (s : State) (v : ImeSched) : (s.setImeSched v).loadError = s.loadError := rfl
@[simp] theorem State.setImeSched_slot (s : State) (v : ImeSched) : (s.setImeSched v).slot = s.slot := rfl
@[simp] theorem State.setImeSched_shelf (s : State) (v : ImeSched) : (s.setImeSched v).shelf = s.shelf := rfl
@[simp] theorem State.setImeSched_cycles (s : State) (v : ImeSched) : (s.setImeSched v).cycles = s.cycles := rfl
@[simp] theorem State.setImeSched_epoch (s : State) (v : ImeSched) : (s.setImeSched v).epoch = s.epoch := rfl
@[simp] theorem State.setImeSched_host (s : State) (v : ImeSched) : (s.setImeSched v).host = s.host := rfl
@[simp] theorem State.setImeSched_romBanks (s : State) (v : ImeSched) :
    (s.setImeSched v).romBanks = s.romBanks := rfl
@[simp] theorem State.setImeSched_ramBanks (s : State) (v : ImeSched) :
    (s.setImeSched v).ramBanks = s.ramBanks := rfl
@[simp] theorem State.setImeSched_persistent (s : State) (v : ImeSched) :
    (s.setImeSched v).persistent = s.persistent := rfl
@[simp] theorem State.setImeSched_readCell (s : State) (v : ImeSched) (c : Cell) :
    (s.setImeSched v).readCell c = s.readCell c := rfl
@[simp] theorem State.setImeSched_locate (s : State) (v : ImeSched) (addr : Word) :
    (s.setImeSched v).locate addr = s.locate addr := rfl
@[simp] theorem State.setImeSched_lockDenied (s : State) (v : ImeSched) (addr : Word) :
    (s.setImeSched v).lockDenied addr = s.lockDenied addr := rfl
@[simp] theorem State.setImeSched_writeTarget (s : State) (v : ImeSched) (addr : Word) :
    (s.setImeSched v).writeTarget addr = s.writeTarget addr := rfl
@[simp] theorem State.setImeSched_readByteWith (s : State) (v : ImeSched) (ign : Bool) (addr : Word) :
    (s.setImeSched v).readByteWith ign addr = s.readByteWith ign addr := rfl
@[simp] theorem State.setImeSched_readByte (s : State) (v : ImeSched) (addr : Word) :
    (s.setImeSched v).readByte addr = s.readByte addr := rfl
@[simp] theorem State.setImeSched_pendingInterrupts (s : State) (v : ImeSched) :
    (s.setImeSched v).pendingInterrupts = s.pendingInterrupts := rfl

/-! ### `setBc` -/

@[simp] theorem State.setBc_cpu (s : State) (v : Word) : (s.setBc v).cpu = { s.cpu with b := highByte v, c := lowByte v } := rfl
@[simp] theorem State.setBc_params (s : State) (v : Word) : (s.setBc v).params = s.params := rfl
@[simp] theorem State.setBc_mmu (s : State) (v : Word) : (s.setBc v).mmu = s.mmu := rfl
@[simp] theorem State.setBc_cart (s : State) (v : Word) : (s.setBc v).cart = s.cart := rfl
@[simp] theorem State.setBc_loadError (s : State) (v : Word) : (s.setBc v).loadError = s.loadError := rfl
@[simp] theorem State.setBc_slot (s : State) (v : Word) : (s.setBc v).slot = s.slot := rfl
@[simp] theorem State.setBc_shelf (s : State) (v : Word) : (s.setBc v).shelf = s.shelf := rfl
@[simp] theorem State.setBc_cycles (s : State) (v : Word) : (s.setBc v).cycles = s.cycles := rfl
@[simp] theorem State.setBc_epoch (s : State) (v : Word) : (s.setBc v).epoch = s.epoch := rfl
@[simp] theorem State.setBc_host (s : State) (v : Word) : (s.setBc v).host = s.host := rfl
@[simp] theorem State.setBc_romBanks (s : State) (v : Word) :
    (s.setBc v).romBanks = s.romBanks := rfl
@[simp] theorem State.setBc_ramBanks (s : State) (v : Word) :
    (s.setBc v).ramBanks = s.ramBanks := rfl
@[simp] theorem State.setBc_persistent (s : State) (v : Word) :
    (s.setBc v).persistent = s.persistent := rfl
@[simp] theorem State.setBc_readCell (s : State) (v : Word) (c : Cell) :
    (s.setBc v).readCell c = s.readCell c := rfl
@[simp] theorem State.setBc_locate (s : State) (v : Word) (addr : Word) :
    (s.setBc v).locate addr = s.locate addr := rfl
@[simp] theorem State.setBc_lockDenied (s : State) (v : Word) (addr : Word) :
    (s.setBc v).lockDenied addr = s.lockDenied addr := rfl
@[simp] theorem State.setBc_writeTarget (s : State) (v : Word) (addr : Word) :
    (s.setBc v).writeTarget addr = s.writeTarget addr := rfl
@[simp] theorem State.setBc_readByteWith (s : State) (v : Word) (ign : Bool) (addr : Word) :
    (s.setBc v).readByteWith ign addr = s.readByteWith ign addr := rfl
@[simp] theorem State.setBc_readByte (s : State) (v : Word) (addr : Word) :
    (s.setBc v).readByte addr = s.readByte addr := rfl
@[simp] theorem State.setBc_pendingInterrupts (s : State) (v : Word) :
    (s.setBc v).pendingInterrupts = s.pendingInterrupts := rfl

/-! ### `setDe` -/

@[simp] theorem State.setDe_cpu (s : State) (v : Word) : (s.setDe v).cpu = { s.cpu with d := highByte v, e := lowByte v } := rfl
@[simp] theorem State.setDe_params (s : State) (v : Word) : (s.setDe v).params = s.params := rfl
@[simp] theorem State.setDe_mmu (s : State) (v : Word) : (s.setDe v).mmu = s.mmu := rfl
@[simp] theorem State.setDe_cart (s : State) (v : Word) : (s.setDe v).cart = s.cart := rfl
@[simp] theorem State.setDe_loadError (s : State) (v : Word) : (s.setDe v).loadError = s.loadError := rfl
@[simp] theorem State.setDe_slot (s : State) (v : Word) : (s.setDe v).slot = s.slot := rfl
@[simp] theorem State.setDe_shelf (s : State) (v : Word) : (s.setDe v).shelf = s.shelf := rfl
@[simp] theorem State.setDe_cycles (s : State) (v : Word) : (s.setDe v).cycles = s.cycles := rfl
@[simp] theorem State.setDe_epoch (s : State) (v : Word) : (s.setDe v).epoch = s.epoch := rfl
@[simp] theorem State.setDe_host (s : State) (v : Word) : (s.setDe v).host = s.host := rfl
@[simp] theorem State.setDe_romBanks (s : State) (v : Word) :
    (s.setDe v).romBanks = s.romBanks := rfl
@[simp] theorem State.setDe_ramBanks (s : State) (v : Word) :
    (s.setDe v).ramBanks = s.ramBanks := rfl
@[simp] theorem State.setDe_persistent (s : State) (v : Word) :
    (s.setDe v).persistent = s.persistent := rfl
@[simp] theorem State.setDe_readCell (s : State) (v : Word) (c : Cell) :
    (s.setDe v).readCell c = s.readCell c := rfl
@[simp] theorem State.setDe_locate (s : State) (v : Word) (addr : Word) :
    (s.setDe v).locate addr = s.locate addr := rfl
@[simp] theorem State.setDe_lockDenied (s : State) (v : Word) (addr : Word) :
    (s.setDe v).lockDenied addr = s.lockDenied addr := rfl
@[simp] theorem State.setDe_writeTarget (s : State) (v : Word) (addr : Word) :
    (s.setDe v).writeTarget addr = s.writeTarget addr := rfl
@[simp] theorem State.setDe_readByteWith (s : State) (v : Word) (ign : Bool) (addr : Word) :
    (s.setDe v).readByteWith ign addr = s.readByteWith ign addr := rfl
@[simp] theorem State.setDe_readByte (s : State) (v : Word) (addr : Word) :
    (s.setDe v).readByte addr = s.readByte addr := rfl
@[simp] theorem State.setDe_pendingInterrupts (s : State) (v : Word) :
    (s.setDe v).pendingInterrupts = s.pendingInterrupts := rfl

/-! ### `setHl` -/

@[simp] theorem State.setHl_cpu (s : State) (v : Word) : (s.setHl v).cpu = { s.cpu with h := highByte v, l := lowByte v } := rfl
@[simp] theorem State.setHl_params (s : State) (v : Word) : (s.setHl v).params = s.params := rfl
@[simp] theorem State.setHl_mmu (s : State) (v : Word) : (s.setHl v).mmu = s.mmu := rfl
@[simp] theorem State.setHl_cart (s : State) (v : Word) : (s.setHl v).cart = s.cart := rfl
@[simp] theorem State.setHl_loadError (s : State) (v : Word) : (s.setHl v).loadError = s.loadError := rfl
@[simp] theorem State.setHl_slot (s : State) (v : Word) : (s.setHl v).slot = s.slot := rfl
@[simp] theorem State.setHl_shelf (s : State) (v : Word) : (s.setHl v).shelf = s.shelf := rfl
@[simp] theorem State.setHl_cycles (s : State) (v : Word) : (s.setHl v).cycles = s.cycles := rfl
@[simp] theorem State.setHl_epoch (s : State) (v : Word) : (s.setHl v).epoch = s.epoch := rfl
@[simp] theorem State.setHl_host (s : State) (v : Word) : (s.setHl v).host = s.host := rfl
@[simp] theorem State.setHl_romBanks (s : State) (v : Word) :
    (s.setHl v).romBanks = s.romBanks := rfl
@[simp] theorem State.setHl_ramBanks (s : State) (v : Word) :
    (s.setHl v).ramBanks = s.ramBanks := rfl
@[simp] theorem State.setHl_persistent (s : State) (v : Word) :
    (s.setHl v).persistent = s.persistent := rfl
@[simp] theorem State.setHl_readCell (s : State) (v : Word) (c : Cell) :
    (s.setHl v).readCell c = s.readCell c := rfl
@[simp] theorem State.setHl_locate (s : State) (v : Word) (addr : Word) :
    (s.setHl v).locate addr = s.locate addr := rfl
@[simp] theorem State.setHl_lockDenied (s : State) (v : Word) (addr : Word) :
    (s.setHl v).lockDenied addr = s.lockDenied addr := rfl
@[simp] theorem State.setHl_writeTarget (s : State) (v : Word) (addr : Word) :
    (s.setHl v).writeTarget addr = s.writeTarget addr := rfl
@[simp] theorem State.setHl_readByteWith (s : State) (v : Word) (ign : Bool) (addr : Word) :
    (s.setHl v).readByteWith ign addr = s.readByteWith ign addr := rfl
@[simp] theorem State.setHl_readByte (s : State) (v : Word) (addr : Word) :
    (s.setHl v).readByte addr = s.readByte addr := rfl
@[simp] theorem State.setHl_pendingInterrupts (s : State) (v : Word) :
    (s.setHl v).pendingInterrupts = s.pendingInterrupts := rfl

/-! ### `setAf` -/

@[simp] theorem State.setAf_cpu (s : State) (v : Word) : (s.setAf v).cpu = { s.cpu with a := highByte v, flags := Flags.ofByte (lowByte v) } := rfl
@[simp] theorem State.setAf_params (s : State) (v : Word) : (s.setAf v).params = s.params := rfl
@[simp] theorem State.setAf_mmu (s : State) (v : Word) : (s.setAf v).mmu = s.mmu := rfl
@[simp] theorem State.setAf_cart (s : State) (v : Word) : (s.setAf v).cart = s.cart := rfl
@[simp] theorem State.setAf_loadError (s : State) (v : Word) : (s.setAf v).loadError = s.loadError := rfl
@[simp] theorem State.setAf_slot (s : State) (v : Word) : (s.setAf v).slot = s.slot := rfl
@[simp] theorem State.setAf_shelf (s : State) (v : Word) : (s.setAf v).shelf = s.shelf := rfl
@[simp] theorem State.setAf_cycles (s : State) (v : Word) : (s.setAf v).cycles = s.cycles := rfl
@[simp] theorem State.setAf_epoch (s : State) (v : Word) : (s.setAf v).epoch = s.epoch := rfl
@[simp] theorem State.setAf_host (s : State) (v : Word) : (s.setAf v).host = s.host := rfl
@[simp] theorem State.setAf_romBanks (s : State) (v : Word) :
    (s.setAf v).romBanks = s.romBanks := rfl
@[simp] theorem State.setAf_ramBanks (s : State) (v : Word) :
    (s.setAf v).ramBanks = s.ramBanks := rfl
@[simp] theorem State.setAf_persistent (s : State) (v : Word) :
    (s.setAf v).persistent = s.persistent := rfl
@[simp] theorem State.setAf_readCell (s : State) (v : Word) (c : Cell) :
    (s.setAf v).readCell c = s.readCell c := rfl
@[simp] theorem State.setAf_locate (s : State) (v : Word) (addr : Word) :
    (s.setAf v).locate addr = s.locate addr := rfl
@[simp] theorem State.setAf_lockDenied (s : State) (v : Word) (addr : Word) :
    (s.setAf v).lockDenied addr = s.lockDenied addr := rfl
@[simp] theorem State.setAf_writeTarget (s : State) (v : Word) (addr : Word) :
    (s.setAf v).writeTarget addr = s.writeTarget addr := rfl
@[simp] theorem State.setAf_readByteWith (s : State) (v : Word) (ign : Bool) (addr : Word) :
    (s.setAf v).readByteWith ign addr = s.readByteWith ign addr := rfl
@[simp] theorem State.setAf_readByte (s : State) (v : Word) (addr : Word) :
    (s.setAf v).readByte addr = s.readByte addr := rfl
@[simp] theorem State.setAf_pendingInterrupts (s : State) (v : Word) :
    (s.setAf v).pendingInterrupts = s.pendingInterrupts := rfl

/-! ### `setAluResult` -/

@[simp] theorem State.setAluResult_cpu (s : State) (v : Byte) (f : Flags) : (s.setAluResult v f).cpu = { s.cpu with a := v, flags := f } := rfl
@[simp] theorem State.setAluResult_params (s : State) (v : Byte) (f : Flags) : (s.setAluResult v f).params = s.params := rfl
@[simp] theorem State.setAluResult_mmu (s : State) (v : Byte) (f : Flags) : (s.setAluResult v f).mmu = s.mmu := rfl
@[simp] theorem State.setAluResult_cart (s : State) (v : Byte) (f : Flags) : (s.setAluResult v f).cart = s.cart := rfl
@[simp] theorem State.setAluResult_loadError (s : State) (v : Byte) (f : Flags) : (s.setAluResult v f).loadError = s.loadError := rfl
@[simp] theorem State.setAluResult_slot (s : State) (v : Byte) (f : Flags) : (s.setAluResult v f).slot = s.slot := rfl
@[simp] theorem State.setAluResult_shelf (s : State) (v : Byte) (f : Flags) : (s.setAluResult v f).shelf = s.shelf := rfl
@[simp] theorem State.setAluResult_cycles (s : State) (v : Byte) (f : Flags) : (s.setAluResult v f).cycles = s.cycles := rfl
@[simp] theorem State.setAluResult_epoch (s : State) (v : Byte) (f : Flags) : (s.setAluResult v f).epoch = s.epoch := rfl
@[simp] theorem State.setAluResult_host (s : State) (v : Byte) (f : Flags) : (s.setAluResult v f).host = s.host := rfl
@[simp] theorem State.setAluResult_romBanks (s : State) (v : Byte) (f : Flags) :
    (s.setAluResult v f).romBanks = s.romBanks := rfl
@[simp] theorem State.setAluResult_ramBanks (s : State) (v : Byte) (f : Flags) :
    (s.setAluResult v f).ramBanks = s.ramBanks := rfl
@[simp] theorem State.setAluResult_persistent (s : State) (v : Byte) (f : Flags) :
    (s.setAluResult v f).persistent = s.persistent := rfl
@[simp] theorem State.setAluResult_readCell (s : State) (v : Byte) (f : Flags) (c : Cell) :
    (s.setAluResult v f).readCell c = s.readCell c := rfl
@[simp] theorem State.setAluResult_locate (s : State) (v : Byte) (f : Flags) (addr : Word) :
    (s.setAluResult v f).locate addr = s.locate addr := rfl
@[simp] theorem State.setAluResult_lockDenied (s : State) (v : Byte) (f : Flags) (addr : Word) :
    (s.setAluResult v f).lockDenied addr = s.lockDenied addr := rfl
@[simp] theorem State.setAluResult_writeTarget (s : State) (v : Byte) (f : Flags) (addr : Word) :
    (s.setAluResult v f).writeTarget addr = s.writeTarget addr := rfl
@[simp] theorem State.setAluResult_readByteWith (s : State) (v : Byte) (f : Flags) (ign : Bool) (addr : Word) :
    (s.setAluResult v f).readByteWith ign addr = s.readByteWith ign addr := rfl
@[simp] theorem State.setAluResult_readByte (s : State) (v : Byte) (f : Flags) (addr : Word) :
    (s.setAluResult v f).readByte addr = s.readByte addr := rfl
@[simp] theorem State.setAluResult_pendingInterrupts (s : State) (v : Byte) (f : Flags) :
    (s.setAluResult v f).pendingInterrupts = s.pendingInterrupts := rfl

/-! ### `tick` -/

@[simp] theorem State.tick_cpu (s : State) : s.tick.cpu = s.cpu := rfl
@[simp] theorem State.tick_params (s : State) : s.tick.params = s.params := rfl
@[simp] theorem State.tick_mmu (s : State) : s.tick.mmu = s.mmu := rfl
@[simp] theorem State.tick_cart (s : State) : s.tick.cart = s.cart := rfl
@[simp] theorem State.tick_loadError (s : State) : s.tick.loadError = s.loadError := rfl
@[simp] theorem State.tick_slot (s : State) : s.tick.slot = s.slot := rfl
@[simp] theorem State.tick_shelf (s : State) : s.tick.shelf = s.shelf := rfl
@[simp] theorem State.tick_cycles (s : State) : s.tick.cycles = s.cycles + 4 := rfl
@[simp] theorem State.tick_epoch (s : State) : s.tick.epoch = s.epoch := rfl
@[simp] theorem State.tick_host (s : State) : s.tick.host = s.host := rfl
@[simp] theorem State.tick_romBanks (s : State) :
    s.tick.romBanks = s.romBanks := rfl
@[simp] theorem State.tick_ramBanks (s : State) :
    s.tick.ramBanks = s.ramBanks := rfl
@[simp] theorem State.tick_persistent (s : State) :
    s.tick.persistent = s.persistent := rfl
@[simp] theorem State.tick_readCell (s : State) (c : Cell) :
    s.tick.readCell c = s.readCell c := rfl
@[simp] theorem State.tick_locate (s : State) (addr : Word) :
    s.tick.locate addr = s.locate addr := rfl
@[simp] theorem State.tick_lockDenied (s : State) (addr : Word) :
    s.tick.lockDenied addr = s.lockDenied addr := rfl
@[simp] theorem State.tick_writeTarget (s : State) (addr : Word) :
    s.tick.writeTarget addr = s.writeTarget addr := rfl
@[simp] theorem State.tick_readByteWith (s : State) (ign : Bool) (addr : Word) :
    s.tick.readByteWith ign addr = s.readByteWith ign addr := rfl
@[simp] theorem State.tick_readByte (s : State) (addr : Word) :
    s.tick.readByte addr = s.readByte addr := rfl
@[simp] theorem State.tick_pendingInterrupts (s : State) :
    s.tick.pendingInterrupts = s.pendingInterrupts := rfl

/-! ### `setReg8` -/

@[simp] theorem State.setReg8_params (s : State) (r : Reg8) (v : Byte) : (s.setReg8 r v).params = s.params := by
  cases r <;> rfl
@[simp] theorem State.setReg8_mmu (s : State) (r : Reg8) (v : Byte) : (s.setReg8 r v).mmu = s.mmu := by
  cases r <;> rfl
@[simp] theorem State.setReg8_cart (s : State) (r : Reg8) (v : Byte) : (s.setReg8 r v).cart = s.cart := by
  cases r <;> rfl
@[simp] theorem State.setReg8_loadError (s : State) (r : Reg8) (v : Byte) : (s.setReg8 r v).loadError = s.loadError := by
  cases r <;> rfl
@[simp] theorem State.setReg8_slot (s : State) (r : Reg8) (v : Byte) : (s.setReg8 r v).slot = s.slot := by
  cases r <;> rfl
@[simp] theorem State.setReg8_shelf (s : State) (r : Reg8) (v : Byte) : (s.setReg8 r v).shelf = s.shelf := by
  cases r <;> rfl
@[simp] theorem State.setReg8_cycles (s : State) (r : Reg8) (v : Byte) : (s.setReg8 r v).cycles = s.cycles := by
  cases r <;> rfl
@[simp] theorem State.setReg8_epoch (s : State) (r : Reg8) (v : Byte) : (s.setReg8 r v).epoch = s.epoch := by
  cases r <;> rfl
@[simp] theorem State.setReg8_host (s : State) (r : Reg8) (v : Byte) : (s.setReg8 r v).host = s.host := by
  cases r <;> rfl
@[simp] theorem State.setReg8_flags (s : State) (r : Reg8) (v : Byte) :
    (s.setReg8 r v).cpu.flags = s.cpu.flags := by
  cases r <;> rfl
@[simp] theorem State.setReg8_pc (s : State) (r : Reg8) (v : Byte) :
    (s.setReg8 r v).cpu.pc = s.cpu.pc := by
  cases r <;> rfl
@[simp] theorem State.setReg8_halted (s : State) (r : Reg8) (v : Byte) :
    (s.setReg8 r v).cpu.halted = s.cpu.halted := by
  cases r <;> rfl
@[simp] theorem State.setReg8_ime (s : State) (r : Reg8) (v : Byte) :
    (s.setReg8 r v).cpu.ime = s.cpu.ime := by
  cases r <;> rfl
@[simp] theorem State.setReg8_imeSched (s : State) (r : Reg8) (v : Byte) :
    (s.setReg8 r v).cpu.imeSched = s.cpu.imeSched := by
  cases r <;> rfl
@[simp] theorem State.setReg8_sp (s : State) (r : Reg8) (v : Byte) :
    (s.setReg8 r v).cpu.sp = s.cpu.sp := by
  cases r <;> rfl
@[simp] theorem State.setReg8_romBanks (s : State) (r : Reg8) (v : Byte) :
    (s.setReg8 r v).romBanks = s.romBanks := by
  cases r <;> rfl
@[simp] theorem State.setReg8_ramBanks (s : State) (r : Reg8) (v : Byte) :
    (s.setReg8 r v).ramBanks = s.ramBanks := by
  cases r <;> rfl
@[simp] theorem State.setReg8_persistent (s : State) (r : Reg8) (v : Byte) :
    (s.setReg8 r v).persistent = s.persistent := by
  cases r <;> rfl
@[simp] theorem State.setReg8_readCell (s : State) (r : Reg8) (v : Byte) (c : Cell) :
    (s.setReg8 r v).readCell c = s.readCell c := by
  cases r <;> rfl
@[simp] theorem State.setReg8_locate (s : State) (r : Reg8) (v : Byte) (addr : Word) :
    (s.setReg8 r v).locate addr = s.locate addr := by
  cases r <;> rfl
@[simp] theorem State.setReg8_lockDenied (s : State) (r : Reg8) (v : Byte) (addr : Word) :
    (s.setReg8 r v).lockDenied addr = s.lockDenied addr := by
  cases r <;> rfl
@[simp] theorem State.setReg8_writeTarget (s : State) (r : Reg8) (v : Byte) (addr : Word) :
    (s.setReg8 r v).writeTarget addr = s.writeTarget addr := by
  cases r <;> rfl
@[simp] theorem State.setReg8_readByteWith (s : State) (r : Reg8) (v : Byte) (ign : Bool) (addr : Word) :
    (s.setReg8 r v).readByteWith ign addr = s.readByteWith ign addr := by
  cases r <;> rfl
@[simp] theorem State.setReg8_readByte (s : State) (r : Reg8) (v : Byte) (addr : Word) :
    (s.setReg8 r v).readByte addr = s.readByte addr := by
  cases r <;> rfl
@[simp] theorem State.setReg8_pendingInterrupts (s : State) (r : Reg8) (v : Byte) :
    (s.setReg8 r v).pendingInterrupts = s.pendingInterrupts := by
  cases r <;> rfl

/-! ### `setReg16` -/

@[simp] theorem State.setReg16_params (s : State) (rr : Reg16) (v : Word) : (s.setReg16 rr v).params = s.params := by
  cases rr <;> rfl
@[simp] theorem State.setReg16_mmu (s : State) (rr : Reg16) (v : Word) : (s.setReg16 rr v).mmu = s.mmu := by
  cases rr <;> rfl
@[simp] theorem State.setReg16_cart (s : State) (rr : Reg16) (v : Word) : (s.setReg16 rr v).cart = s.cart := by
  cases rr <;> rfl
@[simp] theorem State.setReg16_loadError (s : State) (rr : Reg16) (v : Word) : (s.setReg16 rr v).loadError = s.loadError := by
  cases rr <;> rfl
@[simp] theorem State.setReg16_slot (s : State) (rr : Reg16) (v : Word) : (s.setReg16 rr v).slot = s.slot := by
  cases rr <;> rfl
@[simp] theorem State.setReg16_shelf (s : State) (rr : Reg16) (v : Word) : (s.setReg16 rr v).shelf = s.shelf := by
  cases rr <;> rfl
@[simp] theorem State.setReg16_cycles (s : State) (rr : Reg16) (v : Word) : (s.setReg16 rr v).cycles = s.cycles := by
  cases rr <;> rfl
@[simp] theorem State.setReg16_epoch (s : State) (rr : Reg16) (v : Word) : (s.setReg16 rr v).epoch = s.epoch := by
  cases rr <;> rfl
@[simp] theorem State.setReg16_host (s : State) (rr : Reg16) (v : Word) : (s.setReg16 rr v).host = s.host := by
  cases rr <;> rfl
@[simp] theorem State.setReg16_flags (s : State) (rr : Reg16) (v : Word) :
    (s.setReg16 rr v).cpu.flags = s.cpu.flags := by
  cases rr <;> rfl
@[simp] theorem State.setReg16_pc (s : State) (rr : Reg16) (v : Word) :
    (s.setReg16 rr v).cpu.pc = s.cpu.pc := by
  cases rr <;> rfl
@[simp] theorem State.setReg16_halted (s : State) (rr : Reg16) (v : Word) :
    (s.setReg16 rr v).cpu.halted = s.cpu.halted := by
  cases rr <;> rfl
@[simp] theorem State.setReg16_ime (s : State) (rr : Reg16) (v : Word) :
    (s.setReg16 rr v).cpu.ime = s.cpu.ime := by
  cases rr <;> rfl
@[simp] theorem State.setReg16_imeSched (s : State) (rr : Reg16) (v : Word) :
    (s.setReg16 rr v).cpu.imeSched = s.cpu.imeSched := by
  cases rr <;> rfl
@[simp] theorem State.setReg16_romBanks (s : State) (rr : Reg16) (v : Word) :
    (s.setReg16 rr v).romBanks = s.romBanks := by
  cases rr <;> rfl
@[simp] theorem State.setReg16_ramBanks (s : State) (rr : Reg16) (v : Word) :
    (s.setReg16 rr v).ramBanks = s.ramBanks := by
  cases rr <;> rfl
@[simp] theorem State.setReg16_persistent (s : State) (rr : Reg16) (v : Word) :
    (s.setReg16 rr v).persistent = s.persistent := by
  cases rr <;> rfl
@[simp] theorem State.setReg16_readCell (s : State) (rr : Reg16) (v : Word) (c : Cell) :
    (s.setReg16 rr v).readCell c = s.readCell c := by
  cases rr <;> rfl
@[simp] theorem State.setReg16_locate (s : State) (rr : Reg16) (v : Word) (addr : Word) :
    (s.setReg16 rr v).locate addr = s.locate addr := by
  cases rr <;> rfl
@[simp] theorem State.setReg16_lockDenied (s : State) (rr : Reg16) (v : Word) (addr : Word) :
    (s.setReg16 rr v).lockDenied addr = s.lockDenied addr := by
  cases rr <;> rfl
@[simp] theorem State.setReg16_writeTarget (s : State) (rr : Reg16) (v : Word) (addr : Word) :
    (s.setReg16 rr v).writeTarget addr = s.writeTarget addr := by
  cases rr <;> rfl
@[simp] theorem State.setReg16_readByteWith (s : State) (rr : Reg16) (v : Word) (ign : Bool) (addr : Word) :
    (s.setReg16 rr v).readByteWith ign addr = s.readByteWith ign addr := by
  cases rr <;> rfl
@[simp] theorem State.setReg16_readByte (s : State) (rr : Reg16) (v : Word) (addr : Word) :
    (s.setReg16 rr v).readByte addr = s.readByte addr := by
  cases rr <;> rfl
@[simp] theorem State.setReg16_pendingInterrupts (s : State) (rr : Reg16) (v : Word) :
    (s.setReg16 rr v).pendingInterrupts = s.pendingInterrupts := by
  cases rr <;> rfl

/-! ### `setPair` -/

@[simp] theorem State.setPair_params (s : State) (q : Pair) (v : Word) : (s.setPair q v).params = s.params := by
  cases q <;> rfl
@[simp] theorem State.setPair_mmu (s : State) (q : Pair) (v : Word) : (s.setPair q v).mmu = s.mmu := by
  cases q <;> rfl
@[simp] theorem State.setPair_cart (s : State) (q : Pair) (v : Word) : (s.setPair q v).cart = s.cart := by
  cases q <;> rfl
@[simp] theorem State.setPair_loadError (s : State) (q : Pair) (v : Word) : (s.setPair q v).loadError = s.loadError := by
  cases q <;> rfl
@[simp] theorem State.setPair_slot (s : State) (q : Pair) (v : Word) : (s.setPair q v).slot = s.slot := by
  cases q <;> rfl
@[simp] theorem State.setPair_shelf (s : State) (q : Pair) (v : Word) : (s.setPair q v).shelf = s.shelf := by
  cases q <;> rfl
@[simp] theorem State.setPair_cycles (s : State) (q : Pair) (v : Word) : (s.setPair q v).cycles = s.cycles := by
  cases q <;> rfl
@[simp] theorem State.setPair_epoch (s : State) (q : Pair) (v : Word) : (s.setPair q v).epoch = s.epoch := by
  cases q <;> rfl
@[simp] theorem State.setPair_host (s : State) (q : Pair) (v : Word) : (s.setPair q v).host = s.host := by
  cases q <;> rfl
@[simp] theorem State.setPair_flags (s : State) (q : Pair) (v : Word) :
    (s.setPair q v).cpu.flags = s.cpu.flags := by
  cases q <;> rfl
@[simp] theorem State.setPair_pc (s : State) (q : Pair) (v : Word) :
    (s.setPair q v).cpu.pc = s.cpu.pc := by
  cases q <;> rfl
@[simp] theorem State.setPair_halted (s : State) (q : Pair) (v : Word) :
    (s.setPair q v).cpu.halted = s.cpu.halted := by
  cases q <;> rfl
@[simp] theorem State.setPair_ime (s : State) (q : Pair) (v : Word) :
    (s.setPair q v).cpu.ime = s.cpu.ime := by
  cases q <;> rfl
@[simp] theorem State.setPair_imeSched (s : State) (q : Pair) (v : Word) :
    (s.setPair q v).cpu.imeSched = s.cpu.imeSched := by
  cases q <;> rfl
@[simp] theorem State.setPair_sp (s : State) (q : Pair) (v : Word) :
    (s.setPair q v).cpu.sp = s.cpu.sp := by
  cases q <;> rfl
@[simp] theorem State.setPair_romBanks (s : State) (q : Pair) (v : Word) :
    (s.setPair q v).romBanks = s.romBanks := by
  cases q <;> rfl
@[simp] theorem State.setPair_ramBanks (s : State) (q : Pair) (v : Word) :
    (s.setPair q v).ramBanks = s.ramBanks := by
  cases q <;> rfl
@[simp] theorem State.setPair_persistent (s : State) (q : Pair) (v : Word) :
    (s.setPair q v).persistent = s.persistent := by
  cases q <;> rfl
@[simp] theorem State.setPair_readCell (s : State) (q : Pair) (v : Word) (c : Cell) :
    (s.setPair q v).readCell c = s.readCell c := by
  cases q <;> rfl
@[simp] theorem State.setPair_locate (s : State) (q : Pair) (v : Word) (addr : Word) :
    (s.setPair q v).locate addr = s.locate addr := by
  cases q <;> rfl
@[simp] theorem State.setPair_lockDenied (s : State) (q : Pair) (v : Word) (addr : Word) :
    (s.setPair q v).lockDenied addr = s.lockDenied addr := by
  cases q <;> rfl
@[simp] theorem State.setPair_writeTarget (s : State) (q : Pair) (v : Word) (addr : Word) :
    (s.setPair q v).writeTarget addr = s.writeTarget addr := by
  cases q <;> rfl
@[simp] theorem State.setPair_readByteWith (s : State) (q : Pair) (v : Word) (ign : Bool) (addr : Word) :
    (s.setPair q v).readByteWith ign addr = s.readByteWith ign addr := by
  cases q <;> rfl
@[simp] theorem State.setPair_readByte (s : State) (q : Pair) (v : Word) (addr : Word) :
    (s.setPair q v).readByte addr = s.readByte addr := by
  cases q <;> rfl
@[simp] theorem State.setPair_pendingInterrupts (s : State) (q : Pair) (v : Word) :
    (s.setPair q v).pendingInterrupts = s.pendingInterrupts := by
  cases q <;> rfl

/-! ### What the selectors read back -/

@[simp] theorem high_append_low (v : Word) : highByte v ++ lowByte v = v := by
  apply BitVec.eq_of_toNat_eq
  refine (BitVec.toNat_append (highByte v) (lowByte v)).trans ?_
  simp only [highByte, lowByte, BitVec.extractLsb'_toNat, Nat.shiftRight_eq_div_pow]
  rw [← Nat.shiftLeft_add_eq_or_of_lt (by omega)]
  rw [Nat.shiftLeft_eq]
  have := v.isLt
  omega

@[simp] theorem highByte_append (x y : Byte) : highByte (x ++ y) = x := by
  apply BitVec.eq_of_toNat_eq
  simp only [highByte, BitVec.toNat_append, BitVec.extractLsb'_toNat, Nat.shiftRight_eq_div_pow]
  rw [← Nat.shiftLeft_add_eq_or_of_lt (by omega)]
  rw [Nat.shiftLeft_eq]
  have := x.isLt
  have := y.isLt
  omega

@[simp] theorem lowByte_append (x y : Byte) : lowByte (x ++ y) = y := by
  apply BitVec.eq_of_toNat_eq
  simp only [lowByte, BitVec.toNat_append, BitVec.extractLsb'_toNat, Nat.shiftRight_eq_div_pow]
  rw [← Nat.shiftLeft_add_eq_or_of_lt (by omega)]
  rw [Nat.shiftLeft_eq]
  have := x.isLt
  have := y.isLt
  omega

@[simp] theorem State.setBc_bc (s : State) (v : Word) : (s.setBc v).bc = v := by simp [State.bc]
@[simp] theorem State.setDe_de (s : State) (v : Word) : (s.setDe v).de = v := by simp [State.de]
@[simp] theorem State.setHl_hl (s : State) (v : Word) : (s.setHl v).hl = v := by simp [State.hl]
@[simp] theorem State.setReg8_same (s : State) (r : Reg8) (v : Byte) : (s.setReg8 r v).reg8 r = v := by
  cases r <;> rfl
theorem State.setReg8_other (s : State) (r r' : Reg8) (v : Byte) (h : r' ≠ r) :
    (s.setReg8 r v).reg8 r' = s.reg8 r' := by
  cases r <;> cases r' <;> first | rfl | exact absurd rfl h
@[simp] theorem State.setReg16_same (s : State) (rr : Reg16) (v : Word) : (s.setReg16 rr v).reg16 rr = v := by
  cases rr <;> simp [State.setReg16, State.reg16]
@[simp] theorem State.setPair_same (s : State) (q : Pair) (v : Word) : (s.setPair q v).pair q = v := by
  cases q <;> simp [State.setPair, State.pair]

/-- Only the four flags of a byte survive in F (10_state.md R24, R25). -/
@[simp] theorem Flags.ofByte_toByte (f : Flags) : Flags.ofByte f.toByte = f := by
  rcases f with ⟨z, n, h, cy⟩
  cases z <;> cases n <;> cases h <;> cases cy <;> rfl

/-! ### Power-off, insertion and reset -/

@[simp] theorem State.powerOff_cpu (s : State) : s.powerOff.cpu = s.cpu := rfl
@[simp] theorem State.powerOff_params (s : State) : s.powerOff.params = s.params := rfl
@[simp] theorem State.powerOff_mmu (s : State) : s.powerOff.mmu = {} := rfl
@[simp] theorem State.powerOff_cart (s : State) : s.powerOff.cart = none := rfl
@[simp] theorem State.powerOff_loadError (s : State) : s.powerOff.loadError = none := rfl
@[simp] theorem State.powerOff_slot (s : State) : s.powerOff.slot = s.slot := rfl
@[simp] theorem State.powerOff_shelf (s : State) :
    s.powerOff.shelf = if s.persistent then insertCells s.shelf s.slot s.mmu.eram else s.shelf := rfl
@[simp] theorem State.powerOff_cycles (s : State) : s.powerOff.cycles = s.cycles := rfl
@[simp] theorem State.powerOff_epoch (s : State) : s.powerOff.epoch = s.epoch := rfl
@[simp] theorem State.powerOff_host (s : State) : s.powerOff.host = s.host := rfl

@[simp] theorem State.insertCartridge_cpu (s : State) (number : Nat) (c : Cartridge) :
    (s.insertCartridge number c).cpu = s.cpu := rfl
@[simp] theorem State.insertCartridge_params (s : State) (number : Nat) (c : Cartridge) :
    (s.insertCartridge number c).params = s.params := rfl
@[simp] theorem State.insertCartridge_mmu (s : State) (number : Nat) (c : Cartridge) :
    (s.insertCartridge number c).mmu = s.mmu.setEram c.ramBanks c.persistent (s.keptArray number) := rfl
@[simp] theorem State.insertCartridge_cart (s : State) (number : Nat) (c : Cartridge) :
    (s.insertCartridge number c).cart = some c := rfl
@[simp] theorem State.insertCartridge_loadError (s : State) (number : Nat) (c : Cartridge) :
    (s.insertCartridge number c).loadError = s.loadError := rfl
@[simp] theorem State.insertCartridge_slot (s : State) (number : Nat) (c : Cartridge) :
    (s.insertCartridge number c).slot = number := rfl
@[simp] theorem State.insertCartridge_shelf (s : State) (number : Nat) (c : Cartridge) :
    (s.insertCartridge number c).shelf = if c.persistent then eraseCells s.shelf number else s.shelf := rfl
@[simp] theorem State.insertCartridge_cycles (s : State) (number : Nat) (c : Cartridge) :
    (s.insertCartridge number c).cycles = s.cycles := rfl
@[simp] theorem State.insertCartridge_epoch (s : State) (number : Nat) (c : Cartridge) :
    (s.insertCartridge number c).epoch = s.epoch := rfl
@[simp] theorem State.insertCartridge_host (s : State) (number : Nat) (c : Cartridge) :
    (s.insertCartridge number c).host = s.host := rfl

@[simp] theorem State.resetCore_cpu (s : State) : s.resetCore.cpu = Cpu.reset s.params := rfl
@[simp] theorem State.resetCore_params (s : State) : s.resetCore.params = s.params := rfl
@[simp] theorem State.resetCore_mmu (s : State) : s.resetCore.mmu = s.mmu.afterReset s.params s.persistent := rfl
@[simp] theorem State.resetCore_cart (s : State) : s.resetCore.cart = s.cart := rfl
@[simp] theorem State.resetCore_loadError (s : State) : s.resetCore.loadError = s.loadError := rfl
@[simp] theorem State.resetCore_slot (s : State) : s.resetCore.slot = s.slot := rfl
@[simp] theorem State.resetCore_shelf (s : State) : s.resetCore.shelf = s.shelf := rfl
@[simp] theorem State.resetCore_cycles (s : State) : s.resetCore.cycles = 0 := rfl
@[simp] theorem State.resetCore_epoch (s : State) : s.resetCore.epoch = s.epoch + 1 := rfl
@[simp] theorem State.resetCore_host (s : State) : s.resetCore.host = s.host := rfl

/-! ### Storage writes leave everything but the arrays -/

@[simp] theorem State.writeCell_cpu (s : State) (c : Cell) (v : Byte) : (s.writeCell c v).cpu = s.cpu := rfl
@[simp] theorem State.writeCell_params (s : State) (c : Cell) (v : Byte) : (s.writeCell c v).params = s.params := rfl
@[simp] theorem State.writeCell_cart (s : State) (c : Cell) (v : Byte) : (s.writeCell c v).cart = s.cart := rfl
@[simp] theorem State.writeCell_loadError (s : State) (c : Cell) (v : Byte) : (s.writeCell c v).loadError = s.loadError := rfl
@[simp] theorem State.writeCell_slot (s : State) (c : Cell) (v : Byte) : (s.writeCell c v).slot = s.slot := rfl
@[simp] theorem State.writeCell_shelf (s : State) (c : Cell) (v : Byte) : (s.writeCell c v).shelf = s.shelf := rfl
@[simp] theorem State.writeCell_cycles (s : State) (c : Cell) (v : Byte) : (s.writeCell c v).cycles = s.cycles := rfl
@[simp] theorem State.writeCell_epoch (s : State) (c : Cell) (v : Byte) : (s.writeCell c v).epoch = s.epoch := rfl
@[simp] theorem State.writeCell_host (s : State) (c : Cell) (v : Byte) : (s.writeCell c v).host = s.host := rfl
@[simp] theorem State.writeCell_romBanks (s : State) (c : Cell) (v : Byte) : (s.writeCell c v).romBanks = s.romBanks := rfl
@[simp] theorem State.writeCell_ramBanks (s : State) (c : Cell) (v : Byte) : (s.writeCell c v).ramBanks = s.ramBanks := rfl
@[simp] theorem State.writeCell_persistent (s : State) (c : Cell) (v : Byte) : (s.writeCell c v).persistent = s.persistent := rfl

@[simp] theorem Mmu.setArray_rom1Index (m : Mmu) (st : Store) (x : Memory) : (m.setArray st x).rom1Index = m.rom1Index := by
  cases st <;> rfl
@[simp] theorem Mmu.setArray_vramIndex (m : Mmu) (st : Store) (x : Memory) : (m.setArray st x).vramIndex = m.vramIndex := by
  cases st <;> rfl
@[simp] theorem Mmu.setArray_eramIndex (m : Mmu) (st : Store) (x : Memory) : (m.setArray st x).eramIndex = m.eramIndex := by
  cases st <;> rfl
@[simp] theorem Mmu.setArray_wram1Index (m : Mmu) (st : Store) (x : Memory) : (m.setArray st x).wram1Index = m.wram1Index := by
  cases st <;> rfl
@[simp] theorem Mmu.setArray_vramLock (m : Mmu) (st : Store) (x : Memory) : (m.setArray st x).vramLock = m.vramLock := by
  cases st <;> rfl
@[simp] theorem Mmu.setArray_oamLock (m : Mmu) (st : Store) (x : Memory) : (m.setArray st x).oamLock = m.oamLock := by
  cases st <;> rfl
@[simp] theorem Mmu.setArray_same (m : Mmu) (st : Store) (x : Memory) : (m.setArray st x).array st = x := by
  cases st <;> rfl
theorem Mmu.setArray_other (m : Mmu) (st st' : Store) (x : Memory) (h : st' ≠ st) :
    (m.setArray st x).array st' = m.array st' := by
  cases st <;> cases st' <;> first | rfl | exact absurd rfl h

@[simp] theorem State.writeCell_locate (s : State) (c : Cell) (v : Byte) (addr : Word) :
    (s.writeCell c v).locate addr = s.locate addr := by
  rcases c with ⟨st, i⟩; cases st <;> rfl
@[simp] theorem State.writeCell_lockDenied (s : State) (c : Cell) (v : Byte) (addr : Word) :
    (s.writeCell c v).lockDenied addr = s.lockDenied addr := by
  rcases c with ⟨st, i⟩; cases st <;> rfl
@[simp] theorem State.writeCell_writeTarget (s : State) (c : Cell) (v : Byte) (addr : Word) :
    (s.writeCell c v).writeTarget addr = s.writeTarget addr := by
  simp [State.writeTarget]

@[simp] theorem State.writeByte_cpu (s : State) (addr : Word) (v : Byte) : (s.writeByte addr v).cpu = s.cpu := by
  unfold State.writeByte; split <;> rfl
@[simp] theorem State.writeByte_params (s : State) (addr : Word) (v : Byte) : (s.writeByte addr v).params = s.params := by
  unfold State.writeByte; split <;> rfl
@[simp] theorem State.writeByte_cart (s : State) (addr : Word) (v : Byte) : (s.writeByte addr v).cart = s.cart := by
  unfold State.writeByte; split <;> rfl
@[simp] theorem State.writeByte_loadError (s : State) (addr : Word) (v : Byte) : (s.writeByte addr v).loadError = s.loadError := by
  unfold State.writeByte; split <;> rfl
@[simp] theorem State.writeByte_slot (s : State) (addr : Word) (v : Byte) : (s.writeByte addr v).slot = s.slot := by
  unfold State.writeByte; split <;> rfl
@[simp] theorem State.writeByte_shelf (s : State) (addr : Word) (v : Byte) : (s.writeByte addr v).shelf = s.shelf := by
  unfold State.writeByte; split <;> rfl
@[simp] theorem State.writeByte_epoch (s : State) (addr : Word) (v : Byte) : (s.writeByte addr v).epoch = s.epoch := by
  unfold State.writeByte; split <;> rfl
@[simp] theorem State.writeByte_host (s : State) (addr : Word) (v : Byte) : (s.writeByte addr v).host = s.host := by
  unfold State.writeByte; split <;> rfl
@[simp] theorem State.writeByte_cycles (s : State) (addr : Word) (v : Byte) : (s.writeByte addr v).cycles = s.cycles := by
  unfold State.writeByte; split <;> rfl
@[simp] theorem State.writeByte_romBanks (s : State) (addr : Word) (v : Byte) : (s.writeByte addr v).romBanks = s.romBanks := by
  unfold State.writeByte; split <;> rfl
@[simp] theorem State.writeByte_ramBanks (s : State) (addr : Word) (v : Byte) : (s.writeByte addr v).ramBanks = s.ramBanks := by
  unfold State.writeByte; split <;> rfl
@[simp] theorem State.writeByte_persistent (s : State) (addr : Word) (v : Byte) : (s.writeByte addr v).persistent = s.persistent := by
  unfold State.writeByte; split <;> rfl
@[simp] theorem State.writeByte_locate (s : State) (addr : Word) (v : Byte) (x : Word) : (s.writeByte addr v).locate x = s.locate x := by
  unfold State.writeByte; split <;> simp
@[simp] theorem State.writeByte_lockDenied (s : State) (addr : Word) (v : Byte) (x : Word) : (s.writeByte addr v).lockDenied x = s.lockDenied x := by
  unfold State.writeByte; split <;> simp
@[simp] theorem State.writeByte_writeTarget (s : State) (addr : Word) (v : Byte) (x : Word) : (s.writeByte addr v).writeTarget x = s.writeTarget x := by
  unfold State.writeByte; split <;> simp
@[simp] theorem State.memWrite_cpu (s : State) (addr : Word) (v : Byte) : (s.memWrite addr v).cpu = s.cpu := by
  simp [State.memWrite]
@[simp] theorem State.memWrite_params (s : State) (addr : Word) (v : Byte) : (s.memWrite addr v).params = s.params := by
  simp [State.memWrite]
@[simp] theorem State.memWrite_cart (s : State) (addr : Word) (v : Byte) : (s.memWrite addr v).cart = s.cart := by
  simp [State.memWrite]
@[simp] theorem State.memWrite_loadError (s : State) (addr : Word) (v : Byte) : (s.memWrite addr v).loadError = s.loadError := by
  simp [State.memWrite]
@[simp] theorem State.memWrite_slot (s : State) (addr : Word) (v : Byte) : (s.memWrite addr v).slot = s.slot := by
  simp [State.memWrite]
@[simp] theorem State.memWrite_shelf (s : State) (addr : Word) (v : Byte) : (s.memWrite addr v).shelf = s.shelf := by
  simp [State.memWrite]
@[simp] theorem State.memWrite_epoch (s : State) (addr : Word) (v : Byte) : (s.memWrite addr v).epoch = s.epoch := by
  simp [State.memWrite]
@[simp] theorem State.memWrite_host (s : State) (addr : Word) (v : Byte) : (s.memWrite addr v).host = s.host := by
  simp [State.memWrite]
@[simp] theorem State.memWrite_cycles (s : State) (addr : Word) (v : Byte) : (s.memWrite addr v).cycles = s.cycles + 4 := by
  simp [State.memWrite]
@[simp] theorem State.memWrite_romBanks (s : State) (addr : Word) (v : Byte) : (s.memWrite addr v).romBanks = s.romBanks := by
  simp [State.memWrite]
@[simp] theorem State.memWrite_ramBanks (s : State) (addr : Word) (v : Byte) : (s.memWrite addr v).ramBanks = s.ramBanks := by
  simp [State.memWrite]
@[simp] theorem State.memWrite_persistent (s : State) (addr : Word) (v : Byte) : (s.memWrite addr v).persistent = s.persistent := by
  simp [State.memWrite]
@[simp] theorem State.memWrite_locate (s : State) (addr : Word) (v : Byte) (x : Word) : (s.memWrite addr v).locate x = s.locate x := by
  simp [State.memWrite]
@[simp] theorem State.memWrite_lockDenied (s : State) (addr : Word) (v : Byte) (x : Word) : (s.memWrite addr v).lockDenied x = s.lockDenied x := by
  simp [State.memWrite]
@[simp] theorem State.memWrite_writeTarget (s : State) (addr : Word) (v : Byte) (x : Word) : (s.memWrite addr v).writeTarget x = s.writeTarget x := by
  simp [State.memWrite]

@[simp] theorem State.memWrite_mmu (s : State) (addr : Word) (v : Byte) :
    (s.memWrite addr v).mmu = (s.writeByte addr v).mmu := rfl

@[simp] theorem State.memWrite_readByte (s : State) (addr : Word) (v : Byte) (x : Word) :
    (s.memWrite addr v).readByte x = (s.writeByte addr v).readByte x := rfl

/-- A state is the one whose fields it has. -/
theorem State.writeByte_eq (s : State) (addr : Word) (v : Byte) :
    s.writeByte addr v = { s with mmu := (s.writeByte addr v).mmu } := by
  unfold State.writeByte; split <;> rfl

end Sys2Proof.Machine
end

