-- ==== Sys2Proof/Laws/Memory.lean ====
section
/-! SUPPORT. The laws of the sparse arrays (canonical form, read after write) and of the storage behind the MMU. -/

namespace Sys2Proof.Machine

/-! ### Cell lists -/

variable {α : Type}

theorem lookupCells_insert_same (cells : List (Nat × α)) (i : Nat) (v : α) :
    lookupCells (insertCells cells i v) i = some v := by
  induction cells with
  | nil => simp [insertCells, lookupCells]
  | cons c rest ih =>
    obtain ⟨k, w⟩ := c
    simp only [insertCells]
    split
    · simp [lookupCells]
    · split
      · simp [lookupCells]
      · rw [lookupCells, if_neg (by omega), ih]

theorem lookupCells_insert_other (cells : List (Nat × α)) (i j : Nat) (v : α) (h : j ≠ i) :
    lookupCells (insertCells cells i v) j = lookupCells cells j := by
  induction cells with
  | nil => simp [insertCells, lookupCells, Ne.symm h]
  | cons c rest ih =>
    obtain ⟨k, w⟩ := c
    simp only [insertCells]
    split
    · simp [lookupCells, Ne.symm h]
    · split
      · subst i; simp [lookupCells, Ne.symm h]
      · simp only [lookupCells, ih]

theorem risingAbove_mono (cells : List (Nat × α)) (lo lo' : Nat) (h : lo' ≤ lo)
    (hc : risingAbove lo cells = true) : risingAbove lo' cells = true := by
  cases cells with
  | nil => rfl
  | cons c rest =>
    simp only [risingAbove, Bool.and_eq_true, decide_eq_true_eq] at hc ⊢
    exact ⟨by omega, hc.2⟩

theorem insertCells_rising (cells : List (Nat × α)) (lo i : Nat) (v : α) (hi : lo ≤ i)
    (hc : risingAbove lo cells = true) : risingAbove lo (insertCells cells i v) = true := by
  induction cells generalizing lo with
  | nil => simp [insertCells, risingAbove, hi]
  | cons c rest ih =>
    obtain ⟨k, w⟩ := c
    simp only [risingAbove, Bool.and_eq_true, decide_eq_true_eq] at hc
    simp only [insertCells]
    split
    · simp only [risingAbove, Bool.and_eq_true, decide_eq_true_eq]
      exact ⟨hi, by omega, hc.2⟩
    · split
      · subst i; simp [risingAbove, hi, hc.2]
      · simp only [risingAbove, Bool.and_eq_true, decide_eq_true_eq]
        exact ⟨hc.1, ih (k + 1) (by omega) hc.2⟩

theorem insertCells_all (cells : List (Nat × α)) (i : Nat) (v : α) (p : Nat × α → Bool)
    (hi : p (i, v) = true) (hc : cells.all p = true) : (insertCells cells i v).all p = true := by
  induction cells with
  | nil => simp [insertCells, hi]
  | cons c rest ih =>
    obtain ⟨k, w⟩ := c
    simp only [List.all_cons, Bool.and_eq_true] at hc
    simp only [insertCells]
    split
    · simp [hi, hc]
    · split
      · simp [hi, hc]
      · simp [hc.1, ih hc.2]

theorem lookupCells_below (cells : List (Nat × α)) (lo i : Nat) (hi : i < lo)
    (hc : risingAbove lo cells = true) : lookupCells cells i = none := by
  induction cells generalizing lo with
  | nil => rfl
  | cons c rest ih =>
    obtain ⟨k, w⟩ := c
    simp only [risingAbove, Bool.and_eq_true, decide_eq_true_eq] at hc
    rw [lookupCells, if_neg (by omega), ih (k + 1) (by omega) hc.2]

theorem consecutiveCells_rising (bytes : List Byte) (i : Nat) :
    risingAbove i (consecutiveCells i bytes) = true := by
  induction bytes generalizing i with
  | nil => rfl
  | cons v rest ih => simp [consecutiveCells, risingAbove, ih]

theorem consecutiveCells_below (bytes : List Byte) (i n : Nat) (h : i + bytes.length ≤ n) :
    (consecutiveCells i bytes).all (fun c => decide (c.1 < n)) = true := by
  induction bytes generalizing i with
  | nil => rfl
  | cons v rest ih =>
    simp only [List.length_cons] at h
    simp only [consecutiveCells, List.all_cons, Bool.and_eq_true, decide_eq_true_eq]
    exact ⟨by omega, ih (i + 1) (by omega)⟩

theorem lookupCells_consecutive (bytes : List Byte) (i j : Nat) :
    lookupCells (consecutiveCells i bytes) (i + j) = bytes[j]? := by
  induction bytes generalizing i j with
  | nil => rfl
  | cons v rest ih =>
    simp only [consecutiveCells, lookupCells]
    cases j with
    | zero => simp
    | succ j =>
      rw [if_neg (by omega), show i + (j + 1) = i + 1 + j by omega, ih]
      simp

/-- Canonical cell lists that read the same everywhere are the same list. -/
theorem risingAbove_ext (xs ys : List (Nat × α)) (lo : Nat) (hx : risingAbove lo xs = true)
    (hy : risingAbove lo ys = true) (h : ∀ i, lookupCells xs i = lookupCells ys i) : xs = ys := by
  induction xs generalizing ys lo with
  | nil =>
    cases ys with
    | nil => rfl
    | cons c rest =>
      have := h c.1
      simp [lookupCells] at this
  | cons c rest ih =>
    obtain ⟨k, v⟩ := c
    cases ys with
    | nil =>
      have := h k
      simp [lookupCells] at this
    | cons c' rest' =>
      obtain ⟨k', v'⟩ := c'
      simp only [risingAbove, Bool.and_eq_true, decide_eq_true_eq] at hx hy
      have hk : k = k' := by
        rcases Nat.lt_trichotomy k k' with hlt | heq | hgt
        · have := h k
          rw [lookupCells, if_pos rfl, lookupCells, if_neg (by omega),
            lookupCells_below rest' (k' + 1) k (by omega) hy.2] at this
          simp at this
        · exact heq
        · have := h k'
          rw [lookupCells, if_neg (by omega), lookupCells, if_pos rfl,
            lookupCells_below rest (k + 1) k' (by omega) hx.2] at this
          simp at this
      subst hk
      have hv := h k
      simp only [lookupCells, if_true, Option.some.injEq] at hv
      subst hv
      have : rest = rest' := by
        refine ih rest' (k + 1) hx.2 hy.2 (fun i => ?_)
        by_cases hi : i = k
        · subst hi
          rw [lookupCells_below rest (i + 1) i (by omega) hx.2,
            lookupCells_below rest' (i + 1) i (by omega) hy.2]
        · have := h i
          rwa [lookupCells, if_neg (Ne.symm hi), lookupCells, if_neg (Ne.symm hi)] at this
      rw [this]

/-- What a list without a position holds. -/
theorem lookupCells_erase (cells : List (Nat × α)) (i j : Nat) :
    lookupCells (eraseCells cells i) j = if j = i then none else lookupCells cells j := by
  unfold eraseCells
  induction cells with
  | nil => simp [lookupCells]
  | cons c rest ih =>
    obtain ⟨k, w⟩ := c
    by_cases hk : k = i
    · subst hk
      simp only [List.filter_cons, bne_self_eq_false, Bool.false_eq_true, if_false, ih, lookupCells]
      split
      · rfl
      · rw [if_neg (by omega)]
    · simp only [List.filter_cons, bne_iff_ne, ne_eq, hk, not_false_eq_true, if_true, lookupCells, ih]
      split
      · rw [if_neg (by omega)]
      · rfl

theorem eraseCells_rising (cells : List (Nat × α)) (lo i : Nat) (hc : risingAbove lo cells = true) :
    risingAbove lo (eraseCells cells i) = true := by
  unfold eraseCells
  induction cells generalizing lo with
  | nil => rfl
  | cons c rest ih =>
    obtain ⟨k, w⟩ := c
    simp only [risingAbove, Bool.and_eq_true, decide_eq_true_eq] at hc
    rw [List.filter_cons]
    split
    · simp only [risingAbove, Bool.and_eq_true, decide_eq_true_eq]
      exact ⟨hc.1, ih (k + 1) hc.2⟩
    · exact ih lo (risingAbove_mono rest (k + 1) lo (by omega) hc.2)

theorem lookupCells_mem (cells : List (Nat × α)) (i : Nat) (v : α) (h : lookupCells cells i = some v) :
    (i, v) ∈ cells := by
  induction cells with
  | nil => cases h
  | cons c rest ih =>
    obtain ⟨k, w⟩ := c
    rw [lookupCells] at h
    split at h
    · rename_i hk; cases h; subst hk; exact List.mem_cons_self
    · exact List.mem_cons_of_mem _ (ih h)

theorem insertCells_mem (cells : List (Nat × α)) (i : Nat) (v : α) (c : Nat × α) (h : c ∈ insertCells cells i v) :
    c = (i, v) ∨ c ∈ cells := by
  induction cells with
  | nil => exact .inl (List.mem_singleton.1 h)
  | cons d rest ih =>
    obtain ⟨k, w⟩ := d
    rw [insertCells] at h
    split at h
    · exact List.mem_cons.1 h
    · split at h
      · rcases List.mem_cons.1 h with h | h
        · exact .inl h
        · exact .inr (List.mem_cons_of_mem _ h)
      · rcases List.mem_cons.1 h with h | h
        · exact .inr (h ▸ List.mem_cons_self)
        · exact (ih h).imp id (List.mem_cons_of_mem _)

/-! ### Arrays -/

@[simp] theorem Memory.lookup_write_same (m : Memory) (i : Nat) (v : Byte) : (m.write i v).lookup i = some v :=
  lookupCells_insert_same m.cells i v

theorem Memory.lookup_write_other (m : Memory) (i j : Nat) (v : Byte) (h : j ≠ i) :
    (m.write i v).lookup j = m.lookup j :=
  lookupCells_insert_other m.cells i j v h

@[simp] theorem Memory.wf_empty : Memory.wf {} = true := rfl
@[simp] theorem Memory.below_empty (n : Nat) : Memory.below {} n = true := rfl
@[simp] theorem Memory.lookup_empty (i : Nat) : Memory.lookup {} i = none := rfl

theorem Memory.write_wf (m : Memory) (i : Nat) (v : Byte) (h : m.wf = true) : (m.write i v).wf = true :=
  insertCells_rising m.cells 0 i v (Nat.zero_le i) h

theorem Memory.write_below (m : Memory) (i n : Nat) (v : Byte) (hi : i < n) (h : m.below n = true) :
    (m.write i v).below n = true :=
  insertCells_all m.cells i v _ (by simpa using hi) h

theorem Memory.ofBytes_wf (bytes : List Byte) : (Memory.ofBytes bytes).wf = true :=
  consecutiveCells_rising bytes 0

theorem Memory.ofBytes_below (bytes : List Byte) (n : Nat) (h : bytes.length ≤ n) :
    (Memory.ofBytes bytes).below n = true :=
  consecutiveCells_below bytes 0 n (by omega)

theorem Memory.lookup_ofBytes (bytes : List Byte) (i : Nat) : (Memory.ofBytes bytes).lookup i = bytes[i]? := by
  have := lookupCells_consecutive bytes 0 i
  rwa [Nat.zero_add] at this

/-- Writing cells one by one keeps what writing one cell keeps. -/
theorem Memory.foldl_write_ind (P : Memory → Prop) (size : Nat)
    (step : ∀ m i v, P m → i < size → P (m.write i v)) (cells : List Host.Cell) (m : Memory) (h : P m) :
    P (cells.foldl (fun acc c => if c.1 < size then acc.write c.1 c.2 else acc) m) := by
  induction cells generalizing m with
  | nil => exact h
  | cons c rest ih =>
    rw [List.foldl_cons]
    refine ih _ ?_
    split
    · exact step m c.1 c.2 h ‹_›
    · exact h

theorem Memory.restrict_wf (m : Memory) (n : Nat) : (m.restrict n).wf = true :=
  Memory.foldl_write_ind (fun x => x.wf = true) n (fun x i v h _ => x.write_wf i v h) m.cells {} rfl

theorem Memory.restrict_below (m : Memory) (n : Nat) : (m.restrict n).below n = true :=
  Memory.foldl_write_ind (fun x => x.below n = true) n (fun x i v h hi => x.write_below i n v hi h) m.cells {} rfl

/-- A canonical array cut to a size reads as before below it. -/
theorem Memory.lookup_restrict (m : Memory) (n i : Nat) (hm : m.wf = true) (hi : i < n) :
    (m.restrict n).lookup i = m.lookup i := by
  have h : ∀ (cells : List Host.Cell) (lo : Nat) (acc : Memory), risingAbove lo cells = true →
      (cells.foldl (fun acc c => if c.1 < n then acc.write c.1 c.2 else acc) acc).lookup i =
        (lookupCells cells i).or (acc.lookup i) := by
    intro cells
    induction cells with
    | nil => intro lo acc _; rfl
    | cons c rest ih =>
      obtain ⟨k, v⟩ := c
      intro lo acc hc
      simp only [risingAbove, Bool.and_eq_true, decide_eq_true_eq] at hc
      rw [List.foldl_cons, ih (k + 1) _ hc.2, lookupCells]
      by_cases hk : k = i
      · subst hk
        rw [if_pos rfl, if_pos hi, lookupCells_below rest (k + 1) k (by omega) hc.2]
        simp
      · rw [if_neg hk]
        split
        · rw [Memory.lookup_write_other _ _ _ _ (Ne.symm hk)]
        · rfl
  have := h m.cells 0 {} hm
  rwa [Memory.lookup_empty, Option.or_none] at this

/-- Equal memories are equal data. -/
theorem Memory.ext_of_wf (x y : Memory) (hx : x.wf = true) (hy : y.wf = true)
    (h : ∀ i, x.lookup i = y.lookup i) : x = y := by
  rcases x with ⟨xs⟩
  rcases y with ⟨ys⟩
  exact congrArg Memory.mk (risingAbove_ext xs ys 0 hx hy h)

/-! ### Storage cells -/

theorem State.writeCell_volatileStore (s : State) (c : Cell) (v : Byte) (st : Store) :
    (s.writeCell c v).volatileStore st = s.volatileStore st := by
  cases st <;> rfl

@[simp] theorem State.readCell_writeCell_same (s : State) (c : Cell) (v : Byte) : (s.writeCell c v).readCell c = v := by
  simp [State.readCell, State.writeCell]

theorem State.readCell_writeCell_other (s : State) (c d : Cell) (v : Byte) (h : d ≠ c) :
    (s.writeCell c v).readCell d = s.readCell d := by
  have hu : (s.writeCell c v).unwrittenByte d = s.unwrittenByte d := by
    simp only [State.unwrittenByte, State.writeCell_volatileStore, State.writeCell_epoch, State.writeCell_slot]
  have ha : ((s.writeCell c v).mmu.array d.store).lookup d.index = (s.mmu.array d.store).lookup d.index := by
    by_cases hs : d.store = c.store
    · have hi : d.index ≠ c.index := by
        intro hi
        exact h (by cases c; cases d; simp_all)
      simp [State.writeCell, hs, Memory.lookup_write_other _ _ _ _ hi]
    · simp [State.writeCell, Mmu.setArray_other _ _ _ _ hs]
  simp only [State.readCell, ha, hu]

/-! ### Address decode -/

/-- The first address of a region (20_memory.md R60). -/
def Region.first : Region → Nat
  | .rom0 => 0
  | .rom1 => 0x4000
  | .vram => 0x8000
  | .eram => 0xA000
  | .wram0 => 0xC000
  | .wram1 => 0xD000
  | .echo => 0xE000
  | .oam => 0xFE00
  | .unassigned => 0xFEA0
  | .io => 0xFF00
  | .hram => 0xFF80
  | .ie => 0xFFFF

/-- The number of addresses of a region (20_memory.md R60). -/
def Region.size : Region → Nat
  | .rom0 => 0x4000
  | .rom1 => 0x4000
  | .vram => 0x2000
  | .eram => 0x2000
  | .wram0 => 0x1000
  | .wram1 => 0x1000
  | .echo => 0x1E00
  | .oam => 0xA0
  | .unassigned => 0x60
  | .io => 0x80
  | .hram => 0x7F
  | .ie => 1

/-- The region of an address holds it (20_memory.md R60). -/
theorem regionOf_bounds (a : Word) :
    (regionOf a).first ≤ a.toNat ∧ a.toNat < (regionOf a).first + (regionOf a).size := by
  have hlt : a.toNat < 65536 := a.isLt
  unfold regionOf
  generalize a.toNat = n at hlt ⊢
  by_cases h0 : n < 0x4000
  · rw [if_pos h0]; exact ⟨Nat.zero_le n, h0⟩
  rw [if_neg h0]
  by_cases h1 : n < 0x8000
  · rw [if_pos h1]; exact ⟨Nat.not_lt.mp h0, h1⟩
  rw [if_neg h1]
  by_cases h2 : n < 0xA000
  · rw [if_pos h2]; exact ⟨Nat.not_lt.mp h1, h2⟩
  rw [if_neg h2]
  by_cases h3 : n < 0xC000
  · rw [if_pos h3]; exact ⟨Nat.not_lt.mp h2, h3⟩
  rw [if_neg h3]
  by_cases h4 : n < 0xD000
  · rw [if_pos h4]; exact ⟨Nat.not_lt.mp h3, h4⟩
  rw [if_neg h4]
  by_cases h5 : n < 0xE000
  · rw [if_pos h5]; exact ⟨Nat.not_lt.mp h4, h5⟩
  rw [if_neg h5]
  by_cases h6 : n < 0xFE00
  · rw [if_pos h6]; exact ⟨Nat.not_lt.mp h5, h6⟩
  rw [if_neg h6]
  by_cases h7 : n < 0xFEA0
  · rw [if_pos h7]; exact ⟨Nat.not_lt.mp h6, h7⟩
  rw [if_neg h7]
  by_cases h8 : n < 0xFF00
  · rw [if_pos h8]; exact ⟨Nat.not_lt.mp h7, h8⟩
  rw [if_neg h8]
  by_cases h9 : n < 0xFF80
  · rw [if_pos h9]; exact ⟨Nat.not_lt.mp h8, h9⟩
  rw [if_neg h9]
  by_cases h10 : n < 0xFFFF
  · rw [if_pos h10]; exact ⟨Nat.not_lt.mp h9, h10⟩
  rw [if_neg h10]
  exact ⟨Nat.not_lt.mp h10, hlt⟩

/-- An address in the bounds of a region has that region. -/
theorem regionOf_eq (a : Word) (r : Region) (h1 : r.first ≤ a.toNat) (h2 : a.toNat < r.first + r.size) :
    regionOf a = r := by
  obtain ⟨g1, g2⟩ := regionOf_bounds a
  generalize regionOf a = q at g1 g2
  cases q <;> cases r <;> simp only [Region.first, Region.size] at h1 h2 g1 g2 <;> first | rfl | omega

theorem redirect_echo (a : Word) (h : regionOf a = .echo) : (redirect a).toNat = a.toNat - 0x2000 := by
  have hb := regionOf_bounds a
  rw [h] at hb
  simp only [Region.first, Region.size] at hb
  rw [redirect, if_pos h, BitVec.toNat_sub_of_le (by rw [BitVec.le_def]; exact hb.1.trans' (by decide))]
  rfl

theorem redirect_other (a : Word) (h : regionOf a ≠ .echo) : redirect a = a := if_neg h

/-- The redirect never leaves an address in the echo range (20_memory.md R62). -/
theorem regionOf_redirect (a : Word) : regionOf (redirect a) ≠ .echo := by
  by_cases h : regionOf a = .echo
  · intro h'
    have h1 := redirect_echo a h
    have h2 := regionOf_bounds a
    have h3 := regionOf_bounds (redirect a)
    rw [h] at h2
    rw [h', h1] at h3
    simp only [Region.first, Region.size] at h2 h3
    omega
  · rw [redirect_other a h]; exact h

/-- The array of a region, for the regions that have one of their own. -/
def Region.store : Region → Store
  | .rom0 => .rom0
  | .rom1 => .rom1
  | .vram => .vram
  | .eram => .eram
  | .wram0 => .wram0
  | .wram1 => .wram1
  | .echo => .wram0
  | .oam => .oam
  | .unassigned => .oam
  | .io => .io
  | .hram => .hram
  | .ie => .ie

/-- The position at which the active bank of a region starts in its array (20_memory.md R63, R74). -/
def State.bankBase (s : State) : Region → Nat
  | .rom1 => s.mmu.rom1Index * 0x4000
  | .vram => s.mmu.vramIndex * 0x2000
  | .eram => s.mmu.eramIndex * 0x2000
  | .wram1 => s.mmu.wram1Index * 0x1000
  | _ => 0

/-- The active bank of a region exists (20_memory.md R64). -/
def State.bankValid (s : State) : Region → Bool
  | .rom1 => decide (s.mmu.rom1Index < s.romBanks - 1)
  | .vram => decide (s.mmu.vramIndex < 2)
  | .eram => decide (s.mmu.eramIndex < s.ramBanks)
  | .wram1 => decide (s.mmu.wram1Index < 7)
  | .unassigned => false
  | .echo => false
  | _ => true

/-- Everything an address selects: the array of its region, at the active bank's base plus the offset. -/
theorem State.locate_eq (s : State) (a : Word) :
    s.locate a =
      if s.bankValid (regionOf (redirect a)) then
        some ⟨(regionOf (redirect a)).store,
          s.bankBase (regionOf (redirect a)) + ((redirect a).toNat - (regionOf (redirect a)).first)⟩
      else none := by
  have hb := regionOf_bounds (redirect a)
  simp only [State.locate]
  generalize regionOf (redirect a) = r at hb
  cases r <;>
    simp only [State.bankValid, Region.store, State.bankBase, Region.first, decide_eq_true_eq, if_true, Nat.zero_add,
      Nat.sub_zero, Bool.false_eq_true, if_false, Cell.mk.injEq, Option.some.injEq]
  rw [Region.first, Region.size] at hb
  simp; omega

/-- Two addresses that select one cell are one address after the redirect. -/
theorem State.locate_inj (s : State) (a b : Word) (c : Cell) (ha : s.locate a = some c) (hb : s.locate b = some c) :
    redirect a = redirect b := by
  rw [State.locate_eq] at ha hb
  have ga := regionOf_bounds (redirect a)
  have gb := regionOf_bounds (redirect b)
  have na := regionOf_redirect a
  have nb := regionOf_redirect b
  split at ha <;> simp only [Option.some.injEq, reduceCtorEq] at ha
  split at hb <;> simp only [Option.some.injEq, reduceCtorEq] at hb
  rename_i va vb
  apply BitVec.eq_of_toNat_eq
  rw [← hb] at ha
  simp only [Cell.mk.injEq] at ha
  have hr : regionOf (redirect a) = regionOf (redirect b) := by
    obtain ⟨h1, -⟩ := ha
    generalize regionOf (redirect a) = r at *
    generalize regionOf (redirect b) = q at *
    cases r <;> cases q <;> simp_all [Region.store, State.bankValid]
  rw [hr] at ha ga
  omega

theorem State.writeTarget_locate (s : State) (a : Word) (c : Cell) (h : s.writeTarget a = some c) :
    s.locate a = some c := by
  unfold State.writeTarget at h
  split at h
  · simp at h
  · exact h

theorem State.writeTarget_not_denied (s : State) (a : Word) (c : Cell) (h : s.writeTarget a = some c) :
    s.lockDenied a = false := by
  unfold State.writeTarget at h
  split at h
  · simp at h
  · simp_all

/-- A write that lands is a write of the cell. -/
theorem State.writeByte_some (s : State) (a : Word) (v : Byte) (c : Cell) (h : s.writeTarget a = some c) :
    s.writeByte a v = s.writeCell c v := by simp only [State.writeByte, h]

/-- A write that does not land changes nothing. -/
theorem State.writeByte_none (s : State) (a : Word) (v : Byte) (h : s.writeTarget a = none) :
    s.writeByte a v = s := by simp only [State.writeByte, h]

theorem State.lockDenied_redirect (s : State) (a b : Word) (h : redirect a = redirect b) :
    s.lockDenied a = s.lockDenied b := by simp only [State.lockDenied, h]

theorem State.locate_redirect (s : State) (a b : Word) (h : redirect a = redirect b) :
    s.locate a = s.locate b := by simp only [State.locate, h]

theorem State.writeTarget_redirect (s : State) (a b : Word) (h : redirect a = redirect b) :
    s.writeTarget a = s.writeTarget b := by
  have hr : romAddress a = romAddress b := by unfold romAddress; rw [h]
  simp only [State.writeTarget, hr, s.lockDenied_redirect a b h, s.locate_redirect a b h]

theorem State.readByte_redirect (s : State) (a b : Word) (h : redirect a = redirect b) :
    s.readByte a = s.readByte b := by
  simp only [State.readByte, State.readByteWith, s.lockDenied_redirect a b h, s.locate_redirect a b h]

/-- What a read gives after a write that lands: the byte at the addresses of its cell. -/
theorem State.readByte_writeByte_same (s : State) (a b : Word) (v : Byte) (c : Cell)
    (h : s.writeTarget a = some c) (hab : redirect b = redirect a) : (s.writeByte a v).readByte b = v := by
  rw [State.readByte_redirect _ b a hab]
  rw [State.readByte, State.readByteWith, State.writeByte_lockDenied, State.writeByte_locate,
    s.writeTarget_not_denied a c h, s.writeTarget_locate a c h, s.writeByte_some a v c h]
  simp

/-- A write leaves the byte at every other address. -/
theorem State.readByte_writeByte_other (s : State) (a b : Word) (v : Byte) (hab : redirect b ≠ redirect a) :
    (s.writeByte a v).readByte b = s.readByte b := by
  cases h : s.writeTarget a with
  | none => rw [s.writeByte_none a v h]
  | some c =>
    simp only [State.readByte, State.readByteWith, State.writeByte_lockDenied, State.writeByte_locate]
    split
    · rfl
    · cases hb : s.locate b with
      | none => rfl
      | some d =>
        have hd : d ≠ c := fun hdc =>
          hab (s.locate_inj b a c (hdc ▸ hb) (s.writeTarget_locate a c h))
        simp only [s.writeByte_some a v c h, State.readCell_writeCell_other _ _ _ _ hd]

/-- A valid bank's offset lies in the array (20_memory.md R63, R64). -/
theorem State.locate_lt (s : State) (a : Word) (c : Cell) (h : s.locate a = some c) :
    c.index < s.storeSize c.store := by
  rw [State.locate_eq] at h
  have hb := regionOf_bounds (redirect a)
  have hn := regionOf_redirect a
  split at h <;> simp only [Option.some.injEq, reduceCtorEq] at h
  subst h
  rename_i hv
  generalize regionOf (redirect a) = r at hb hv hn
  cases r <;> simp only [State.bankValid, Region.first, Region.size, Region.store, State.bankBase, State.storeSize,
    decide_eq_true_eq, Bool.false_eq_true, ne_eq, reduceCtorEq] at hb hv hn ⊢ <;> omega

/-- A write lands in no ROM array (20_memory.md R71). -/
theorem State.writeTarget_not_rom (s : State) (a : Word) (c : Cell) (h : s.writeTarget a = some c) :
    c.store ≠ .rom0 ∧ c.store ≠ .rom1 := by
  have hl := s.writeTarget_locate a c h
  rw [State.locate_eq] at hl
  unfold State.writeTarget romAddress at h
  split at hl <;> simp only [Option.some.injEq, reduceCtorEq] at hl
  subst hl
  rename_i hv
  generalize regionOf (redirect a) = r at hv h
  cases r <;> simp_all [Region.store]

end Sys2Proof.Machine
end

