-- ==== Sys2Proof/Laws/Ops.lean ====
section
/-! SUPPORT. One lemma for each shared operation: everything it does, so that no proof unfolds it. -/

namespace Sys2Proof.Machine

/-! ### Fetch and the stack -/

@[simp] theorem State.memRead_fst (s : State) (addr : Word) : (s.memRead addr).1 = s.readByte addr := rfl
@[simp] theorem State.memRead_snd (s : State) (addr : Word) : (s.memRead addr).2 = s.tick := rfl
@[simp] theorem State.readHl_fst (s : State) : s.readHl.1 = s.readByte s.hl := rfl
@[simp] theorem State.readHl_snd (s : State) : s.readHl.2 = s.tick := rfl

/-- `Fetch8()` (00_scope.md R11). -/
theorem State.fetch8_eq (s : State) : s.fetch8 = (s.readByte s.cpu.pc,
    { s with cpu := { s.cpu with pc := s.cpu.pc + 1 }, cycles := s.cycles + 4 }) := rfl

/-- The bytes of an instruction, at consecutive addresses from PC (30_encoding.md R121). -/
theorem State.fetchBytes_eq (n : Nat) (s : State) : State.fetchBytes n s =
    ((List.range n).map (fun k => s.readByte (s.cpu.pc + BitVec.ofNat 16 k)),
      { s with cpu := { s.cpu with pc := s.cpu.pc + BitVec.ofNat 16 n }, cycles := s.cycles + 4 * n }) := by
  induction n generalizing s with
  | zero => simp [State.fetchBytes]
  | succ n ih =>
    simp only [State.fetchBytes, State.fetch8_eq, ih, Prod.mk.injEq]
    constructor
    · rw [List.range_succ_eq_map, List.map_cons, List.map_map]
      simp only [BitVec.ofNat_eq_ofNat, BitVec.add_zero, List.cons.injEq, true_and]
      refine List.map_congr_left (fun k _ => ?_)
      simp only [Function.comp_apply]
      rw [show s.cpu.pc + 1#16 + BitVec.ofNat 16 k = s.cpu.pc + BitVec.ofNat 16 k.succ by
        rw [BitVec.add_assoc]; congr 1; apply BitVec.eq_of_toNat_eq; simp; omega]
      rfl
    · rw [show s.cpu.pc + 1 + BitVec.ofNat 16 n = s.cpu.pc + BitVec.ofNat 16 (n + 1) by
        rw [BitVec.add_assoc]; congr 1; apply BitVec.eq_of_toNat_eq; simp; omega]
      simp only [Nat.mul_add, Nat.add_assoc, Nat.mul_one, Nat.add_comm 4]

/-- A write does not look at the CPU or the cycle count. -/
theorem State.writeByte_frame (s : State) (c : Cpu) (n : Nat) (addr : Word) (v : Byte) :
    State.writeByte { s with cpu := c, cycles := n } addr v = { s.writeByte addr v with cpu := c, cycles := n } := by
  have h : State.writeTarget { s with cpu := c, cycles := n } addr = s.writeTarget addr := rfl
  cases ht : s.writeTarget addr with
  | none => rw [State.writeByte_none _ _ _ ht, State.writeByte_none _ _ _ (h.trans ht)]
  | some d => rw [State.writeByte_some _ _ _ _ ht, State.writeByte_some _ _ _ _ (h.trans ht)]; rfl

/-- A write does not look at the cycle count. -/
theorem State.writeByte_cyclesFrame (s : State) (n : Nat) (addr : Word) (v : Byte) :
    State.writeByte { s with cycles := n } addr v = { s.writeByte addr v with cycles := n } := by
  have h := State.writeByte_frame s s.cpu n addr v
  rw [h, ← State.writeByte_cpu s addr v]

/-- `MemWrite(addr, 1, v)` (00_scope.md R11). -/
theorem State.memWrite_eq (s : State) (addr : Word) (v : Byte) :
    s.memWrite addr v = { s.writeByte addr v with cycles := s.cycles + 4 } := by
  show State.tick (s.writeByte addr v) = _
  simp only [State.tick, State.writeByte_cycles]

/-- `MemWrite(addr, 2, v)` (00_scope.md R11). -/
theorem State.memWrite16_eq (s : State) (addr v : Word) : s.memWrite16 addr v =
    { (s.writeByte addr (lowByte v)).writeByte (addr + 1) (highByte v) with cycles := s.cycles + 8 } := by
  rw [State.memWrite16, State.memWrite_eq s, State.memWrite_eq, State.writeByte_cyclesFrame]

/-- A read and then a write, as the instructions on the byte at HL do. -/
theorem State.tick_memWrite_eq (s : State) (addr : Word) (v : Byte) :
    s.tick.memWrite addr v = { s.writeByte addr v with cycles := s.cycles + 8 } := by
  show State.tick (State.writeByte { s with cpu := s.cpu, cycles := s.cycles + 4 } addr v) = _
  rw [State.writeByte_frame]
  simp only [State.tick, ← State.writeByte_cpu s addr v]

/-- `Push16(v)` (00_scope.md R12): SP down by two, the high byte above the low byte. -/
theorem State.push16_eq (s : State) (v : Word) : s.push16 v =
    { (s.writeByte (s.cpu.sp - 1) (highByte v)).writeByte (s.cpu.sp - 1 - 1) (lowByte v) with
      cpu := { s.cpu with sp := s.cpu.sp - 1 - 1 }
      cycles := s.cycles + 8 } := by
  have h1 : s.push8 (highByte v) = { s.writeByte (s.cpu.sp - 1) (highByte v) with
      cpu := { s.cpu with sp := s.cpu.sp - 1 }, cycles := s.cycles + 4 } := by
    show State.tick (State.writeByte { s with cpu := { s.cpu with sp := s.cpu.sp - 1 }, cycles := s.cycles } _ _) = _
    rw [State.writeByte_frame]
    rfl
  rw [State.push16, h1]
  show State.tick (State.writeByte { s.writeByte (s.cpu.sp - 1) (highByte v) with
      cpu := { s.cpu with sp := s.cpu.sp - 1 - 1 }, cycles := s.cycles + 4 } _ _) = _
  rw [State.writeByte_frame]
  rfl

/-- Interrupt entry (60_exceptions.md R330): the request bit cleared, PC pushed, the rest of the CPU set. -/
theorem State.interruptEntry_eq (s : State) (i : Nat) : s.interruptEntry i =
    { ((s.writeCell ifCell (s.readCell ifCell &&& ~~~(1#8 <<< i))).writeByte (s.cpu.sp - 1)
        (highByte s.cpu.pc)).writeByte (s.cpu.sp - 1 - 1) (lowByte s.cpu.pc) with
      cpu := { s.cpu with ime := false, imeSched := .none, sp := s.cpu.sp - 1 - 1, pc := interruptVector i }
      cycles := 20 } := by
  generalize hw : s.writeCell ifCell (s.readCell ifCell &&& ~~~(1#8 <<< i)) = w
  have hc : w.cpu = s.cpu := by rw [← hw]; rfl
  have h : s.interruptEntry i = { State.setPc (State.push16
      { w with cpu := { w.cpu with ime := false, imeSched := .none }, cycles := w.cycles } w.cpu.pc)
        (interruptVector i) with cycles := 20 } := by
    unfold State.interruptEntry
    simp only [hw]
    rfl
  rw [h, State.push16_eq]
  simp only [State.writeByte_frame, hc]
  rfl

/-- `Pop16()` (00_scope.md R12). -/
theorem State.pop16_eq (s : State) : s.pop16 =
    (s.readByte (s.cpu.sp + 1) ++ s.readByte s.cpu.sp,
      { s with cpu := { s.cpu with sp := s.cpu.sp + 1 + 1 }, cycles := s.cycles + 8 }) := rfl

end Sys2Proof.Machine
end

