-- ==== Sys2Proof/Laws/Exec.lean ====
section
/-! SUPPORT. What any instruction can do: it ends in a next state or in the one refusal of `FLAG_SOURCE`, and its effect
on storage is a sequence of writes. -/

namespace Sys2Proof.Machine

/-- Byte writes one after the other. -/
def State.writeBytes (s : State) : List (Word × Byte) → State
  | [] => s
  | (a, v) :: rest => (s.writeByte a v).writeBytes rest

/-- `t` differs from `s` in the CPU, the cycle count and what byte writes did to storage. -/
def State.Reaches (s t : State) : Prop :=
  ∃ ws : List (Word × Byte), t = { s.writeBytes ws with cpu := t.cpu, cycles := t.cycles }

theorem State.writeBytes_frame (ws : List (Word × Byte)) (s : State) (c : Cpu) (n : Nat) :
    State.writeBytes { s with cpu := c, cycles := n } ws = { s.writeBytes ws with cpu := c, cycles := n } := by
  induction ws generalizing s with
  | nil => rfl
  | cons w rest ih => simp only [State.writeBytes, State.writeByte_frame, ih]

theorem State.writeBytes_append (ws ws' : List (Word × Byte)) (s : State) :
    s.writeBytes (ws ++ ws') = (s.writeBytes ws).writeBytes ws' := by
  induction ws generalizing s with
  | nil => rfl
  | cons w rest ih => simp only [List.cons_append, State.writeBytes, ih]

theorem State.Reaches.refl (s : State) : s.Reaches s := ⟨[], rfl⟩

theorem State.Reaches.trans {s t u : State} (h : s.Reaches t) (h' : t.Reaches u) : s.Reaches u := by
  obtain ⟨ws, h⟩ := h
  obtain ⟨ws', h'⟩ := h'
  refine ⟨ws ++ ws', h'.trans ?_⟩
  rw [State.writeBytes_append, h, State.writeBytes_frame]

theorem State.Reaches.ofCpu (s : State) (c : Cpu) (n : Nat) : s.Reaches { s with cpu := c, cycles := n } := ⟨[], rfl⟩

theorem State.Reaches.writeByte (s : State) (a : Word) (v : Byte) : s.Reaches (s.writeByte a v) := by
  refine ⟨[(a, v)], ?_⟩
  simp only [State.writeBytes]

theorem State.Reaches.memWrite (s : State) (a : Word) (v : Byte) : s.Reaches (s.memWrite a v) :=
  (State.Reaches.writeByte s a v).trans (State.Reaches.ofCpu _ _ _)

theorem State.Reaches.push16 (s : State) (v : Word) : s.Reaches (s.push16 v) := by
  rw [State.push16_eq]
  exact ((State.Reaches.writeByte s _ _).trans (State.Reaches.writeByte _ _ _)).trans (State.Reaches.ofCpu _ _ _)

/-- A change of the CPU after `Reaches`. -/
theorem State.Reaches.cpu {s t : State} (h : s.Reaches t) (c : Cpu) (n : Nat) :
    s.Reaches { t with cpu := c, cycles := n } := h.trans (State.Reaches.ofCpu t c n)

theorem State.Reaches.setReg8 (s : State) (r : Reg8) (v : Byte) : s.Reaches (s.setReg8 r v) := by
  cases r <;> exact State.Reaches.ofCpu s _ _
theorem State.Reaches.setReg16 (s : State) (rr : Reg16) (v : Word) : s.Reaches (s.setReg16 rr v) := by
  cases rr <;> exact State.Reaches.ofCpu s _ _
theorem State.Reaches.setPair (s : State) (q : Pair) (v : Word) : s.Reaches (s.setPair q v) := by
  cases q <;> exact State.Reaches.ofCpu s _ _

/-- An outcome that is a reachable next state, or the refusal of the undefined flag mode in that mode. -/
def Outcome.Regular (s : State) (o : Outcome) : Prop :=
  (∃ t, o = .next t ∧ s.Reaches t) ∨ (o = .refused .flagSourcePostResult ∧ s.params.flagSource = .postResult)

theorem Outcome.Regular.ofNext {s t : State} (h : s.Reaches t) : Outcome.Regular s (.next t) := .inl ⟨t, rfl, h⟩

theorem withOperandFlags_regular (s u t : State) (hu : u.params = s.params) (h : s.Reaches t) :
    Outcome.Regular s (withOperandFlags u (.next t)) := by
  cases hf : s.params.flagSource with
  | operands => simp only [withOperandFlags, hu, hf]; exact .ofNext h
  | postResult => simp only [withOperandFlags, hu, hf]; exact .inr ⟨rfl, hf⟩

theorem runSecondByte_eq (op2 : Byte) (s : State) : runSecondByte op2 s = exec (decodeCb op2) s := by
  simp only [runSecondByte, decodeCb]
  generalize fieldX op2 = x
  generalize reg8Of (fieldZ op2) = o
  generalize fieldY op2 = y
  rcases x with _ | _ | _ | x <;> cases o <;> try rfl
  all_goals
    rcases y with _ | _ | _ | _ | _ | _ | _ | _ | y <;> rfl

/-- Every instruction but the table's row for the byte 0xCB. -/
theorem exec_regular_of_ne (i : Instr) (s : State) (hi : i ≠ .prefixCb) : Outcome.Regular s (exec i s) := by
  cases i
  case prefixCb => exact absurd rfl hi
  case addAR r =>
    show Outcome.Regular s (aluAddRegister _ s)
    unfold aluAddRegister
    split <;> exact .ofNext (.ofCpu s _ _)
  case jpCcNn cc nn => show Outcome.Regular s (.next (if _ then _ else _)); split <;> exact .ofNext (.ofCpu s _ _)
  case jrCcE cc e => show Outcome.Regular s (.next (if _ then _ else _)); split <;> exact .ofNext (.ofCpu s _ _)
  case retCc cc => show Outcome.Regular s (.next (if _ then _ else _)); split <;> exact .ofNext (.ofCpu s _ _)
  case stop n => show Outcome.Regular s (.next (if _ then _ else _)); split <;> exact .ofNext (.ofCpu s _ _)
  case callCcNn cc nn =>
    show Outcome.Regular s (.next (if _ then _ else _))
    split
    · exact .ofNext ((State.Reaches.push16 s _).cpu _ _)
    · exact .ofNext (.refl s)
  case nop | ldABc | ldADe | ldAHlInc | ldAHlDec | rlca | rrca | rla | rra | daa | cpl | scf | ccf | halt |
      andR | andN | xorR | xorN | orR | orN | andHl | xorHl | orHl | popAf | jrE | jpNn | ret | reti | ldhAN |
      ldAC | ldANn | di | ei | addSpE | jpHl | ldHlSpE | ldSpHl | unknownD3 | unknownDB | unknownDD |
      unknownE3 | unknownE4 | unknownEB | unknownEC | unknownED | unknownF4 | unknownFC | unknownFD | addHlRr
      | bitR | bitHl =>
    exact .ofNext (.ofCpu s _ _)
  case ldRR | ldRN | resR | setR =>
    exact .ofNext (.setReg8 s _ _)
  case ldRrNn | incRr | decRr =>
    exact .ofNext (.setReg16 s _ _)
  case ldRHl =>
    exact .ofNext ((State.Reaches.ofCpu s _ _).trans (.setReg8 s.tick _ _))
  case incR | decR | rlcR | rrcR | rlR | rrR | slaR | sraR | swapR | srlR =>
    exact .ofNext ((State.Reaches.setReg8 s _ _).cpu _ _)
  case popRr =>
    exact .ofNext ((State.Reaches.ofCpu s _ _).trans (.setPair s.pop16.2 _ _))
  case ldBcA | ldDeA | ldHlR | ldHlN | ldhNA | ldCA | ldNnA =>
    exact .ofNext (.memWrite s _ _)
  case ldHlIncA | ldHlDecA =>
    exact .ofNext ((State.Reaches.memWrite s _ _).cpu _ _)
  case ldNnSp =>
    exact .ofNext ((State.Reaches.memWrite s _ _).trans (.memWrite _ _ _))
  case incHl | decHl | rlcHl | rrcHl | rlHl | rrHl | slaHl | sraHl | swapHl | srlHl =>
    exact .ofNext (((State.Reaches.ofCpu s _ _).trans (.memWrite s.tick _ _)).cpu _ _)
  case resHl | setHl =>
    exact .ofNext ((State.Reaches.ofCpu s _ _).trans (.memWrite s.tick _ _))
  case pushRr | pushAf =>
    exact .ofNext (.push16 s _)
  case callNn | rst =>
    exact .ofNext ((State.Reaches.push16 s _).cpu _ _)
  case addAN | adcAR | adcAN | subR | subN | sbcAR | sbcAN | cpR | cpN =>
    exact withOperandFlags_regular s s _ rfl (.ofCpu s _ _)
  case addAHl | adcAHl | subHl | sbcAHl | cpHl =>
    exact withOperandFlags_regular s s.tick _ rfl (.ofCpu s _ _)

theorem decodeCb_ne (op2 : Byte) : decodeCb op2 ≠ .prefixCb := by
  simp only [decodeCb]
  generalize fieldX op2 = x
  generalize reg8Of (fieldZ op2) = o
  generalize fieldY op2 = y
  rcases x with _ | _ | _ | x <;> cases o <;> try (intro h; cases h)
  all_goals
    rcases y with _ | _ | _ | _ | _ | _ | _ | _ | y <;> (intro h; cases h)

/-- Every instruction ends in a next state that byte writes and CPU changes reach, or in the refusal of the undefined
flag mode. -/
theorem exec_regular (i : Instr) (s : State) : Outcome.Regular s (exec i s) := by
  by_cases hi : i = .prefixCb
  · subst hi
    show Outcome.Regular s (runSecondByte s.fetch8.1 s.fetch8.2)
    rw [runSecondByte_eq]
    rcases exec_regular_of_ne _ s.fetch8.2 (decodeCb_ne s.fetch8.1) with ⟨t, ht, hr⟩ | ⟨hr, hf⟩
    · exact .inl ⟨t, ht, (State.Reaches.ofCpu s _ _).trans hr⟩
    · exact .inr ⟨hr, hf⟩
  · exact exec_regular_of_ne i s hi

/-- In the flag mode the spec defines whole, every instruction completes. -/
theorem exec_completes (i : Instr) (s : State) (h : s.params.flagSource = .operands) :
    ∃ t, exec i s = .next t ∧ s.Reaches t := by
  rcases exec_regular i s with hn | ⟨-, hf⟩
  · exact hn
  · rw [h] at hf; cases hf

theorem exec_reaches {i : Instr} {s t : State} (h : exec i s = .next t) : s.Reaches t := by
  rcases exec_regular i s with ⟨u, hu, hr⟩ | ⟨hr, -⟩
  · rw [hu] at h; cases h; exact hr
  · rw [hr] at h; cases h

/-! ### What the writes of an instruction leave -/

theorem State.writeBytes_params (ws : List (Word × Byte)) (s : State) :
    (s.writeBytes ws).params = s.params ∧ (s.writeBytes ws).cart = s.cart ∧ (s.writeBytes ws).loadError = s.loadError ∧
      (s.writeBytes ws).slot = s.slot ∧ (s.writeBytes ws).shelf = s.shelf ∧ (s.writeBytes ws).epoch = s.epoch ∧
      (s.writeBytes ws).host = s.host := by
  induction ws generalizing s with
  | nil => exact ⟨rfl, rfl, rfl, rfl, rfl, rfl, rfl⟩
  | cons w rest ih => simpa [State.writeBytes] using ih (s.writeByte w.1 w.2)

/-- No instruction changes a parameter, the cartridge record, the arrays out of the machine, the reset count or the host's
schedule. -/
theorem State.Reaches.frame {s t : State} (h : s.Reaches t) :
    t.params = s.params ∧ t.cart = s.cart ∧ t.loadError = s.loadError ∧ t.slot = s.slot ∧ t.shelf = s.shelf ∧
      t.epoch = s.epoch ∧ t.host = s.host := by
  obtain ⟨ws, h⟩ := h
  rw [h]
  exact State.writeBytes_params ws s

end Sys2Proof.Machine
end

