-- ==== Sys2Proof/Laws/Alike.lean ====
section
/-! SUPPORT. An instruction sees storage only through the bytes that addresses read as, and changes it only by byte writes:
two states that a program cannot tell apart are taken to the same CPU by the same writes. -/

namespace Sys2Proof.Machine

/-- Two states that a program cannot tell apart: the same CPU, count and parameters, and every address reads the same. -/
structure State.Twins (s u : State) : Prop where
  cpu : u.cpu = s.cpu
  cycles : u.cycles = s.cycles
  params : u.params = s.params
  read : ∀ a : Word, u.readByte a = s.readByte a

/-- From `s` to `t` and from `u` to `w` by the same byte writes, to the same CPU and count. -/
def State.SameWrites (s u t w : State) : Prop :=
  ∃ ws : List (Word × Byte), t = { s.writeBytes ws with cpu := t.cpu, cycles := t.cycles } ∧
    w = { u.writeBytes ws with cpu := t.cpu, cycles := t.cycles }

/-- Outcomes from `s` and from `u`: next states by the same writes, or the same refusal. -/
def Outcome.Alike (s u : State) (o o' : Outcome) : Prop :=
  (∃ t w, o = .next t ∧ o' = .next w ∧ s.SameWrites u t w) ∨ ∃ e, o = .refused e ∧ o' = .refused e

theorem State.readByte_frame (s : State) (c : Cpu) (n : Nat) (a : Word) :
    State.readByte { s with cpu := c, cycles := n } a = s.readByte a := rfl
theorem State.readByte_cyclesFrame (s : State) (n : Nat) (a : Word) :
    State.readByte { s with cycles := n } a = s.readByte a := rfl
theorem State.readByte_cpuFrame (s : State) (c : Cpu) (a : Word) :
    State.readByte { s with cpu := c } a = s.readByte a := rfl

/-- Twins stay twins under a change of CPU and count that they share. -/
theorem State.Twins.frame {s u : State} (h : s.Twins u) (c : Cpu) (n : Nat) :
    State.Twins { s with cpu := c, cycles := n } { u with cpu := c, cycles := n } := ⟨rfl, rfl, h.params, h.read⟩

section
variable {s u : State} (a b : Word) (v w : Byte) (c : Cpu) (n : Nat)

theorem Outcome.Alike.none :
    Outcome.Alike s u (.next { s with cpu := c, cycles := n }) (.next { u with cpu := c, cycles := n }) :=
  .inl ⟨_, _, rfl, rfl, [], rfl, rfl⟩

theorem Outcome.Alike.one : Outcome.Alike s u (.next { s.writeByte a v with cpu := c, cycles := n })
    (.next { u.writeByte a v with cpu := c, cycles := n }) := .inl ⟨_, _, rfl, rfl, [(a, v)], rfl, rfl⟩

theorem Outcome.Alike.two : Outcome.Alike s u (.next { (s.writeByte a v).writeByte b w with cpu := c, cycles := n })
    (.next { (u.writeByte a v).writeByte b w with cpu := c, cycles := n }) :=
  .inl ⟨_, _, rfl, rfl, [(a, v), (b, w)], rfl, rfl⟩

theorem Outcome.Alike.refuse (e : Refusal) : Outcome.Alike s u (.refused e) (.refused e) := .inr ⟨e, rfl, rfl⟩

theorem Outcome.Alike.same (h : s.Twins u) : Outcome.Alike s u (.next s) (.next u) := by
  refine .inl ⟨_, _, rfl, rfl, [], rfl, ?_⟩
  show _ = ({ u with cpu := s.cpu, cycles := s.cycles } : State)
  rw [← h.cycles, ← h.cpu]

/-- Two outcomes alike from framed states are alike from the states. -/
theorem Outcome.Alike.unframe {o o' : Outcome}
    (h : Outcome.Alike { s with cpu := c, cycles := n } { u with cpu := c, cycles := n } o o') :
    Outcome.Alike s u o o' := by
  obtain ⟨x, y, hx, hy, ws, h1, h2⟩ | ⟨e, hx, hy⟩ := h
  · refine .inl ⟨x, y, hx, hy, ws, ?_, ?_⟩
    · rw [State.writeBytes_frame] at h1; exact h1
    · rw [State.writeBytes_frame] at h2; exact h2
  · exact .inr ⟨e, hx, hy⟩

end

set_option maxRecDepth 20000 in
/-- Every instruction but the table's row for the byte 0xCB. -/
theorem exec_alike_of_ne (i : Instr) (hi : i ≠ .prefixCb) (s u : State) (h : s.Twins u) :
    Outcome.Alike s u (exec i s) (exec i u) := by
  have hp : u.params.flagSource = s.params.flagSource := by rw [h.params]
  have hq : u.params.logicN = s.params.logicN := by rw [h.params]
  cases i
  case prefixCb => exact absurd rfl hi
  case ldHlR | ldHlN | ldHlIncA | ldHlDecA | incHl | decHl | rlcHl | rrcHl | rlHl | rrHl | slaHl | sraHl | swapHl |
      srlHl | resHl | setHl | ldBcA | ldDeA | ldhNA | ldCA | ldNnA =>
    (repeat cases ‹Reg8›) <;>
    simp only [execLdHlR, execLdHlN, execLdHlIncA, execLdHlDecA, execIncHl, execDecHl, execRlcHl, execRrcHl,
      execRlHl, execRrHl, execSlaHl, execSraHl, execSwapHl, execSrlHl, execResHl, execSetHl, execLdBcA, execLdDeA,
      execLdhNA, execLdCA, execLdNnA, exec, modifyAtHl, rotateAtHl, storeA, State.readHl, State.memRead, State.tick,
      State.memWrite_eq, State.setFlags, State.setHl, State.writeByte_frame, State.hl, State.bc, State.de, State.reg8,
      State.writeByte_cpu, h.cpu, h.cycles, h.read]
    all_goals exact .one _ _ _ _
  case ldNnSp | pushRr | pushAf | callNn | rst | callCcNn =>
    (try cases ‹Pair›) <;>
    simp only [execLdNnSp, execPushRr, execPushAf, execCallNn, execRst, execCallCcNn, exec, State.callTo,
      State.push16_eq, State.memWrite16_eq, State.setPc, State.hl, State.bc, State.de, State.f, State.af, State.pair,
      State.writeByte_cpu, h.cpu, h.cycles]
    all_goals (try split)
    all_goals first | exact .two _ _ _ _ _ _ | exact .same h
  case nop | ldRrNn | ldABc | ldADe | ldAHlInc | ldAHlDec | incRr | decRr | incR | decR | ldRN | rlca | rrca | rla |
      rra | addHlRr | stop | jrE | jrCcE | daa | cpl | scf | ccf =>
    (repeat cases ‹Reg8›) <;> (try cases ‹Reg16›) <;>
    simp only [execNop, execLdRrNn, execLdABc, execLdADe, execLdAHlInc, execLdAHlDec, execIncRr, execDecRr,
      execIncR, execDecR, execLdRN, execRlca, execRrca, execRla, execRra, execAddHlRr, execStop, execJrE, execJrCcE,
      execDaa, execCpl, execScf, execCcf, exec, State.jumpRelative, loadA, rotateA, State.memRead, State.tick,
      State.setPc, State.setSp, State.setA, State.setFlags, State.setHalted, State.setBc, State.setDe, State.setHl,
      State.hl, State.bc, State.de, State.reg8, State.reg16, State.setReg8, State.setReg16, h.cpu, h.cycles, h.read]
    all_goals (try split)
    all_goals first | exact .none _ _ | exact .refuse _ | exact .same h
  case ldRR | ldRHl | halt | addAR | addAHl | addAN | adcAR | adcAHl | adcAN | subR | subHl | subN | sbcAR | sbcAHl |
      sbcAN | andR | andHl | andN | xorR | xorHl | xorN | orR | orHl =>
    (repeat cases ‹Reg8›) <;>
    simp only [execLdRR, execLdRHl, execHalt, execAddAR, execAddAHl, execAddAN, execAdcAR, execAdcAHl, execAdcAN,
      execSubR, execSubHl, execSubN, execSbcAR, execSbcAHl, execSbcAN, execAndR, execAndHl, execAndN, execXorR,
      execXorHl, execXorN, execOrR, execOrHl, exec, State.setAluResult, aluAdd, aluAddRegister, aluAnd, aluOr, aluSub,
      aluXor, withOperandFlags, State.readHl, State.memRead, State.tick, State.setA, State.setFlags, State.setHalted,
      State.hl, State.reg8, State.setReg8, h.cpu, h.cycles, hp, hq, h.read]
    all_goals (try split)
    all_goals first | exact .none _ _ | exact .refuse _
  case orN | cpR | cpHl | cpN | retCc | popRr | popAf | jpCcNn | jpNn | ret | reti | addSpE | jpHl | ldhAN | ldAC | di
      | ldHlSpE | ldSpHl | ldANn | ei | unknownD3 | unknownDB | unknownDD =>
    (repeat cases ‹Reg8›) <;> (try cases ‹Pair›) <;>
    simp only [execOrN, execCpR, execCpHl, execCpN, execRetCc, execPopRr, execPopAf, execJpCcNn, execJpNn, execRet,
      execReti, execAddSpE, execJpHl, execLdhAN, execLdAC, execDi, execLdHlSpE, execLdSpHl, execLdANn, execEi,
      execUnknownD3, execUnknownDB, execUnknownDD, exec, State.returnToCaller, State.setAluResult, aluCp, aluOr,
      loadA, unknownOpcode, withOperandFlags, State.interruptReturn, State.pop16_eq, State.readHl, State.memRead,
      State.tick, State.setPc, State.setSp, State.setA, State.setFlags, State.setIme, State.setImeSched, State.setBc,
      State.setDe, State.setHl, State.setAf, State.hl, State.reg8, State.setPair, h.cpu, h.cycles, hp, hq, h.read]
    all_goals (try split)
    all_goals first | exact .none _ _ | exact .refuse _ | exact .same h
  case unknownE3 | unknownE4 | unknownEB | unknownEC | unknownED | unknownF4 | unknownFC | unknownFD | rlcR | rrcR |
      rlR | rrR | slaR | sraR | swapR | srlR | bitR | bitHl | resR | setR =>
    (repeat cases ‹Reg8›) <;>
    simp only [execUnknownE3, execUnknownE4, execUnknownEB, execUnknownEC, execUnknownED, execUnknownF4,
      execUnknownFC, execUnknownFD, execRlcR, execRrcR, execRlR, execRrR, execSlaR, execSraR, execSwapR, execSrlR,
      execBitR, execBitHl, execResR, execSetR, exec, rotateRegister, unknownOpcode, State.readHl, State.memRead,
      State.tick, State.setFlags, State.hl, State.reg8, State.setReg8, h.cpu, h.cycles, h.read]
    all_goals first | exact .none _ _ | exact .refuse _ | exact .same h

/-- From twins, an instruction makes the same writes and ends with the same CPU, or is refused alike. -/
theorem exec_alike (i : Instr) (s u : State) (h : s.Twins u) : Outcome.Alike s u (exec i s) (exec i u) := by
  by_cases hi : i = .prefixCb
  · subst hi
    show Outcome.Alike s u (runSecondByte s.fetch8.1 s.fetch8.2) (runSecondByte u.fetch8.1 u.fetch8.2)
    simp only [runSecondByte_eq, State.fetch8_eq, h.cpu, h.cycles, h.read]
    exact (exec_alike_of_ne _ (decodeCb_ne _) _ _ (h.frame _ _)).unframe
  · exact exec_alike_of_ne i hi s u h

end Sys2Proof.Machine
end

