-- ==== Sys2Proof/Laws/Arith.lean ====
section
/-! SUPPORT. The bit-vector results and flags of the model, on natural numbers: each function of Flags.lean and each
address computation beside the manual's arithmetic. -/

namespace Sys2Proof.Machine

set_option maxRecDepth 8000

/-- A fact about every byte, from its 256 cases. -/
theorem forall_byte {P : Byte → Prop} (h : ∀ n : Fin 256, P (BitVec.ofFin n)) (v : Byte) : P v := h v.toFin

/-! ### Words and their bytes -/

theorem toNat_append (x y : Byte) : (x ++ y : Word).toNat = x.toNat * 256 + y.toNat := by
  rw [show ((x ++ y : Word)).toNat = x.toNat <<< 8 ||| y.toNat from BitVec.toNat_append x y]
  rw [← Nat.shiftLeft_add_eq_or_of_lt (by omega), Nat.shiftLeft_eq]

theorem ofNat_append (x y : Byte) : BitVec.ofNat 16 (x.toNat * 256 + y.toNat) = (x ++ y : Word) := by
  apply BitVec.eq_of_toNat_eq
  have := x.isLt
  have := y.isLt
  rw [toNat_append, BitVec.toNat_ofNat]
  omega

theorem ofNat_high (w : Word) : BitVec.ofNat 8 (w.toNat / 256) = highByte w := by
  apply BitVec.eq_of_toNat_eq
  have := w.isLt
  simp [highByte, BitVec.extractLsb'_toNat, Nat.shiftRight_eq_div_pow]

theorem ofNat_low (w : Word) : BitVec.ofNat 8 (w.toNat % 256) = lowByte w := by
  apply BitVec.eq_of_toNat_eq
  simp [lowByte, BitVec.extractLsb'_toNat]

theorem ofNat_add_word (w : Word) (n : Nat) : BitVec.ofNat 16 (w.toNat + n) = w + BitVec.ofNat 16 n := by
  apply BitVec.eq_of_toNat_eq; simp

theorem ofNat_add_byte (v : Byte) (n : Nat) : BitVec.ofNat 8 (v.toNat + n) = v + BitVec.ofNat 8 n := by
  apply BitVec.eq_of_toNat_eq; simp

theorem word_sub_one (w : Word) : w - 1 = w + BitVec.ofNat 16 0xFFFF := by
  rw [BitVec.sub_eq_add_neg]; rfl

theorem byte_sub_one (v : Byte) : v - 1 = v + BitVec.ofNat 8 255 := by
  rw [BitVec.sub_eq_add_neg]; rfl

theorem word_sub_two (w : Word) : w - 1 - 1 = w - 2 := by
  rw [BitVec.sub_eq_add_neg, BitVec.sub_eq_add_neg, BitVec.sub_eq_add_neg, BitVec.add_assoc]; rfl

theorem word_add_two (w : Word) : w + 1 + 1 = w + 2 := by
  rw [BitVec.add_assoc]; rfl

/-- `0xFF00 + n` (20_memory.md R81). -/
theorem highPage_eq (n : Byte) : highPage n = BitVec.ofNat 16 (0xFF00 + n.toNat) := by
  apply BitVec.eq_of_toNat_eq; have := n.isLt; simp [highPage]

/-- `sext_16(e)` (00_scope.md R9). -/
theorem signExtend16_eq (e : Byte) :
    signExtend16 e = BitVec.ofNat 16 (if e.toNat < 0x80 then e.toNat else e.toNat + 0xFF00) := by
  revert e
  exact forall_byte (by decide)

/-! ### The ALU -/

theorem addResult_eq (a v : Byte) (c : Bool) : addResult a v c = sumByte a.toNat v.toNat c.toNat := by
  apply BitVec.eq_of_toNat_eq
  cases c <;> simp [addResult, sumByte, carryByte]

theorem addFlags_eq (a v : Byte) (c : Bool) : addFlags a v c = sumFlags a.toNat v.toNat c.toNat := by
  have hz : decide (addResult a v c = 0) = decide ((a.toNat + v.toNat + c.toNat) % 256 = 0) := by
    rw [addResult_eq]
    congr 1
    rw [← BitVec.toNat_inj]
    simp [sumByte]
  simp only [addFlags, sumFlags, hz, half8, carry8, lowNibble]
  rfl

theorem subResult_eq (a v : Byte) (c : Bool) : subResult a v c = differenceByte a.toNat v.toNat c.toNat := by
  apply BitVec.eq_of_toNat_eq
  have := a.isLt
  have := v.isLt
  have hc : (carryByte c).toNat = c.toNat := by cases c <;> rfl
  have := Bool.toNat_lt c
  simp only [subResult, differenceByte, BitVec.toNat_sub, BitVec.toNat_ofNat, hc]
  omega

theorem subFlags_eq (a v : Byte) (c : Bool) : subFlags a v c = differenceFlags a.toNat v.toNat c.toNat := by
  have hz : decide (subResult a v c = 0) = decide ((a.toNat + 512 - v.toNat - c.toNat) % 256 = 0) := by
    rw [subResult_eq]
    congr 1
    rw [← BitVec.toNat_inj]
    simp [differenceByte]
  simp only [subFlags, differenceFlags, hz, hborrow8, borrow8, lowNibble]
  rfl

/-- Z of a comparison: the operands are equal (41_alu_a.md R183). -/
theorem compareFlags_eq (a v : Byte) : subFlags a v false =
    { differenceFlags a.toNat v.toNat 0 with z := decide (a.toNat = v.toNat) } := by
  rw [subFlags_eq]
  have hz : (differenceFlags a.toNat v.toNat false.toNat).z = decide (a.toNat = v.toNat) := by
    have := a.isLt
    have := v.isLt
    simp only [differenceFlags, Bool.toNat_false, decide_eq_decide]
    omega
  rw [← hz]
  rfl

/-! ### Rotates and shifts -/

theorem rotateLeft_eq : ∀ v : Byte, rotateLeft v =
    (BitVec.ofNat 8 (v.toNat * 2 % 256 + v.toNat / 128), decide (v.toNat / 128 = 1)) := forall_byte (by decide)
theorem rotateRight_eq : ∀ v : Byte, rotateRight v =
    (BitVec.ofNat 8 (v.toNat / 2 + v.toNat % 2 * 128), decide (v.toNat % 2 = 1)) := forall_byte (by decide)
theorem rotateLeftCarry_eq (c : Bool) : ∀ v : Byte, rotateLeftCarry c v =
    (BitVec.ofNat 8 (v.toNat * 2 % 256 + c.toNat), decide (v.toNat / 128 = 1)) := by
  cases c <;> exact forall_byte (by decide)
theorem rotateRightCarry_eq (c : Bool) : ∀ v : Byte, rotateRightCarry c v =
    (BitVec.ofNat 8 (v.toNat / 2 + c.toNat * 128), decide (v.toNat % 2 = 1)) := by
  cases c <;> exact forall_byte (by decide)
theorem shiftLeft_eq : ∀ v : Byte, shiftLeft v =
    (BitVec.ofNat 8 (v.toNat * 2 % 256), decide (v.toNat / 128 = 1)) := forall_byte (by decide)
theorem shiftRightArith_eq : ∀ v : Byte, shiftRightArith v =
    (BitVec.ofNat 8 (v.toNat / 2 + v.toNat / 128 * 128), decide (v.toNat % 2 = 1)) := forall_byte (by decide)
theorem swapNibbles_eq : ∀ v : Byte, swapNibbles v =
    (BitVec.ofNat 8 (v.toNat % 16 * 16 + v.toNat / 16), false) := forall_byte (by decide)
theorem shiftRight_eq : ∀ v : Byte, shiftRight v =
    (BitVec.ofNat 8 (v.toNat / 2), decide (v.toNat % 2 = 1)) := forall_byte (by decide)

end Sys2Proof.Machine
end

