-- ==== Sys2Proof/Laws/Inv.lean ====
section
/-! SUPPORT. Every operation on storage keeps the canonical form and the bounds of the arrays (`State.storageOk`), the
legality of the cartridge record and the shelf: writes, ports, the loader, power and reset. -/

namespace Sys2Proof.Machine

theorem State.storeSize_congr {s t : State} (h : t.cart = s.cart) (st : Store) : t.storeSize st = s.storeSize st := by
  cases st <;> simp only [State.storeSize, State.romBanks, State.ramBanks, h]

/-- Writing one cell inside its array. -/
theorem State.storageOk_writeCell (s : State) (c : Cell) (v : Byte) (hc : c.index < s.storeSize c.store)
    (h : s.storageOk) : (s.writeCell c v).storageOk := by
  intro st
  rw [State.storeSize_congr (s.writeCell_cart c v)]
  by_cases hs : st = c.store
  · subst hs
    simp only [State.writeCell, Mmu.setArray_same]
    exact ⟨Memory.write_wf _ _ _ (h c.store).1, Memory.write_below _ _ _ _ hc (h c.store).2⟩
  · simp only [State.writeCell, Mmu.setArray_other _ _ _ _ hs]
    exact h st

theorem State.storageOk_writeByte (s : State) (a : Word) (v : Byte) (h : s.storageOk) :
    (s.writeByte a v).storageOk := by
  cases ht : s.writeTarget a with
  | none => rwa [s.writeByte_none a v ht]
  | some c =>
    rw [s.writeByte_some a v c ht]
    exact s.storageOk_writeCell c v (s.locate_lt a c (s.writeTarget_locate a c ht)) h

/-- Storage is sound by the arrays and the cartridge alone. -/
theorem State.storageOk_congr {s t : State} (hm : t.mmu = s.mmu) (hc : t.cart = s.cart) (h : s.storageOk) :
    t.storageOk := by
  intro st
  rw [State.storeSize_congr hc, hm]
  exact h st

theorem State.storageOk_writeBytes (ws : List (Word × Byte)) (s : State) (h : s.storageOk) :
    (s.writeBytes ws).storageOk := by
  induction ws generalizing s with
  | nil => exact h
  | cons w rest ih => exact ih _ (s.storageOk_writeByte w.1 w.2 h)

/-- What any instruction reaches keeps the invariant. -/
theorem State.Inv.reaches {s t : State} (h : s.Inv) (hr : s.Reaches t) : t.Inv := by
  obtain ⟨ws, ht⟩ := hr
  have hp := State.writeBytes_params ws s
  have hm : t.mmu = (s.writeBytes ws).mmu := by rw [ht]
  have hc : t.cart = (s.writeBytes ws).cart := by rw [ht]
  have hf : t.shelf = s.shelf := by rw [ht]; exact hp.2.2.2.2.1
  refine ⟨State.storageOk_congr hm hc (State.storageOk_writeBytes ws s h.storage), ?_, ?_⟩
  · rw [hc, hp.2.1]
    exact h.cart
  · rw [State.shelfOk, hf]
    exact h.shelf

/-! ### Reset and the loader -/

/-- The invariant looks at storage, the cartridge and the shelf alone. -/
theorem State.Inv.congr {s t : State} (h : s.Inv) (hm : t.mmu = s.mmu) (hc : t.cart = s.cart)
    (hs : t.shelf = s.shelf) : t.Inv := by
  refine ⟨State.storageOk_congr hm hc h.storage, ?_, ?_⟩
  · rw [hc]; exact h.cart
  · rw [State.shelfOk, hs]; exact h.shelf

theorem State.Inv.resetCore {s : State} (h : s.Inv) : s.resetCore.Inv := by
  refine ⟨fun st => ?_, h.cart, h.shelf⟩
  have hsize : s.resetCore.storeSize st = s.storeSize st := State.storeSize_congr rfl st
  rw [hsize]
  cases st
  case rom0 => exact h.storage .rom0
  case rom1 => exact h.storage .rom1
  case eram =>
    show Memory.wf (if s.persistent then s.mmu.eram else {}) = true ∧
      Memory.below (if s.persistent then s.mmu.eram else {}) (s.storeSize .eram) = true
    split
    · exact h.storage .eram
    · exact ⟨rfl, rfl⟩
  all_goals exact ⟨rfl, rfl⟩

theorem romBanksOf_legal (code : Byte) (n : Nat) (h : romBanksOf code = some n) :
    n ∈ [2, 4, 8, 16, 32, 64, 128, 256, 512] := by
  unfold romBanksOf at h
  split at h <;> cases h <;> decide

theorem ramBanksOf_legal (code : Byte) (n : Nat) (h : ramBanksOf code = some n) : n ∈ [0, 1, 4, 16, 8] := by
  unfold ramBanksOf at h
  split at h <;> cases h <;> decide

/-- A record the loader accepts is legal (20_memory.md R105 to R107). -/
theorem initCartridge_legal (image : List Byte) (c : Cartridge) (h : initCartridge image = .ok c) : c.legal := by
  unfold initCartridge at h
  split at h
  · cases h
  · split at h
    · cases h
    · split at h
      · rename_i hrom hram
        cases h
        exact ⟨romBanksOf_legal _ _ hrom, ramBanksOf_legal _ _ hram, rfl⟩
      · cases h

/-- Putting an array on the shelf. -/
theorem State.shelfOk.put {s t : State} (h : s.shelfOk) (i : Nat) (m : Memory) (hm : m.wf = true)
    (ht : t.shelf = insertCells s.shelf i m) : t.shelfOk := by
  rw [State.shelfOk, ht]
  refine ⟨insertCells_rising _ 0 i m (Nat.zero_le i) h.1, fun kept hk => ?_⟩
  rcases insertCells_mem _ _ _ _ hk with rfl | hk
  · exact hm
  · exact h.2 kept hk

/-- Taking an array off the shelf. -/
theorem State.shelfOk.take {s t : State} (h : s.shelfOk) (i : Nat) (ht : t.shelf = eraseCells s.shelf i) :
    t.shelfOk := by
  rw [State.shelfOk, ht]
  exact ⟨eraseCells_rising _ 0 i h.1, fun kept hk => h.2 kept (List.mem_of_mem_filter hk)⟩

theorem State.Inv.powerOff {s : State} (h : s.Inv) (e : Option LoadError) :
    State.Inv { s.powerOff with loadError := e } := by
  refine ⟨fun st => ?_, fun c hc => (by cases hc), ?_⟩
  · cases st <;> exact ⟨rfl, rfl⟩
  · cases hp : s.persistent with
    | true => exact h.shelf.put s.slot s.mmu.eram (h.storage .eram).1 (by simp [hp])
    | false =>
      have hs : s.powerOff.shelf = s.shelf := by simp [hp]
      show risingAbove 0 s.powerOff.shelf = true ∧ ∀ kept ∈ s.powerOff.shelf, kept.2.wf = true
      rw [hs]
      exact h.shelf

theorem State.Inv.insertCartridge {s : State} (h : s.Inv) (number : Nat) (c : Cartridge) (hc : c.legal)
    (hm : s.mmu = {}) : (s.insertCartridge number c).Inv := by
  refine ⟨fun st => ?_, fun d hd => ?_, ?_⟩
  · rw [State.insertCartridge_mmu, hm]
    cases st
    case eram =>
      show Memory.wf (if c.persistent then (s.keptArray number).restrict (c.ramBanks * 0x2000) else {}) = true ∧
        Memory.below (if c.persistent then (s.keptArray number).restrict (c.ramBanks * 0x2000) else {})
          (c.ramBanks * 0x2000) = true
      split
      · exact ⟨Memory.restrict_wf _ _, Memory.restrict_below _ _⟩
      · exact ⟨rfl, rfl⟩
    all_goals exact ⟨rfl, rfl⟩
  · cases hd; exact hc
  · cases hp : c.persistent with
    | true => exact h.shelf.take number (by simp [hp])
    | false => rw [State.shelfOk, State.insertCartridge_shelf, hp]; exact h.shelf

/-- Filling the ROM arrays keeps the invariant. -/
theorem State.Inv.loadRom {s : State} (h : s.Inv) (image : List Byte) (c : Cartridge) (hc : s.cart = some c) :
    State.Inv { s with mmu := s.mmu.loadRom image c } := by
  refine ⟨fun st => ?_, h.cart, h.shelf⟩
  have hsize : State.storeSize { s with mmu := s.mmu.loadRom image c } st = s.storeSize st := State.storeSize_congr rfl st
  rw [hsize]
  cases st
  case rom0 => exact ⟨Memory.ofBytes_wf _, Memory.ofBytes_below _ _ (by simp [State.storeSize])⟩
  case rom1 =>
    refine ⟨Memory.ofBytes_wf _, Memory.ofBytes_below _ _ ?_⟩
    rw [List.length_take, State.storeSize, State.romBanks, hc]
    exact Nat.min_le_left _ _
  case vram => exact h.storage .vram
  case eram => exact h.storage .eram
  case wram0 => exact h.storage .wram0
  case wram1 => exact h.storage .wram1
  case oam => exact h.storage .oam
  case io => exact h.storage .io
  case hram => exact h.storage .hram
  case ie => exact h.storage .ie

/-! ### Power-on, one lemma for each way it goes -/

/-- Power-on with an image the loader rejects at its first stage. -/
theorem State.powerOn_initError (s : State) (number : Nat) (image : List Byte) (e : LoadError)
    (h : initCartridge image = .error e) :
    s.powerOn number image = State.resetCore { s.powerOff with loadError := some e } := by
  unfold State.powerOn; rw [h]

/-- Power-on with an image shorter than its header says. -/
theorem State.powerOn_short (s : State) (number : Nat) (image : List Byte) (c : Cartridge)
    (h : initCartridge image = .ok c) (h' : image.length < c.romBanks * 0x4000) : s.powerOn number image =
      State.resetCore { (s.powerOff.insertCartridge number c).powerOff with loadError := some .romCorrupt } := by
  unfold State.powerOn; rw [h]; simp only [State.loadCartridge, if_pos h']

/-- Power-on with a good image. -/
theorem State.powerOn_ok (s : State) (number : Nat) (image : List Byte) (c : Cartridge)
    (h : initCartridge image = .ok c) (h' : c.romBanks * 0x4000 ≤ image.length) : s.powerOn number image =
      State.resetCore { s.powerOff.insertCartridge number c with
        mmu := (s.powerOff.insertCartridge number c).mmu.loadRom image c } := by
  unfold State.powerOn; rw [h]; simp only [State.loadCartridge, if_neg (Nat.not_lt.2 h')]

theorem State.Inv.powerOn {s : State} (h : s.Inv) (number : Nat) (image : List Byte) :
    (s.powerOn number image).Inv := by
  cases hi : initCartridge image with
  | error e => rw [State.powerOn_initError _ _ _ _ hi]; exact (h.powerOff (some e)).resetCore
  | ok c =>
    have hins := (h.powerOff none).insertCartridge number c (initCartridge_legal image c hi) rfl
    by_cases hl : image.length < c.romBanks * 0x4000
    · rw [State.powerOn_short _ _ _ _ hi hl]
      exact (hins.powerOff (some .romCorrupt)).resetCore
    · rw [State.powerOn_ok _ _ _ _ hi (Nat.not_lt.1 hl)]
      exact (hins.loadRom image c rfl).resetCore

/-! ### What is kept for a cartridge -/

/-- Power-off puts a persistent array on the shelf and leaves every other one there. -/
theorem State.powerOff_keptArray (s : State) (number : Nat) : s.powerOff.keptArray number =
    if s.persistent = true ∧ number = s.slot then s.mmu.eram else s.keptArray number := by
  unfold State.keptArray
  cases hp : s.persistent with
  | false => simp [hp]
  | true =>
    by_cases hn : number = s.slot
    · subst hn; simp [hp, lookupCells_insert_same]
    · simp [hp, hn, lookupCells_insert_other _ _ _ _ hn]

/-- Inserting a cartridge leaves the arrays of the others on the shelf. -/
theorem State.insertCartridge_keptArray (s : State) (number other : Nat) (c : Cartridge) (h : other ≠ number) :
    (s.insertCartridge number c).keptArray other = s.keptArray other := by
  unfold State.keptArray
  rw [State.insertCartridge_shelf]
  split
  · rw [lookupCells_erase, if_neg h]
  · rfl

/-- The ERAM after a power-on with a good image. -/
theorem State.powerOn_eram (s : State) (number : Nat) (image : List Byte) (c : Cartridge)
    (h : initCartridge image = .ok c) (h' : c.romBanks * 0x4000 ≤ image.length) :
    (s.powerOn number image).mmu.eram =
      if c.persistent then (s.powerOff.keptArray number).restrict (c.ramBanks * 0x2000) else {} := by
  rw [State.powerOn_ok s number image c h h']
  cases hp : c.persistent with
  | true =>
    have hs : State.persistent { s.powerOff.insertCartridge number c with
        mmu := (s.powerOff.insertCartridge number c).mmu.loadRom image c } = true := hp
    simp only [State.resetCore, hs, Mmu.afterReset, Mmu.resetControl, if_true]
    show (if c.persistent then (s.powerOff.keptArray number).restrict (c.ramBanks * 0x2000) else {}) = _
    rw [if_pos hp]
  | false =>
    have hs : State.persistent { s.powerOff.insertCartridge number c with
        mmu := (s.powerOff.insertCartridge number c).mmu.loadRom image c } = false := hp
    simp only [State.resetCore, hs, Mmu.afterReset, Mmu.resetControl, Bool.false_eq_true, if_false]

/-! ### The host's turn -/

theorem State.Inv.applyAction {s : State} (h : s.Inv) (act : HostAction) : (s.applyAction act).Inv := by
  cases act with
  | setROM1Index i => exact ⟨fun st => by have := h.1 st; cases st <;> exact this, h.2, h.3⟩
  | setVRAMLock b => exact ⟨fun st => by have := h.1 st; cases st <;> exact this, h.2, h.3⟩
  | setOAMLock b => exact ⟨fun st => by have := h.1 st; cases st <;> exact this, h.2, h.3⟩
  | writeIo offset v => exact ⟨s.storageOk_writeCell (ioCell offset) v offset.isLt h.1, h.2, h.3⟩
  | reset => exact h.resetCore
  | powerOff => exact h.powerOff none
  | powerOn number image => exact h.powerOn number image

theorem State.Inv.applyActions {s : State} (h : s.Inv) (acts : List HostAction) : (s.applyActions acts).Inv := by
  induction acts generalizing s with
  | nil => exact h
  | cons act rest ih => exact ih (h.applyAction act)

theorem State.Inv.withHost {s : State} (h : s.Inv) (l : List (List HostAction)) : State.Inv { s with host := l } :=
  h.congr rfl rfl rfl

theorem State.Inv.hostTurn {s : State} (h : s.Inv) : s.hostTurn.Inv := by
  unfold State.hostTurn
  split
  · exact h
  · exact (h.withHost _).applyActions _

/-! ### Interrupt entry -/

theorem State.Inv.cpu {s : State} (h : s.Inv) (c : Cpu) (n : Nat) : State.Inv { s with cpu := c, cycles := n } :=
  h.reaches (State.Reaches.ofCpu s c n)

theorem State.Inv.interruptEntry {s : State} (h : s.Inv) (i : Nat) : (s.interruptEntry i).Inv := by
  have h1 : (s.writeCell ifCell (s.readCell ifCell &&& ~~~(1#8 <<< i))).Inv :=
    ⟨s.storageOk_writeCell ifCell _ (by decide : 0x0F < 0x80) h.1, h.2, h.3⟩
  rw [State.interruptEntry_eq]
  exact ((h1.reaches (.writeByte _ _ _)).reaches (.writeByte _ _ _)).cpu _ _

theorem State.Inv.endOfCall {s : State} (h : s.Inv) : s.endOfCall.Inv := by
  unfold State.endOfCall
  split
  · exact h.cpu _ _
  · exact h.cpu _ _
  · exact h

end Sys2Proof.Machine
end

