-- ==== Sys2Proof/Laws/Call.lean ====
section
/-! SUPPORT. One call of `execute()`: which requests are pending, the four ways a call goes, and the instruction it runs. -/

namespace Sys2Proof.Machine

/-- A bit of `pend` (60_exceptions.md R328). -/
theorem State.pendingInterrupts_bit (s : State) (k : Nat) : s.pendingInterrupts.getLsbD k = true ↔
    k < 5 ∧ (s.readCell ⟨.ie, 0⟩).getLsbD k = true ∧ (s.readCell ⟨.io, 0x0F⟩).getLsbD k = true := by
  have mask : (0x1F : Byte).getLsbD k = decide (k < 5) := by
    rcases k with _ | _ | _ | _ | _ | _ | _ | _ | k <;> first | rfl | simp
  simp only [State.pendingInterrupts, BitVec.getLsbD_and, mask, ieCell, ifCell, Bool.and_eq_true, decide_eq_true_eq]
  tauto

/-- The test a call makes is the one the statements speak of. -/
theorem State.requestPending_iff (s : State) : s.requestPending ↔
    (s.params.irqDispatch && decide (s.pendingInterrupts ≠ 0)) = true := by
  rw [Bool.and_eq_true, decide_eq_true_eq]
  refine and_congr_right' ⟨?_, fun h => ?_⟩
  · rintro ⟨i, hi, h⟩ h0
    have := (s.pendingInterrupts_bit i).2 ⟨hi, h⟩
    rw [h0] at this; simp at this
  · by_contra hc
    refine h (BitVec.eq_of_getLsbD_eq (fun k _ => ?_))
    rw [show (0 : Byte).getLsbD k = false by simp, ← Bool.not_eq_true]
    exact fun hp => hc ⟨k, (s.pendingInterrupts_bit k).1 hp⟩

/-- A call on a machine with a cartridge (60_exceptions.md R329). -/
theorem execute_loaded (s : State) (h : s.cart.isSome = true) : execute s =
    if (s.params.irqDispatch && decide (s.pendingInterrupts ≠ 0)) = true then
      if s.cpu.ime = true then .next (State.interruptEntry { s with cpu := { s.cpu with halted := false }, cycles := 0 }
        (lowestInterrupt s.pendingInterrupts))
      else runInstruction { s with cpu := { s.cpu with halted := false }, cycles := 0 }
    else if s.cpu.halted = true then .next { s with cycles := 4 }
    else runInstruction { s with cycles := 0 } := by
  have he : execute s = executeLoaded s := by
    unfold execute
    cases hc : s.cart with
    | none => rw [hc] at h; cases h
    | some c => rfl
  rw [he]
  unfold executeLoaded
  have hp : State.pendingInterrupts { s with cycles := 0 } = s.pendingInterrupts := rfl
  have hq : (State.setHalted { s with cycles := 0 } false).pendingInterrupts = s.pendingInterrupts := rfl
  simp only [hp, hq]
  rfl

/-- Fetch, decode and run (30_encoding.md R120). -/
theorem runInstruction_eq (s : State) (i : Instr) (hd : decode s.nextBytes = .ok (i, [])) :
    runInstruction { s with cpu := { s.cpu with halted := false }, cycles := 0 } = finishCall i s.afterFetch := by
  unfold runInstruction
  rw [State.fetchBytes_eq]
  have he : decode (List.map (fun k =>
      State.readByte { s with cpu := { s.cpu with halted := false }, cycles := 0 } (s.cpu.pc + BitVec.ofNat 16 k))
      (List.range (State.nextLength { s with cpu := { s.cpu with halted := false }, cycles := 0 }))) = .ok (i, []) := hd
  simp only [he, Nat.zero_add]
  rfl

/-- The same when the machine was not halted. -/
theorem runInstruction_running (s : State) (i : Instr) (hh : s.cpu.halted = false)
    (hd : decode s.nextBytes = .ok (i, [])) : runInstruction { s with cycles := 0 } = finishCall i s.afterFetch := by
  rw [← runInstruction_eq s i hd]
  obtain ⟨p, c, m, k, l, t, f, n, e, q⟩ := s
  obtain ⟨⟩ := c
  simp only at hh
  subst hh
  rfl

/-- The number of the lowest request (60_exceptions.md R329). -/
theorem lowestInterrupt_eq (pend : Byte) (i : Nat) (hi : i < 5)
    (h : ∀ j, j ≤ i → (pend.getLsbD j = true ↔ j = i)) : lowestInterrupt pend = i := by
  have h1 := (h i (Nat.le_refl i)).2 rfl
  have h0 : ∀ j, j < i → ¬ pend.getLsbD j = true := fun j hj hp => Nat.ne_of_lt hj ((h j (Nat.le_of_lt hj)).1 hp)
  unfold lowestInterrupt
  obtain rfl | rfl | rfl | rfl | rfl : i = 0 ∨ i = 1 ∨ i = 2 ∨ i = 3 ∨ i = 4 := by omega
  · rw [if_pos h1]
  · rw [if_neg (h0 0 (by omega)), if_pos h1]
  · rw [if_neg (h0 0 (by omega)), if_neg (h0 1 (by omega)), if_pos h1]
  · rw [if_neg (h0 0 (by omega)), if_neg (h0 1 (by omega)), if_neg (h0 2 (by omega)), if_pos h1]
  · rw [if_neg (h0 0 (by omega)), if_neg (h0 1 (by omega)), if_neg (h0 2 (by omega)), if_neg (h0 3 (by omega))]

end Sys2Proof.Machine
end

