-- ==== Sys2Proof/Laws/Decode.lean ====
section
/-! SUPPORT. The field tables of the encoding read both ways, and what the decoder gives for each format. -/

namespace Sys2Proof

theorem opByte_toNat (x y z : Nat) (hx : x < 4) (hy : y < 8) (hz : z < 8) :
    (opByte x y z).toNat = 64 * x + 8 * y + z := by
  rw [opByte, BitVec.toNat_ofNat, Nat.mod_eq_of_lt (by omega)]

theorem fieldX_opByte (x y z : Nat) (hx : x < 4) (hy : y < 8) (hz : z < 8) : fieldX (opByte x y z) = x := by
  rw [fieldX, opByte_toNat x y z hx hy hz]; omega

theorem fieldY_opByte (x y z : Nat) (hx : x < 4) (hy : y < 8) (hz : z < 8) : fieldY (opByte x y z) = y := by
  rw [fieldY, opByte_toNat x y z hx hy hz]; omega

theorem fieldZ_opByte (x y z : Nat) (hx : x < 4) (hy : y < 8) (hz : z < 8) : fieldZ (opByte x y z) = z := by
  rw [fieldZ, opByte_toNat x y z hx hy hz]; omega

/-- A byte is made of its three fields (30_encoding.md R123). -/
theorem opByte_fields (op : Byte) : opByte (fieldX op) (fieldY op) (fieldZ op) = op := by
  apply BitVec.eq_of_toNat_eq
  have := op.isLt
  rw [opByte_toNat _ _ _ (by unfold fieldX; omega) (by unfold fieldY; omega) (by unfold fieldZ; omega)]
  unfold fieldX fieldY fieldZ
  omega

@[simp] theorem reg8Of_code (r : Reg8) : reg8Of r.code = some r := by cases r <;> rfl
@[simp] theorem reg16Of_code (rr : Reg16) : reg16Of rr.code = rr := by cases rr <;> rfl
@[simp] theorem pairOf_code (q : Pair) : pairOf q.code = some q := by cases q <;> rfl
@[simp] theorem condOf_code (cc : Cond) : condOf cc.code = cc := by cases cc <;> rfl

theorem Reg8.code_lt (r : Reg8) : r.code < 8 := by cases r <;> decide
theorem Reg16.code_lt (rr : Reg16) : rr.code < 4 := by cases rr <;> decide
theorem Pair.code_lt (q : Pair) : q.code < 3 := by cases q <;> decide
theorem Cond.code_lt (cc : Cond) : cc.code < 4 := by cases cc <;> decide

@[simp] theorem immWord_low_high (nn : Word) : immWord (lowByte nn) (highByte nn) = nn :=
  Machine.high_append_low nn

/-! ### The formats of 30_encoding.md R122 -/

theorem decode_op (op : Byte) (i : Instr) (rest : List Byte) (h : decodeOp op = .op i) :
    decode (op :: rest) = .ok (i, rest) := by simp only [decode, h]

theorem decode_opN (op n : Byte) (f : Byte → Instr) (rest : List Byte) (h : decodeOp op = .opN f) :
    decode (op :: n :: rest) = .ok (f n, rest) := by simp only [decode, h]

theorem decode_opNN (op lo hi : Byte) (f : Word → Instr) (rest : List Byte) (h : decodeOp op = .opNN f) :
    decode (op :: lo :: hi :: rest) = .ok (f (immWord lo hi), rest) := by simp only [decode, h]

theorem decode_cb (op2 : Byte) (rest : List Byte) :
    decode (0xCB :: op2 :: rest) = .ok (decodeCb op2, rest) := rfl

set_option maxRecDepth 8000 in
/-- No first byte but 0xCB asks for a second opcode byte. -/
theorem decodeOp_cb (op : Byte) (h : decodeOp op = .cb) : op = 0xCB := by
  have : ∀ n : Fin 256, decodeOp (BitVec.ofFin n) = .cb → (BitVec.ofFin n : Byte) = 0xCB := by
    intro n hn
    have hk : ∀ m : Fin 256, (match decodeOp (BitVec.ofFin m) with | .cb => true | _ => false) = true →
        (BitVec.ofFin m : Byte) = 0xCB := by decide
    exact hk n (by rw [hn])
  exact this op.toFin h

end Sys2Proof
end

