-- ==== Sys2Proof/Laws/PerInstr.lean ====
section
/-! SUPPORT. Statements made for each instruction as syntax. `Length`: a well-formed instruction is encoded in as many
bytes as its first byte says (30_encoding.md R121, R138); the table's row for the byte 0xCB, which is only the first byte
of two, is the exception. -/

namespace Sys2Proof.Laws.Length

/-- The encoding of a well-formed instruction has the length its first byte gives. -/
def Statement (i : Instr) : Prop :=
  i.wellFormed = true → i = .prefixCb ∨ (encode i).length = instrLength ((encode i).headD 0)

theorem length_two {i : Instr} {op v : Byte} (h : encode i = [op, v]) (hl : instrLength op = 2) :
    (encode i).length = instrLength ((encode i).headD 0) := by rw [h]; exact hl.symm

theorem length_three {i : Instr} {op v w : Byte} (h : encode i = [op, v, w]) (hl : instrLength op = 3) :
    (encode i).length = instrLength ((encode i).headD 0) := by rw [h]; exact hl.symm

theorem nop : Statement .nop := fun _ => .inr rfl
theorem ldRrNn (rr : Reg16) (nn : Word) : Statement (.ldRrNn rr nn) := fun _ => .inr (by cases rr <;> exact length_three rfl (by decide))
theorem ldBcA : Statement .ldBcA := fun _ => .inr rfl
theorem ldDeA : Statement .ldDeA := fun _ => .inr rfl
theorem ldHlIncA : Statement .ldHlIncA := fun _ => .inr rfl
theorem ldHlDecA : Statement .ldHlDecA := fun _ => .inr rfl
theorem ldABc : Statement .ldABc := fun _ => .inr rfl
theorem ldADe : Statement .ldADe := fun _ => .inr rfl
theorem ldAHlInc : Statement .ldAHlInc := fun _ => .inr rfl
theorem ldAHlDec : Statement .ldAHlDec := fun _ => .inr rfl
theorem incRr (rr : Reg16) : Statement (.incRr rr) := fun _ => .inr (by cases rr <;> rfl)
theorem decRr (rr : Reg16) : Statement (.decRr rr) := fun _ => .inr (by cases rr <;> rfl)
theorem incR (r : Reg8) : Statement (.incR r) := fun _ => .inr (by cases r <;> rfl)
theorem incHl : Statement .incHl := fun _ => .inr rfl
theorem decR (r : Reg8) : Statement (.decR r) := fun _ => .inr (by cases r <;> rfl)
theorem decHl : Statement .decHl := fun _ => .inr rfl
theorem ldRN (r : Reg8) (n : Byte) : Statement (.ldRN r n) := fun _ => .inr (by cases r <;> exact length_two rfl (by decide))
theorem ldHlN (n : Byte) : Statement (.ldHlN n) := fun _ => .inr (length_two rfl (by decide))
theorem rlca : Statement .rlca := fun _ => .inr rfl
theorem rrca : Statement .rrca := fun _ => .inr rfl
theorem rla : Statement .rla := fun _ => .inr rfl
theorem rra : Statement .rra := fun _ => .inr rfl
theorem ldNnSp (nn : Word) : Statement (.ldNnSp nn) := fun _ => .inr (length_three rfl (by decide))
theorem addHlRr (rr : Reg16) : Statement (.addHlRr rr) := fun _ => .inr (by cases rr <;> rfl)
theorem stop (n : Byte) : Statement (.stop n) := fun _ => .inr (length_two rfl (by decide))
theorem jrE (e : Byte) : Statement (.jrE e) := fun _ => .inr (length_two rfl (by decide))
theorem jrCcE (cc : Cond) (e : Byte) : Statement (.jrCcE cc e) := fun _ => .inr (by cases cc <;> exact length_two rfl (by decide))
theorem daa : Statement .daa := fun _ => .inr rfl
theorem cpl : Statement .cpl := fun _ => .inr rfl
theorem scf : Statement .scf := fun _ => .inr rfl
theorem ccf : Statement .ccf := fun _ => .inr rfl
theorem ldRR (dst src : Reg8) : Statement (.ldRR dst src) := fun _ => .inr (by cases dst <;> cases src <;> rfl)
theorem ldRHl (r : Reg8) : Statement (.ldRHl r) := fun _ => .inr (by cases r <;> rfl)
theorem ldHlR (r : Reg8) : Statement (.ldHlR r) := fun _ => .inr (by cases r <;> rfl)
theorem halt : Statement .halt := fun _ => .inr rfl
theorem addAR (r : Reg8) : Statement (.addAR r) := fun _ => .inr (by cases r <;> rfl)
theorem addAHl : Statement .addAHl := fun _ => .inr rfl
theorem addAN (n : Byte) : Statement (.addAN n) := fun _ => .inr (length_two rfl (by decide))
theorem adcAR (r : Reg8) : Statement (.adcAR r) := fun _ => .inr (by cases r <;> rfl)
theorem adcAHl : Statement .adcAHl := fun _ => .inr rfl
theorem adcAN (n : Byte) : Statement (.adcAN n) := fun _ => .inr (length_two rfl (by decide))
theorem subR (r : Reg8) : Statement (.subR r) := fun _ => .inr (by cases r <;> rfl)
theorem subHl : Statement .subHl := fun _ => .inr rfl
theorem subN (n : Byte) : Statement (.subN n) := fun _ => .inr (length_two rfl (by decide))
theorem sbcAR (r : Reg8) : Statement (.sbcAR r) := fun _ => .inr (by cases r <;> rfl)
theorem sbcAHl : Statement .sbcAHl := fun _ => .inr rfl
theorem sbcAN (n : Byte) : Statement (.sbcAN n) := fun _ => .inr (length_two rfl (by decide))
theorem andR (r : Reg8) : Statement (.andR r) := fun _ => .inr (by cases r <;> rfl)
theorem andHl : Statement .andHl := fun _ => .inr rfl
theorem andN (n : Byte) : Statement (.andN n) := fun _ => .inr (length_two rfl (by decide))
theorem xorR (r : Reg8) : Statement (.xorR r) := fun _ => .inr (by cases r <;> rfl)
theorem xorHl : Statement .xorHl := fun _ => .inr rfl
theorem xorN (n : Byte) : Statement (.xorN n) := fun _ => .inr (length_two rfl (by decide))
theorem orR (r : Reg8) : Statement (.orR r) := fun _ => .inr (by cases r <;> rfl)
theorem orHl : Statement .orHl := fun _ => .inr rfl
theorem orN (n : Byte) : Statement (.orN n) := fun _ => .inr (length_two rfl (by decide))
theorem cpR (r : Reg8) : Statement (.cpR r) := fun _ => .inr (by cases r <;> rfl)
theorem cpHl : Statement .cpHl := fun _ => .inr rfl
theorem cpN (n : Byte) : Statement (.cpN n) := fun _ => .inr (length_two rfl (by decide))
theorem retCc (cc : Cond) : Statement (.retCc cc) := fun _ => .inr (by cases cc <;> rfl)
theorem popRr (q : Pair) : Statement (.popRr q) := fun _ => .inr (by cases q <;> rfl)
theorem popAf : Statement .popAf := fun _ => .inr rfl
theorem jpCcNn (cc : Cond) (nn : Word) : Statement (.jpCcNn cc nn) := fun _ => .inr (by cases cc <;> exact length_three rfl (by decide))
theorem jpNn (nn : Word) : Statement (.jpNn nn) := fun _ => .inr (length_three rfl (by decide))
theorem callCcNn (cc : Cond) (nn : Word) : Statement (.callCcNn cc nn) := fun _ => .inr (by cases cc <;> exact length_three rfl (by decide))
theorem pushRr (q : Pair) : Statement (.pushRr q) := fun _ => .inr (by cases q <;> rfl)
theorem pushAf : Statement .pushAf := fun _ => .inr rfl
theorem rst (t : Word) : Statement (.rst t) := by
  intro h
  have ht : t.toNat / 8 < 8 := by
    simp only [Instr.wellFormed, rstTargetOk, Bool.and_eq_true, decide_eq_true_eq] at h
    omega
  refine .inr ?_
  show 1 = instrLength (opByte 3 (t.toNat / 8) 7)
  generalize t.toNat / 8 = y at ht
  rcases y with _ | _ | _ | _ | _ | _ | _ | _ | y <;> first | rfl | omega
theorem ret : Statement .ret := fun _ => .inr rfl
theorem reti : Statement .reti := fun _ => .inr rfl
theorem prefixCb : Statement .prefixCb := fun _ => .inl rfl
theorem callNn (nn : Word) : Statement (.callNn nn) := fun _ => .inr (length_three rfl (by decide))
theorem ldhNA (n : Byte) : Statement (.ldhNA n) := fun _ => .inr (length_two rfl (by decide))
theorem ldCA : Statement .ldCA := fun _ => .inr rfl
theorem addSpE (e : Byte) : Statement (.addSpE e) := fun _ => .inr (length_two rfl (by decide))
theorem jpHl : Statement .jpHl := fun _ => .inr rfl
theorem ldNnA (nn : Word) : Statement (.ldNnA nn) := fun _ => .inr (length_three rfl (by decide))
theorem ldhAN (n : Byte) : Statement (.ldhAN n) := fun _ => .inr (length_two rfl (by decide))
theorem ldAC : Statement .ldAC := fun _ => .inr rfl
theorem di : Statement .di := fun _ => .inr rfl
theorem ldHlSpE (e : Byte) : Statement (.ldHlSpE e) := fun _ => .inr (length_two rfl (by decide))
theorem ldSpHl : Statement .ldSpHl := fun _ => .inr rfl
theorem ldANn (nn : Word) : Statement (.ldANn nn) := fun _ => .inr (length_three rfl (by decide))
theorem ei : Statement .ei := fun _ => .inr rfl
theorem unknownD3 : Statement .unknownD3 := fun _ => .inr rfl
theorem unknownDB : Statement .unknownDB := fun _ => .inr rfl
theorem unknownDD : Statement .unknownDD := fun _ => .inr rfl
theorem unknownE3 : Statement .unknownE3 := fun _ => .inr rfl
theorem unknownE4 : Statement .unknownE4 := fun _ => .inr rfl
theorem unknownEB : Statement .unknownEB := fun _ => .inr rfl
theorem unknownEC : Statement .unknownEC := fun _ => .inr rfl
theorem unknownED : Statement .unknownED := fun _ => .inr rfl
theorem unknownF4 : Statement .unknownF4 := fun _ => .inr rfl
theorem unknownFC : Statement .unknownFC := fun _ => .inr rfl
theorem unknownFD : Statement .unknownFD := fun _ => .inr rfl
theorem rlcR (r : Reg8) : Statement (.rlcR r) := fun _ => .inr (length_two rfl (by decide))
theorem rlcHl : Statement .rlcHl := fun _ => .inr rfl
theorem rrcR (r : Reg8) : Statement (.rrcR r) := fun _ => .inr (length_two rfl (by decide))
theorem rrcHl : Statement .rrcHl := fun _ => .inr rfl
theorem rlR (r : Reg8) : Statement (.rlR r) := fun _ => .inr (length_two rfl (by decide))
theorem rlHl : Statement .rlHl := fun _ => .inr rfl
theorem rrR (r : Reg8) : Statement (.rrR r) := fun _ => .inr (length_two rfl (by decide))
theorem rrHl : Statement .rrHl := fun _ => .inr rfl
theorem slaR (r : Reg8) : Statement (.slaR r) := fun _ => .inr (length_two rfl (by decide))
theorem slaHl : Statement .slaHl := fun _ => .inr rfl
theorem sraR (r : Reg8) : Statement (.sraR r) := fun _ => .inr (length_two rfl (by decide))
theorem sraHl : Statement .sraHl := fun _ => .inr rfl
theorem swapR (r : Reg8) : Statement (.swapR r) := fun _ => .inr (length_two rfl (by decide))
theorem swapHl : Statement .swapHl := fun _ => .inr rfl
theorem srlR (r : Reg8) : Statement (.srlR r) := fun _ => .inr (length_two rfl (by decide))
theorem srlHl : Statement .srlHl := fun _ => .inr rfl
theorem bitR (b : Nat) (r : Reg8) : Statement (.bitR b r) := fun _ => .inr (length_two rfl (by decide))
theorem bitHl (b : Nat) : Statement (.bitHl b) := fun _ => .inr (length_two rfl (by decide))
theorem resR (b : Nat) (r : Reg8) : Statement (.resR b r) := fun _ => .inr (length_two rfl (by decide))
theorem resHl (b : Nat) : Statement (.resHl b) := fun _ => .inr (length_two rfl (by decide))
theorem setR (b : Nat) (r : Reg8) : Statement (.setR b r) := fun _ => .inr (length_two rfl (by decide))
theorem setHl (b : Nat) : Statement (.setHl b) := fun _ => .inr (length_two rfl (by decide))

end Sys2Proof.Laws.Length
end

