-- ==== Sys2Proof/Tests/Slice0.lean ====
section
/-! SUPPORT. The model's own tests: ill-formed terms, one word written out from the spec's encoding for every constructor,
vectors of 95_test_vectors.md, and for every statement with hypotheses a concrete case that meets them. -/

namespace Sys2Proof.Tests

open Sys2Proof Sys2Proof.Machine

/-! ### Ill-formed terms (R129: a bit index has three bits; R301: a target is one of eight vectors) -/

theorem test_ill_formed_bit : (Instr.bitR 8 .a).wellFormed = false ∧ (Instr.bitHl 8).wellFormed = false := by decide
theorem test_ill_formed_res : (Instr.resR 8 .a).wellFormed = false ∧ (Instr.resHl 9).wellFormed = false := by decide
theorem test_ill_formed_set : (Instr.setR 8 .a).wellFormed = false ∧ (Instr.setHl 8).wellFormed = false := by decide
theorem test_ill_formed_rst_odd : (Instr.rst 0x0004).wellFormed = false := by decide
theorem test_ill_formed_rst_far : (Instr.rst 0x0040).wellFormed = false := by decide

/-! ### Decoding: the words of the encoding line of each rule -/

/-- 40_ld_r_r.md. -/
theorem test_decode_ld_r_r :
    decode [0b01000001#8] = .ok (.ldRR .b .c, []) ∧ decode [0b01100110#8] = .ok (.ldRHl .h, []) ∧
    decode [0b01110101#8] = .ok (.ldHlR .l, []) := ⟨rfl, rfl, rfl⟩

/-- 41_alu_a.md: `10 ooo zzz`, `10 ooo 110`, `11 ooo 110`. -/
theorem test_decode_alu_registers :
    decode [0b10000000#8] = .ok (.addAR .b, []) ∧ decode [0b10001001#8] = .ok (.adcAR .c, []) ∧
    decode [0b10010010#8] = .ok (.subR .d, []) ∧ decode [0b10011011#8] = .ok (.sbcAR .e, []) ∧
    decode [0b10100100#8] = .ok (.andR .h, []) ∧ decode [0b10101101#8] = .ok (.xorR .l, []) ∧
    decode [0b10110111#8] = .ok (.orR .a, []) ∧ decode [0b10111000#8] = .ok (.cpR .b, []) :=
  ⟨rfl, rfl, rfl, rfl, rfl, rfl, rfl, rfl⟩

theorem test_decode_alu_memory :
    decode [0b10000110#8] = .ok (.addAHl, []) ∧ decode [0b10001110#8] = .ok (.adcAHl, []) ∧
    decode [0b10010110#8] = .ok (.subHl, []) ∧ decode [0b10011110#8] = .ok (.sbcAHl, []) ∧
    decode [0b10100110#8] = .ok (.andHl, []) ∧ decode [0b10101110#8] = .ok (.xorHl, []) ∧
    decode [0b10110110#8] = .ok (.orHl, []) ∧ decode [0b10111110#8] = .ok (.cpHl, []) :=
  ⟨rfl, rfl, rfl, rfl, rfl, rfl, rfl, rfl⟩

theorem test_decode_alu_immediates :
    decode [0b11000110#8, 0x01#8] = .ok (.addAN 0x01, []) ∧ decode [0b11001110#8, 0x02#8] = .ok (.adcAN 0x02, []) ∧
    decode [0b11010110#8, 0x03#8] = .ok (.subN 0x03, []) ∧ decode [0b11011110#8, 0x04#8] = .ok (.sbcAN 0x04, []) ∧
    decode [0b11100110#8, 0x05#8] = .ok (.andN 0x05, []) ∧ decode [0b11101110#8, 0x06#8] = .ok (.xorN 0x06, []) ∧
    decode [0b11110110#8, 0x07#8] = .ok (.orN 0x07, []) ∧ decode [0b11111110#8, 0x08#8] = .ok (.cpN 0x08, []) :=
  ⟨rfl, rfl, rfl, rfl, rfl, rfl, rfl, rfl⟩

/-- 42_cb_group.md: `0xCB`, then `00 ooo zzz`. -/
theorem test_decode_shifts :
    decode [0b11001011#8, 0b00000000#8] = .ok (.rlcR .b, []) ∧ decode [0b11001011#8, 0b00000110#8] = .ok (.rlcHl, []) ∧
    decode [0b11001011#8, 0b00001001#8] = .ok (.rrcR .c, []) ∧ decode [0b11001011#8, 0b00001110#8] = .ok (.rrcHl, []) ∧
    decode [0b11001011#8, 0b00010010#8] = .ok (.rlR .d, []) ∧ decode [0b11001011#8, 0b00010110#8] = .ok (.rlHl, []) ∧
    decode [0b11001011#8, 0b00011111#8] = .ok (.rrR .a, []) ∧ decode [0b11001011#8, 0b00011110#8] = .ok (.rrHl, []) ∧
    decode [0b11001011#8, 0b00100100#8] = .ok (.slaR .h, []) ∧ decode [0b11001011#8, 0b00100110#8] = .ok (.slaHl, []) ∧
    decode [0b11001011#8, 0b00101101#8] = .ok (.sraR .l, []) ∧ decode [0b11001011#8, 0b00101110#8] = .ok (.sraHl, []) ∧
    decode [0b11001011#8, 0b00110011#8] = .ok (.swapR .e, []) ∧ decode [0b11001011#8, 0b00110110#8] = .ok (.swapHl, []) ∧
    decode [0b11001011#8, 0b00111001#8] = .ok (.srlR .c, []) ∧ decode [0b11001011#8, 0b00111110#8] = .ok (.srlHl, []) :=
  ⟨rfl, rfl, rfl, rfl, rfl, rfl, rfl, rfl, rfl, rfl, rfl, rfl, rfl, rfl, rfl, rfl⟩

/-- 42_cb_group.md: `0xCB`, then `01 bbb zzz`, `10 bbb zzz`, `11 bbb zzz`; the prefix alone (R190). -/
theorem test_decode_bits :
    decode [0b11001011#8, 0b01111111#8] = .ok (.bitR 7 .a, []) ∧ decode [0b11001011#8, 0b01000110#8] = .ok (.bitHl 0, []) ∧
    decode [0b11001011#8, 0b10111000#8] = .ok (.resR 7 .b, []) ∧ decode [0b11001011#8, 0b10001110#8] = .ok (.resHl 1, []) ∧
    decode [0b11001011#8, 0b11000011#8] = .ok (.setR 0 .e, []) ∧ decode [0b11001011#8, 0b11111110#8] = .ok (.setHl 7, []) ∧
    decode [0b11001011#8] = .ok (.prefixCb, []) := ⟨rfl, rfl, rfl, rfl, rfl, rfl, rfl⟩

/-- 43_loads.md. -/
theorem test_decode_byte_loads :
    decode [0b00111110#8, 0x42#8] = .ok (.ldRN .a 0x42, []) ∧ decode [0b00110110#8, 0x42#8] = .ok (.ldHlN 0x42, []) ∧
    decode [0x02#8] = .ok (.ldBcA, []) ∧ decode [0x12#8] = .ok (.ldDeA, []) ∧ decode [0x0A#8] = .ok (.ldABc, []) ∧
    decode [0x1A#8] = .ok (.ldADe, []) ∧ decode [0x22#8] = .ok (.ldHlIncA, []) ∧ decode [0x32#8] = .ok (.ldHlDecA, []) ∧
    decode [0x2A#8] = .ok (.ldAHlInc, []) ∧ decode [0x3A#8] = .ok (.ldAHlDec, []) ∧
    decode [0xE0#8, 0x80#8] = .ok (.ldhNA 0x80, []) ∧ decode [0xF0#8, 0x80#8] = .ok (.ldhAN 0x80, []) ∧
    decode [0xE2#8] = .ok (.ldCA, []) ∧ decode [0xF2#8] = .ok (.ldAC, []) ∧
    decode [0xEA#8, 0x00#8, 0xC0#8] = .ok (.ldNnA 0xC000, []) ∧ decode [0xFA#8, 0x34#8, 0x12#8] = .ok (.ldANn 0x1234, []) :=
  ⟨rfl, rfl, rfl, rfl, rfl, rfl, rfl, rfl, rfl, rfl, rfl, rfl, rfl, rfl, rfl, rfl⟩

theorem test_decode_word_loads :
    decode [0b00100001#8, 0x20#8, 0x01#8] = .ok (.ldRrNn .hl 0x0120, []) ∧ decode [0xF9#8] = .ok (.ldSpHl, []) ∧
    decode [0xF8#8, 0xFE#8] = .ok (.ldHlSpE 0xFE, []) ∧ decode [0x08#8, 0x34#8, 0x12#8] = .ok (.ldNnSp 0x1234, []) :=
  ⟨rfl, rfl, rfl, rfl⟩

/-- 44_incdec_add16.md. -/
theorem test_decode_incdec :
    decode [0b00000100#8] = .ok (.incR .b, []) ∧ decode [0b00110100#8] = .ok (.incHl, []) ∧
    decode [0b00111101#8] = .ok (.decR .a, []) ∧ decode [0b00110101#8] = .ok (.decHl, []) ∧
    decode [0b00110011#8] = .ok (.incRr .sp, []) ∧ decode [0b00001011#8] = .ok (.decRr .bc, []) ∧
    decode [0b00011001#8] = .ok (.addHlRr .de, []) ∧ decode [0xE8#8, 0xFF#8] = .ok (.addSpE 0xFF, []) :=
  ⟨rfl, rfl, rfl, rfl, rfl, rfl, rfl, rfl⟩

/-- 45_stack.md and 46_misc_alu.md. -/
theorem test_decode_stack_and_accumulator :
    decode [0b11000101#8] = .ok (.pushRr .bc, []) ∧ decode [0b11110101#8] = .ok (.pushAf, []) ∧
    decode [0b11100001#8] = .ok (.popRr .hl, []) ∧ decode [0b11110001#8] = .ok (.popAf, []) ∧
    decode [0x27#8] = .ok (.daa, []) ∧ decode [0x2F#8] = .ok (.cpl, []) ∧ decode [0x3F#8] = .ok (.ccf, []) ∧
    decode [0x37#8] = .ok (.scf, []) ∧ decode [0x07#8] = .ok (.rlca, []) ∧ decode [0x0F#8] = .ok (.rrca, []) ∧
    decode [0x17#8] = .ok (.rla, []) ∧ decode [0x1F#8] = .ok (.rra, []) :=
  ⟨rfl, rfl, rfl, rfl, rfl, rfl, rfl, rfl, rfl, rfl, rfl, rfl⟩

/-- 47_control.md. -/
theorem test_decode_control :
    decode [0xC3#8, 0x50#8, 0x01#8] = .ok (.jpNn 0x0150, []) ∧ decode [0b11010010#8, 0x50#8, 0x01#8] = .ok (.jpCcNn .nc 0x0150, []) ∧
    decode [0xE9#8] = .ok (.jpHl, []) ∧ decode [0x18#8, 0xFE#8] = .ok (.jrE 0xFE, []) ∧
    decode [0b00101000#8, 0x05#8] = .ok (.jrCcE .z 0x05, []) ∧ decode [0xCD#8, 0x10#8, 0x01#8] = .ok (.callNn 0x0110, []) ∧
    decode [0b11000100#8, 0x10#8, 0x01#8] = .ok (.callCcNn .nz 0x0110, []) ∧ decode [0xC9#8] = .ok (.ret, []) ∧
    decode [0b11011000#8] = .ok (.retCc .c, []) ∧ decode [0xD9#8] = .ok (.reti, []) ∧
    decode [0b11001111#8] = .ok (.rst 0x0008, []) := ⟨rfl, rfl, rfl, rfl, rfl, rfl, rfl, rfl, rfl, rfl, rfl⟩

/-- 48_system.md. -/
theorem test_decode_system :
    decode [0x00#8] = .ok (.nop, []) ∧ decode [0x76#8] = .ok (.halt, []) ∧ decode [0x10#8, 0x01#8] = .ok (.stop 0x01, []) ∧
    decode [0xF3#8] = .ok (.di, []) ∧ decode [0xFB#8] = .ok (.ei, []) := ⟨rfl, rfl, rfl, rfl, rfl⟩

theorem test_decode_unknown :
    decode [0xD3#8] = .ok (.unknownD3, []) ∧ decode [0xDB#8] = .ok (.unknownDB, []) ∧ decode [0xDD#8] = .ok (.unknownDD, []) ∧
    decode [0xE3#8] = .ok (.unknownE3, []) ∧ decode [0xE4#8] = .ok (.unknownE4, []) ∧ decode [0xEB#8] = .ok (.unknownEB, []) ∧
    decode [0xEC#8] = .ok (.unknownEC, []) ∧ decode [0xED#8] = .ok (.unknownED, []) ∧ decode [0xF4#8] = .ok (.unknownF4, []) ∧
    decode [0xFC#8] = .ok (.unknownFC, []) ∧ decode [0xFD#8] = .ok (.unknownFD, []) :=
  ⟨rfl, rfl, rfl, rfl, rfl, rfl, rfl, rfl, rfl, rfl, rfl⟩

/-- The two ways the host numbers a table word. -/
theorem test_decode_table_word : decodeTableWord 8 0x80 = some (.addAR .b) ∧
    decodeTableWord 16 0x7FCB = some (.bitR 7 .a) ∧ decodeTableWord 8 0xC3 = some (.jpNn 0x0000) := ⟨rfl, rfl, rfl⟩

/-! ### One step on small states (95_test_vectors.md, part 2; the start state is that file's default) -/

/-- Every register zero, SP = 0xFFFE, PC = 0x0100. -/
def zeroCpu : Cpu := Cpu.reset { resetAF := 0, resetBC := 0, resetDE := 0, resetHL := 0 }

/-- A two-bank cartridge, the code at PC, the bytes given at their addresses. -/
def machine (cpu : Cpu) (code : List Byte) (ram : List (Word × Byte)) : State :=
  ram.foldl (fun s p => s.placeByte p.1 p.2)
    (({ State.reset with cpu := cpu, cart := some Cartridge.blank } : State).placeBytes cpu.pc code)

/-- The same with interrupt dispatch. -/
def dispatching (s : State) : State := { s with params := { s.params with irqDispatch := true } }

/-- F with the flags of a byte. -/
def flagsOf (v : Byte) : Flags := { z := v.getLsbD 7, n := v.getLsbD 6, h := v.getLsbD 5, cy := v.getLsbD 4 }

/-- One step ends in a next state of which the test holds. -/
def stepGives (s : State) (test : State → Bool) : Bool :=
  match step s with
  | .next t => test t
  | .fault _ => false
  | .refused _ => false

/-- V40 `LD H,(HL)`: the address is formed from the old HL. -/
theorem test_step_ld_h_hl : stepGives (machine { zeroCpu with h := 0xC0, l := 0x10 } [0x66] [(0xC010, 0xD0)])
    (fun t => t.hl == 0xD010 && t.cpu.pc == 0x0101 && t.cycles == 8) = true := by decide
/-- V40 `LD (HL),B` into ROM: dropped. -/
theorem test_step_ld_rom : stepGives (machine { zeroCpu with h := 0x20, b := 0x01 } [0x70] [(0x2000, 0x00)])
    (fun t => t.readByte 0x2000 == 0x00 && t.mmu.rom1Index == 0 && t.cycles == 8) = true := by decide
/-- V40 `LD A,(HL)` in the unassigned range. -/
theorem test_step_ld_unassigned : stepGives (machine { zeroCpu with h := 0xFE, l := 0xA0 } [0x7E] [])
    (fun t => t.cpu.a == 0xFF) = true := by decide
/-- V41 `ADD A,B`, the vector of the source (E3). -/
theorem test_step_add : stepGives (machine { zeroCpu with a := 0x3A, b := 0xC6 } [0x80] [])
    (fun t => t.cpu.a == 0x00 && t.f == 0xB0 && t.cycles == 4) = true := by decide
/-- V41 `ADC A,B`: the carry alone causes H and Cy. -/
theorem test_step_adc : stepGives (machine { zeroCpu with a := 0xFF, flags := flagsOf 0x10 } [0x88] [])
    (fun t => t.cpu.a == 0x00 && t.f == 0xB0) = true := by decide
/-- V41 `SUB (HL)`. -/
theorem test_step_sub : stepGives (machine { zeroCpu with h := 0xC0 } [0x96] [(0xC000, 0x01)])
    (fun t => t.cpu.a == 0xFF && t.f == 0x70 && t.cycles == 8) = true := by decide
/-- V41 `SBC A,B`: the carry alone causes H and Cy. -/
theorem test_step_sbc : stepGives (machine { zeroCpu with flags := flagsOf 0x10 } [0x98] [])
    (fun t => t.cpu.a == 0xFF && t.f == 0x70) = true := by decide
/-- V41 `AND B`: N is LOGIC_N. -/
theorem test_step_and : stepGives (machine { zeroCpu with a := 0xF0, b := 0x0F, flags := flagsOf 0x10 } [0xA0] [])
    (fun t => t.cpu.a == 0x00 && t.f == 0xE0) = true := by decide
/-- V41 `XOR n`. -/
theorem test_step_xor : stepGives (machine { zeroCpu with a := 0xFF } [0xEE, 0x0F] [])
    (fun t => t.cpu.a == 0xF0 && t.f == 0x40 && t.cpu.pc == 0x0102) = true := by decide
/-- V41 `OR (HL)`. -/
theorem test_step_or : stepGives (machine { zeroCpu with a := 0x5A, h := 0xC0 } [0xB6] [(0xC000, 0x0F)])
    (fun t => t.cpu.a == 0x5F && t.f == 0x40) = true := by decide
/-- V41 `CP (HL)`: A below the operand. -/
theorem test_step_cp : stepGives (machine { zeroCpu with a := 0x3C, h := 0xC0 } [0xBE] [(0xC000, 0x40)])
    (fun t => t.cpu.a == 0x3C && t.f == 0x50) = true := by decide
/-- V42 `RLC (HL)`. -/
theorem test_step_rlc : stepGives (machine { zeroCpu with h := 0xC0 } [0xCB, 0x06] [(0xC000, 0x80)])
    (fun t => t.readByte 0xC000 == 0x01 && t.f == 0x10 && t.cycles == 16) = true := by decide
/-- V42 `RRC C`. -/
theorem test_step_rrc : stepGives (machine { zeroCpu with c := 0x01 } [0xCB, 0x09] [])
    (fun t => t.cpu.c == 0x80 && t.f == 0x10 && t.cycles == 8) = true := by decide
/-- V42 `RL D`. -/
theorem test_step_rl : stepGives (machine { zeroCpu with d := 0x11, flags := flagsOf 0x10 } [0xCB, 0x12] [])
    (fun t => t.cpu.d == 0x23 && t.f == 0x00) = true := by decide
/-- V42 `RR E`. -/
theorem test_step_rr : stepGives (machine { zeroCpu with e := 0x8A, flags := flagsOf 0x10 } [0xCB, 0x1B] [])
    (fun t => t.cpu.e == 0xC5 && t.f == 0x00) = true := by decide
/-- V42 `SLA H`. -/
theorem test_step_sla : stepGives (machine { zeroCpu with h := 0x80 } [0xCB, 0x24] [])
    (fun t => t.cpu.h == 0x00 && t.f == 0x90) = true := by decide
/-- V42 `SRA B`: bit 7 stays. -/
theorem test_step_sra : stepGives (machine { zeroCpu with b := 0x81 } [0xCB, 0x28] [])
    (fun t => t.cpu.b == 0xC0 && t.f == 0x10) = true := by decide
/-- V42 `SWAP A`: Cy is cleared. -/
theorem test_step_swap : stepGives (machine { zeroCpu with a := 0xF1, flags := flagsOf 0x10 } [0xCB, 0x37] [])
    (fun t => t.cpu.a == 0x1F && t.f == 0x00) = true := by decide
/-- V42 `SRL C`. -/
theorem test_step_srl : stepGives (machine { zeroCpu with c := 0xFF } [0xCB, 0x39] [])
    (fun t => t.cpu.c == 0x7F && t.f == 0x10) = true := by decide
/-- V42 `BIT 7,A` with Cy set (E8). -/
theorem test_step_bit : stepGives (machine { zeroCpu with a := 0x80, flags := flagsOf 0xD0 } [0xCB, 0x7F] [])
    (fun t => t.cpu.a == 0x80 && t.f == 0x30) = true := by decide
/-- R209 `RES 7,B`, the example of the rule. -/
theorem test_step_res : stepGives (machine { zeroCpu with b := 0xFF, flags := flagsOf 0xF0 } [0xCB, 0xB8] [])
    (fun t => t.cpu.b == 0x7F && t.f == 0xF0) = true := by decide
/-- P4 `SET 7,A`. -/
theorem test_step_set : stepGives (machine { zeroCpu with a := 0x5A } [0xCB, 0xFF] [])
    (fun t => t.cpu.a == 0xDA) = true := by decide
/-- E7 `LD (HL),n`: 12 cycles. -/
theorem test_step_ld_hl_n : stepGives (machine { zeroCpu with h := 0xC0 } [0x36, 0x42] [])
    (fun t => t.readByte 0xC000 == 0x42 && t.cycles == 12) = true := by decide
/-- E4 with `LD (nn),A`: echo RAM. -/
theorem test_step_echo : stepGives (machine { zeroCpu with a := 0xAB } [0xEA, 0x00, 0xE0] [])
    (fun t => t.readByte 0xC000 == 0xAB && t.cycles == 16) = true := by decide
/-- P2 `LD A,(HL+)`. -/
theorem test_step_ld_inc : stepGives (machine { zeroCpu with h := 0x01, l := 0x20 } [0x2A] [(0x0120, 0xDE)])
    (fun t => t.cpu.a == 0xDE && t.hl == 0x0121 && t.cycles == 8) = true := by decide
/-- P3 `DAA`. -/
theorem test_step_daa : stepGives (machine { zeroCpu with a := 0x7D } [0x27] [])
    (fun t => t.cpu.a == 0x83 && t.f == 0x00) = true := by decide
/-- P1 `JR NZ,-4` taken. -/
theorem test_step_jr : stepGives (machine { zeroCpu with pc := 0x0106 } [0x20, 0xFC] [])
    (fun t => t.cpu.pc == 0x0104 && t.cycles == 8) = true := by decide
/-- P3 `CALL 0x0110`. -/
theorem test_step_call : stepGives (machine { zeroCpu with pc := 0x0107, sp := 0xD000 } [0xCD, 0x10, 0x01] [])
    (fun t => t.cpu.pc == 0x0110 && t.cpu.sp == 0xCFFE && t.readByte 0xCFFE == 0x0A && t.readByte 0xCFFF == 0x01 &&
      t.cycles == 20) = true := by decide
/-- P3 `RET`. -/
theorem test_step_ret : stepGives (machine { zeroCpu with pc := 0x0114, sp := 0xCFFE } [0xC9]
      [(0xCFFE, 0x0A), (0xCFFF, 0x01)])
    (fun t => t.cpu.pc == 0x010A && t.cpu.sp == 0xD000 && t.cycles == 12) = true := by decide
/-- P3 `PUSH BC`. -/
theorem test_step_push : stepGives (machine { zeroCpu with b := 0x45, sp := 0xCFFE } [0xC5] [])
    (fun t => t.readByte 0xCFFC == 0x00 && t.readByte 0xCFFD == 0x45 && t.cpu.sp == 0xCFFC && t.cycles == 12) = true := by
  decide
/-- P1 `DEC B` to zero. -/
theorem test_step_dec : stepGives (machine { zeroCpu with b := 0x01 } [0x05] [])
    (fun t => t.cpu.b == 0x00 && t.f == 0xC0) = true := by decide
/-- P4 `EI`: `ime` stays, the toggle is to be applied by the next call. -/
theorem test_step_ei : stepGives (machine zeroCpu [0xFB] [])
    (fun t => t.cpu.ime == false && t.cpu.imeSched == .aged true && t.cycles == 4) = true := by decide
/-- P4 `JP` after EI: `ime` becomes true. -/
theorem test_step_after_ei : stepGives (machine { zeroCpu with imeSched := .aged true } [0xC3, 0x30, 0x01] [])
    (fun t => t.cpu.pc == 0x0130 && t.cpu.ime == true && t.cpu.imeSched == .none) = true := by decide
/-- P4, the unknown opcode 0xD3. -/
theorem test_step_unknown : stepGives (machine zeroCpu [0xD3] [])
    (fun t => t.cpu.pc == 0x0101 && t.f == 0x00 && t.cycles == 4) = true := by decide
/-- P5, call 10: a halted machine enters the interrupt handler. -/
theorem test_step_interrupt : stepGives (dispatching (machine
      { zeroCpu with pc := 0x010C, sp := 0xD000, halted := true, ime := true } [] [(0xFFFF, 0x01), (0xFF0F, 0x01)]))
    (fun t => t.cpu.pc == 0x0040 && t.cpu.sp == 0xCFFE && t.cpu.ime == false && t.cpu.halted == false &&
      t.readByte 0xFF0F == 0x00 && t.readByte 0xCFFE == 0x0C && t.readByte 0xCFFF == 0x01 && t.cycles == 20) = true := by
  decide
/-- P5, call 12: `RETI` sets `ime` at once. -/
theorem test_step_reti : stepGives (machine { zeroCpu with pc := 0x0041, sp := 0xCFFE } [0xD9]
      [(0xCFFE, 0x0C), (0xCFFF, 0x01)])
    (fun t => t.cpu.pc == 0x010C && t.cpu.ime == true && t.cycles == 12) = true := by decide
/-- P5, call 8: a halted call. -/
theorem test_step_halted : stepGives (machine { zeroCpu with pc := 0x010C, halted := true } [] [])
    (fun t => t.cpu.pc == 0x010C && t.cycles == 4) = true := by decide
/-- The interface stores an instruction where the next step fetches it. -/
theorem test_with_fetch_word : stepGives (State.reset.withFetchWord 8 0x04)
    (fun t => t.cpu.b == 0x01 && t.cpu.pc == 0x0101) = true := by decide

theorem stepGives_next {s : State} {test : State → Bool} (h : stepGives s test = true) : ∃ t, step s = .next t := by
  unfold stepGives at h
  split at h
  · exact ⟨_, by assumption⟩
  · cases h
  · cases h

/-! ### The loader (95_test_vectors.md, L vectors) -/

/-- An image of the given size whose header bytes 0x134 to 0x14C are zero but for the three codes; byte 0x14D is the last
argument. -/
def image (mbc rom ram sum : Byte) (more : Nat) : List Byte :=
  List.replicate 0x147 0 ++ [mbc, rom, ram, 0, 0, 0, sum, 0, 0] ++ List.replicate more 0

/-- The record the loader should give for such an image. -/
def record (mbc : Byte) (romBanks ramBanks : Nat) (persistent : Bool) : Cartridge :=
  { mbc := mbc, romBanks := romBanks, ramBanks := ramBanks, persistent := persistent, title := Vector.replicate 16 0 }

set_option maxRecDepth 4000 in
/-- L1: an all-zero header has the checksum 0xE7 (E1). -/
theorem test_loader_accepts : initCartridge (image 0 0 0 0xE7 0) = .ok (record 0 2 0 false) := by rfl
set_option maxRecDepth 4000 in
/-- Codes 0x03, 0x00, 0x03: a battery and four RAM banks (E6, E11); the sum is 0xE7 - 6. -/
theorem test_loader_battery : initCartridge (image 0x03 0 0x03 0xE1 0) = .ok (record 0x03 2 4 true) := by rfl
set_option maxRecDepth 4000 in
/-- A wrong checksum. -/
theorem test_loader_checksum : initCartridge (image 0 0 0 0xE6 0) = .error .badChecksum := by rfl
set_option maxRecDepth 4000 in
/-- ROM code 0x09 is fatal (E2). -/
theorem test_loader_size : initCartridge (image 0 0x09 0 0xDE 0) = .error .invalidSizeCode := by rfl
set_option maxRecDepth 4000 in
/-- 0x14F bytes are no header. -/
theorem test_loader_short : initCartridge ((image 0 0 0 0xE7 0).take 0x14F) = .error .unreadableHeader := by rfl

/-! ### Witnesses: for each statement with hypotheses, a case that meets them, at the ends of each range -/

/-- A machine about to run one instruction. -/
def running (code : List Byte) : State := machine zeroCpu code []

/-- The flag mode the spec defines for `ADD A,r` only. -/
def postResultMode : State := { State.reset with params := { flagSource := .postResult } }

theorem witness_DecodeUndoesEncode : (Instr.setR 7 .a).wellFormed = true ∧ Instr.setR 7 .a ≠ .prefixCb ∧
    (Instr.bitHl 0).wellFormed = true ∧ Instr.bitHl 0 ≠ .prefixCb ∧
    (Instr.rst 0x0038).wellFormed = true ∧ Instr.rst 0x0038 ≠ .prefixCb := by decide
theorem witness_EncodeUndoesDecode : decode [0x3E#8, 0x42#8, 0x76#8] = .ok (.ldRN .a 0x42, [0x76]) := rfl
theorem witness_EveryOpcodeDecodes : ([] : List Byte).length + 1 = instrLength 0x00 ∧
    [0x42#8].length + 1 = instrLength 0x3E ∧ [0x00#8, 0xC0#8].length + 1 = instrLength 0xFA := by decide
theorem witness_AddAndSubtract : State.reset.params.flagSource = .operands := rfl
theorem witness_CarryChainCompareAndImmediates : State.reset.params.flagSource = .operands := rfl
theorem witness_PostResultFlagMode : postResultMode.params.flagSource = .postResult := rfl
theorem witness_BitTests : 0 < 8 ∧ 7 < 8 := by decide
theorem witness_BitResetAndSet : 0 < 8 ∧ 7 < 8 := by decide
theorem witness_PrefixByteRunsTheSecondByte :
    decode [0xCB, (machine { zeroCpu with pc := 0xC000 } [0x37] []).readByte 0xC000] = .ok (.swapR .a, []) := by
  have h : (machine { zeroCpu with pc := 0xC000 } [0x37] []).readByte 0xC000 = 0x37 := by decide
  rw [h]; rfl
theorem witness_PopUndoesPush : (State.reset.writeTarget (State.reset.cpu.sp - 1)).isSome = true ∧
    (State.reset.writeTarget (State.reset.cpu.sp - 2)).isSome = true := by decide
theorem witness_AddThenAdjustIsDecimalAddition : 99 < 100 ∧ 0 < 100 ∧ State.reset.params.flagSource = .operands ∧
    State.cpu { State.reset with cpu := { zeroCpu with a := 0x99 } } = { zeroCpu with a := decimalByte 99 } := by decide
theorem witness_SubtractThenAdjustIsDecimalSubtraction : 0 < 100 ∧ 99 < 100 ∧
    State.reset.params.flagSource = .operands ∧ zeroCpu.a = decimalByte 0 := by decide
theorem witness_CallsAndReturns : 0 < 8 ∧ 7 < 8 := by decide
theorem witness_ReturnUndoesCall : (State.reset.writeTarget (State.reset.cpu.sp - 1)).isSome = true ∧
    (State.reset.writeTarget (State.reset.cpu.sp - 2)).isSome = true ∧
    Instr.callNn 0x0150 ∈ [Instr.callNn 0x0150, .rst 0x0038] ∧
    Instr.rst 0x0038 ∈ [Instr.callNn 0x0150, .rst 0x0038] := by decide
theorem witness_ReadReturnsTheLastWrite : (State.reset.writeTarget 0xC000).isSome = true ∧
    (State.reset.writeTarget 0x7FFF).isSome = false ∧ (State.reset.writeTarget 0xFEA0).isSome = false := by decide
theorem witness_EchoIsARedirection : 0xE000 ≤ (0xE000#16).toNat ∧ (0xE000#16).toNat ≤ 0xFDFF ∧
    0xE000 ≤ (0xFDFF#16).toNat ∧ (0xFDFF#16).toNat ≤ 0xFDFF := by decide
theorem witness_RomWritesChangeNothing : (0x0000#16).toNat ≤ 0x7FFF ∧ (0x7FFF#16).toNat ≤ 0x7FFF := by decide

/-- Both locks set. -/
def locked (s : State) : State := { s with mmu := { s.mmu with vramLock := true, oamLock := true } }

/-- Each clause at both ends of its range, and the addresses next to them under the other clause. -/
theorem witness_LockGateDeniesItsRegion :
    (∀ a ∈ [0x8000#16, 0x9FFF#16], 0x8000 ≤ a.toNat ∧ a.toNat ≤ 0x9FFF ∧ (locked State.reset).mmu.vramLock = true) ∧
    (∀ a ∈ [0xFE00#16, 0xFE9F#16], 0xFE00 ≤ a.toNat ∧ a.toNat ≤ 0xFE9F ∧ (locked State.reset).mmu.oamLock = true) ∧
    (∀ a ∈ [0x7FFF#16, 0xA000#16, 0xFDFF#16, 0xFEA0#16],
      ¬ ((0x8000 ≤ a.toNat ∧ a.toNat ≤ 0x9FFF ∧ (locked State.reset).mmu.vramLock = true) ∨
        (0xFE00 ≤ a.toNat ∧ a.toNat ≤ 0xFE9F ∧ (locked State.reset).mmu.oamLock = true))) := by
  simp [locked]
theorem witness_InstructionsLeaveRomAndController : exec .nop State.reset = .next State.reset := rfl
theorem witness_StoresOnlyAtTheirAddresses : Instr.nop ≠ .prefixCb ∧ exec .nop State.reset = .next State.reset ∧
    Instr.storeAddresses .nop State.reset = [] ∧ Instr.ldNnA 0xC001 ≠ .prefixCb ∧
    exec (.ldNnA 0xC001) State.reset = .next (State.reset.memWrite 0xC001 0x01) ∧
    (∀ a ∈ Instr.storeAddresses (.ldNnA 0xC001) State.reset, State.reset.writeTarget a ≠ some ⟨.wram0, 0⟩) ∧
    (∀ a ∈ Instr.storeAddresses (.ldNnA 0xC001) State.reset, redirect 0xC000 ≠ redirect a) := by
  refine ⟨by decide, rfl, rfl, by decide, rfl, fun a ha => ?_, fun a ha => ?_⟩ <;>
    · rw [List.mem_singleton.1 ha]; decide
theorem witness_RegistersOnlyByTheirInstructions : Instr.nop ≠ .prefixCb ∧
    exec .nop State.reset = .next State.reset ∧ Instr.writesReg8 .nop .a = false ∧ Instr.writesSp .nop = false ∧
    Instr.writesPc .nop = false ∧ (∀ n, Instr.nop ≠ .halt ∧ Instr.nop ≠ .stop n) ∧ Instr.nop ≠ .reti ∧
    (Instr.nop ≠ .di ∧ Instr.nop ≠ .ei) := by
  refine ⟨by decide, rfl, rfl, rfl, rfl, fun n => ⟨Instr.noConfusion, Instr.noConfusion⟩, by decide, by decide⟩
theorem witness_FlagsOnlyByTheirInstructions : Instr.nop ≠ .prefixCb ∧ exec .nop State.reset = .next State.reset ∧
    Instr.setsZ .nop = false ∧ Instr.setsN .nop = false ∧ Instr.setsH .nop = false ∧ Instr.setsCy .nop = false :=
  ⟨by decide, rfl, rfl, rfl, rfl, rfl⟩
theorem witness_CycleLaw : Instr.nop ≠ .prefixCb ∧
    State.cycles { State.reset with cycles := 4 } = 4 * (encode .nop).length ∧
    finishCall .nop { State.reset with cycles := 4 } = .next { State.reset with cycles := 4 } := ⟨by decide, rfl, rfl⟩
theorem witness_StepRunsTheDecodedInstruction : running [0x04] = (running [0x04]).hostTurn ∧
    (running [0x04]).cart.isSome = true ∧ (running [0x04]).cpu.halted = false ∧ ¬ (running [0x04]).requestPending ∧
    decode (running [0x04]).nextBytes = .ok (.incR .b, []) ∧ State.reset.host = [] ∧
    State.host { State.reset with host := [[.setVRAMLock true, .setROM1Index 1], [.reset]] } =
      [.setVRAMLock true, .setROM1Index 1] :: [[.reset]] := by
  have h : (running [0x04]).nextBytes = [0x04] := by decide
  refine ⟨by decide, by decide, by decide, fun h => Bool.noConfusion h.1, by rw [h]; rfl, rfl, rfl⟩

/-- Halted, with the lowest request `i` pending and enabled. -/
def requesting (ime : Bool) (bits : Byte) : State :=
  dispatching (machine { zeroCpu with halted := true, ime := ime } [0x04] [(0xFFFF, bits), (0xFF0F, bits)])

theorem witness_PendingRequestEndsHalt : requesting false 0x10 = (requesting false 0x10).hostTurn ∧
    (requesting false 0x10).cart.isSome = true ∧ (requesting false 0x10).requestPending ∧
    (requesting false 0x10).cpu.ime = false ∧ decode (requesting false 0x10).nextBytes = .ok (.incR .b, []) := by
  have h : (requesting false 0x10).nextBytes = [0x04] := by decide
  refine ⟨by decide, by decide, ⟨by decide, 4, by decide, by decide⟩,
    by decide, by rw [h]; rfl⟩
theorem witness_HaltedCallChangesNothing :
    machine { zeroCpu with halted := true } [] [] = (machine { zeroCpu with halted := true } [] []).hostTurn ∧
    (machine { zeroCpu with halted := true } [] []).cart.isSome = true ∧
    (machine { zeroCpu with halted := true } [] []).cpu.halted = true ∧
    ¬ (machine { zeroCpu with halted := true } [] []).requestPending :=
  ⟨rfl, rfl, rfl, fun h => Bool.noConfusion h.1⟩
/-- The first and the last source. -/
theorem witness_InterruptEntry : ∀ p ∈ [((0 : Nat), (0x01 : Byte)), (4, 0x10)],
    requesting true p.2 = (requesting true p.2).hostTurn ∧ (requesting true p.2).cart.isSome = true ∧
    (requesting true p.2).params.irqDispatch = true ∧ (requesting true p.2).cpu.ime = true ∧ p.1 < 5 ∧
    (∀ j, j ≤ p.1 → (((requesting true p.2).readCell ⟨.ie, 0⟩).getLsbD j = true ∧
      ((requesting true p.2).readCell ⟨.io, 0x0F⟩).getLsbD j = true ↔ j = p.1)) := by
  decide
theorem witness_EnableToggleIsDelayedByOneInstruction : Instr.nop ≠ .di ∧ Instr.nop ≠ .ei ∧
    State.cpu { State.reset with cpu := { zeroCpu with imeSched := .aged true } } =
      { zeroCpu with imeSched := .aged true } ∧
    finishCall .nop { State.reset with cpu := { zeroCpu with imeSched := .aged true } } =
      .next { State.reset with cpu := { zeroCpu with ime := true } } ∧
    State.reset.cpu.imeSched = .none ∧ finishCall .nop State.reset = .next State.reset := by
  refine ⟨by decide, by decide, rfl, rfl, rfl, rfl⟩

/-- PC at an address, both locks set. -/
def lockedAt (pc : Word) : State := locked (machine { zeroCpu with pc := pc } [] [])

theorem witness_FetchFromDeniedPlaceIsRst38 :
    (∀ pc ∈ [0xFEA0#16, 0xFEFF#16, 0x8000#16, 0x9FFF#16, 0xFE00#16, 0xFE9F#16],
      (lockedAt pc).cart.isSome = true ∧ (lockedAt pc).host = [] ∧ (lockedAt pc).cpu.halted = false ∧
      (lockedAt pc).params.irqDispatch = false ∧ (lockedAt pc).cpu.imeSched = .none ∧
      ((0xFEA0 ≤ (lockedAt pc).cpu.pc.toNat ∧ (lockedAt pc).cpu.pc.toNat ≤ 0xFEFF) ∨
        (0x8000 ≤ (lockedAt pc).cpu.pc.toNat ∧ (lockedAt pc).cpu.pc.toNat ≤ 0x9FFF ∧ (lockedAt pc).mmu.vramLock = true) ∨
        (0xFE00 ≤ (lockedAt pc).cpu.pc.toNat ∧ (lockedAt pc).cpu.pc.toNat ≤ 0xFE9F ∧
          (lockedAt pc).mmu.oamLock = true))) ∧
    ∀ pc : Word, ¬ (lockedAt pc).requestPending := by
  have hl : ∀ pc, (lockedAt pc).cpu.pc = pc ∧ (lockedAt pc).cart.isSome = true ∧ (lockedAt pc).host = [] ∧
      (lockedAt pc).cpu.halted = false ∧ (lockedAt pc).params.irqDispatch = false ∧
      (lockedAt pc).cpu.imeSched = .none ∧ (lockedAt pc).mmu.vramLock = true ∧ (lockedAt pc).mmu.oamLock = true :=
    fun pc => ⟨rfl, rfl, rfl, rfl, rfl, rfl, rfl, rfl⟩
  refine ⟨?_, fun pc h => Bool.noConfusion h.1⟩
  simp [hl]

/-- PC at an address, every bank index invalid: the machine has two ROM banks and no RAM bank. -/
def unbankedAt (pc : Word) : State :=
  let s := machine { zeroCpu with pc := pc } [] []
  { s with mmu := { s.mmu with rom1Index := 1, vramIndex := 2, eramIndex := 0, wram1Index := 7 } }

/-- Each clause of an invalid bank at both ends of its range. -/
theorem witness_FetchThroughInvalidBankIsRst38 :
    (∀ pc : Word, (unbankedAt pc).cart.isSome = true ∧ (unbankedAt pc).host = [] ∧ (unbankedAt pc).cpu.halted = false ∧
      (unbankedAt pc).cpu.imeSched = .none ∧ (unbankedAt pc).cpu.pc = pc ∧ ¬ (unbankedAt pc).requestPending ∧
      ¬ (unbankedAt pc).mmu.rom1Index < (unbankedAt pc).romBanks - 1 ∧ ¬ (unbankedAt pc).mmu.vramIndex < 2 ∧
      ¬ (unbankedAt pc).mmu.eramIndex < (unbankedAt pc).ramBanks ∧ ¬ (unbankedAt pc).mmu.wram1Index < 7) ∧
    (∀ pc ∈ [0x4000#16, 0x7FFF#16], 0x4000 ≤ pc.toNat ∧ pc.toNat ≤ 0x7FFF) ∧
    (∀ pc ∈ [0x8000#16, 0x9FFF#16], 0x8000 ≤ pc.toNat ∧ pc.toNat ≤ 0x9FFF) ∧
    (∀ pc ∈ [0xA000#16, 0xBFFF#16], 0xA000 ≤ pc.toNat ∧ pc.toNat ≤ 0xBFFF) ∧
    (∀ pc ∈ [0xD000#16, 0xDFFF#16], 0xD000 ≤ pc.toNat ∧ pc.toNat ≤ 0xDFFF) ∧
    (∀ pc ∈ [0xF000#16, 0xFDFF#16], 0xF000 ≤ pc.toNat ∧ pc.toNat ≤ 0xFDFF) := by
  have hl : ∀ pc, (unbankedAt pc).romBanks = 2 ∧ (unbankedAt pc).ramBanks = 0 ∧ (unbankedAt pc).mmu.rom1Index = 1 ∧
      (unbankedAt pc).mmu.vramIndex = 2 ∧ (unbankedAt pc).mmu.eramIndex = 0 ∧ (unbankedAt pc).mmu.wram1Index = 7 :=
    fun pc => ⟨rfl, rfl, rfl, rfl, rfl, rfl⟩
  refine ⟨fun pc => ⟨rfl, rfl, rfl, rfl, rfl, fun h => Bool.noConfusion h.1, ?_⟩, ?_⟩
  · simp [hl]
  · simp

/-- R359: the echo of WRAM1 through an invalid index. -/
theorem test_step_invalid_bank : stepGives (unbankedAt 0xF000)
    (fun t => t.cpu.pc == 0x0038 && t.cycles == 12) = true := by decide
theorem witness_HaltedMachineStaysHalted :
    (machine { zeroCpu with halted := true } [] []).cart.isSome = true ∧
    (machine { zeroCpu with halted := true } [] []).host = [] ∧
    (machine { zeroCpu with halted := true } [] []).params.irqDispatch = false ∧
    (machine { zeroCpu with halted := true } [] []).cpu.halted = true := ⟨rfl, rfl, rfl, rfl⟩

set_option maxRecDepth 4000 in
theorem witness_SizeTables : initCartridge (image 0 0 0 0xE7 0) = .ok (record 0 2 0 false) ∧
    romBanksOf ((image 0 0x09 0 0xDE 0).getD 0x148 0) = none ∧
    ramBanksOf ((image 0 0 0x01 0xE6 0).getD 0x149 0) = none := ⟨test_loader_accepts, by decide, by decide⟩
/-- The two sides of the checksum test (20_memory.md R102), as the statement writes it. -/
def checksumSides (image : List Byte) : Nat × Nat :=
  (((List.range 25).map (fun k => 255 - (image.getD (0x134 + k) 0).toNat)).sum % 256, (image.getD 0x14D 0).toNat)

set_option maxRecDepth 4000 in
/-- Each clause, the ones about a whole header with exactly 0x150 bytes. -/
theorem witness_LoaderAcceptsExactlyTheGoodHeaders : ([] : List Byte).length < 0x150 ∧
    (List.replicate 0x14F (0 : Byte)).length < 0x150 ∧
    (0x150 ≤ (image 0 0 0 0xE6 0).length ∧
      (checksumSides (image 0 0 0 0xE6 0)).1 ≠ (checksumSides (image 0 0 0 0xE6 0)).2) ∧
    (0x150 ≤ (image 0 0x09 0 0xDE 0).length ∧
      (checksumSides (image 0 0x09 0 0xDE 0)).1 = (checksumSides (image 0 0x09 0 0xDE 0)).2 ∧
      romBanksOf ((image 0 0x09 0 0xDE 0).getD 0x148 0) = none) ∧
    (0x150 ≤ (image 0 0 0x01 0xE6 0).length ∧
      (checksumSides (image 0 0 0x01 0xE6 0)).1 = (checksumSides (image 0 0 0x01 0xE6 0)).2 ∧
      ramBanksOf ((image 0 0 0x01 0xE6 0).getD 0x149 0) = none) :=
  ⟨by decide, by rw [List.length_replicate]; decide, by decide, by decide, by decide⟩

/-- What follows the header does not change what the loader reads. -/
theorem initCartridge_append (xs ys : List Byte) (h : 0x150 ≤ xs.length) :
    initCartridge (xs ++ ys) = initCartridge xs := by
  have hb : ∀ i, i < 0x150 → imageByte (xs ++ ys) i = imageByte xs i := by
    intro i hi
    simp only [imageByte, List.getD, List.getElem?_append_left (Nat.lt_of_lt_of_le hi h)]
  have hk : headerChecksum (xs ++ ys) = headerChecksum xs := by
    unfold headerChecksum
    rw [List.drop_append_of_le_length (by omega), List.take_append_of_le_length (by rw [List.length_drop]; omega)]
  have ht : Vector.ofFn (n := 16) (fun i => imageByte (xs ++ ys) (0x134 + i.val)) =
      Vector.ofFn (fun i => imageByte xs (0x134 + i.val)) := by
    congr 1; funext i; exact hb _ (by omega)
  have hl : ¬ (xs ++ ys).length < 0x150 := by rw [List.length_append]; omega
  have hl' : ¬ xs.length < 0x150 := by omega
  unfold initCartridge
  rw [if_neg hl, if_neg hl', hk, ht, hb 0x14D (by omega), hb 0x148 (by omega),
    hb 0x149 (by omega), hb 0x147 (by omega)]

/-- A whole two-bank image. -/
def fullImage (mbc ram sum : Byte) : List Byte := image mbc 0 ram sum 0 ++ List.replicate 0x7EB0 0

theorem image_length (mbc rom ram sum : Byte) (more : Nat) : (image mbc rom ram sum more).length = 0x150 + more := by
  simp only [image, List.length_append, List.length_replicate, List.length_cons, List.length_nil]

theorem fullImage_length (mbc ram sum : Byte) : (fullImage mbc ram sum).length = 0x8000 := by
  rw [fullImage, List.length_append, image_length, List.length_replicate]

theorem initCartridge_fullImage (mbc ram sum : Byte) :
    initCartridge (fullImage mbc ram sum) = initCartridge (image mbc 0 ram sum 0) :=
  initCartridge_append _ _ (by rw [image_length])

theorem witness_PowerOnFillsRom : initCartridge (fullImage 0 0 0xE7) = .ok (record 0 2 0 false) ∧
    (record 0 2 0 false).romBanks * 0x4000 ≤ (fullImage 0 0 0xE7).length :=
  ⟨(initCartridge_fullImage _ _ _).trans test_loader_accepts, by rw [fullImage_length]; decide⟩
theorem witness_NoCallAfterALoadFatalError : initCartridge (image 0 0x09 0 0xDE 0) = .error .invalidSizeCode ∧
    initCartridge (image 0 0 0 0xE7 0) = .ok (record 0 2 0 false) ∧
    (image 0 0 0 0xE7 0).length < (record 0 2 0 false).romBanks * 0x4000 ∧ State.reset.cart = none ∧
    State.reset.loadError = none := ⟨test_loader_size, test_loader_accepts, by rw [image_length]; decide, rfl, rfl⟩
/-- A machine with the battery cartridge of E6 (number 0 in the host's count), 0x7F written to ERAM bank 0 offset 0. -/
def batteryMachine : State :=
  State.writeByte { State.reset with cart := some (record 0x03 2 4 true) } 0xA000 0x7F

/-- E6 (20_memory.md R75): after a power-off the same cartridge gives 0x7F back, also when another was in between, and
another one does not hold it. -/
theorem test_battery_survives_power_off :
    (batteryMachine.powerOff.insertCartridge 0 (record 0x03 2 4 true)).readByte 0xA000 = 0x7F ∧
    ((batteryMachine.powerOff.insertCartridge 1 (record 0x03 2 1 true)).powerOff.insertCartridge 0
      (record 0x03 2 1 true)).readByte 0xA000 = 0x7F ∧
    (batteryMachine.powerOff.insertCartridge 1 (record 0x03 2 4 true)).mmu.eram = {} := by decide
/-- Without a battery nothing is kept. -/
theorem test_volatile_is_lost : State.powerOff (State.writeByte
    { State.reset with cart := some (record 0x02 2 4 false) } 0xA000 0x7F) = State.reset := by decide

theorem witness_PersistentRamSurvives : initCartridge (fullImage 0x03 0x03 0xE1) = .ok (record 0x03 2 4 true) ∧
    (record 0x03 2 4 true).romBanks * 0x4000 ≤ (fullImage 0x03 0x03 0xE1).length ∧
    (record 0x03 2 4 true).persistent = true ∧ batteryMachine.cart = some (record 0x03 2 4 true) ∧
    batteryMachine.mmu.eram.wf = true ∧
    0 < (record 0x03 2 4 true).ramBanks * 0x2000 ∧ 0x7FFF < (record 0x03 2 4 true).ramBanks * 0x2000 ∧
    1 ≠ batteryMachine.slot ∧ initCartridge (fullImage 0 0 0xE7) = .ok (record 0 2 0 false) ∧
    (record 0 2 0 false).romBanks * 0x4000 ≤ (fullImage 0 0 0xE7).length ∧ (record 0 2 0 false).persistent = false ∧
    State.cart { State.reset with cart := some (record 0 2 0 false) } = some (record 0 2 0 false) :=
  ⟨(initCartridge_fullImage _ _ _).trans test_loader_battery, by rw [fullImage_length]; decide, rfl, rfl, by decide,
    by decide, by decide, by decide, (initCartridge_fullImage _ _ _).trans test_loader_accepts,
    by rw [fullImage_length]; decide, rfl, rfl⟩

/-- A machine that loops at 0xC000: `JR -2`. -/
def looping : State := machine { zeroCpu with pc := 0xC000 } [0x18, 0xFE] []

theorem witness_EveryStepKeepsTheInvariant : looping.Inv ∧ ∃ t, step looping = .next t := by
  refine ⟨⟨fun st => ?_, fun c h => ?_, by decide, fun k h => ?_⟩, stepGives_next (test := fun _ => true) (by decide)⟩
  · cases st <;> decide
  · have hc : looping.cart = some Cartridge.blank := by decide
    rw [hc] at h; cases h; exact ⟨by decide, by decide, by decide⟩
  · have hs : looping.shelf = [] := by decide
    rw [hs] at h; cases h
theorem witness_ReadyMachineNeverStops : looping.Ready := by
  have hh : looping.host = [] := by decide
  refine ⟨by decide, fun b hb => ?_, by decide⟩
  rw [hh] at hb; cases hb
theorem witness_LockedMemoryIsIsolated : (locked looping).host = [] ∧ (locked looping).mmu.vramLock = true ∧
    (locked looping).mmu.oamLock = true ∧ ∃ t, step (locked looping) = .next t :=
  ⟨by decide, by decide, by decide, stepGives_next (test := fun _ => true) (by decide)⟩

end Sys2Proof.Tests
end

section
/-! SUPPORT. The register views and register F, and the invariant at reset and along a call. -/

namespace Sys2Proof.Machine

/-! ### Register F and the pair views -/

/-- The bits of F are the four flags, its low nibble 0 (10_state.md R25). -/
theorem Flags.toByte_bits (f : Flags) : f.toByte.getLsbD 7 = f.z ∧ f.toByte.getLsbD 6 = f.n ∧
    f.toByte.getLsbD 5 = f.h ∧ f.toByte.getLsbD 4 = f.cy ∧ f.toByte.toNat % 16 = 0 := by
  obtain ⟨z, n, h, cy⟩ := f
  revert z n h cy
  decide

set_option maxRecDepth 4000 in
/-- A byte written to F reads back without its low nibble (10_state.md R24). -/
theorem Flags.toByte_ofByte : ∀ v : Byte, (Flags.ofByte v).toByte = v &&& 0xF0 := forall_byte (by decide)

/-- The low nibble of a word cleared in its low byte. -/
theorem high_append_low_and (w : Word) : (highByte w ++ (lowByte w &&& 0xF0) : Word) = w &&& 0xFFF0 := by
  have hm : (0xFFF0 : Word) = (0xFF : Byte) ++ (0xF0 : Byte) := rfl
  have hh : highByte w &&& 0xFF = highByte w := BitVec.and_allOnes
  rw [hm, ← hh, ← BitVec.and_append, high_append_low]

theorem State.setAf_af (s : State) (w : Word) : (s.setAf w).af = w &&& 0xFFF0 := by
  rw [← high_append_low_and, ← Flags.toByte_ofByte]
  rfl

/-- Settles O7: F by its bits, and AF read back after a write. -/
theorem flagRegisterIsAView : Obligations.FlagRegisterIsAView :=
  ⟨fun s => s.cpu.flags.toByte_bits, State.setAf_af⟩

/-- Settles O6: a write of a register or of a view is the record update by definition, with the bytes of the word by
`ofNat_high` and `ofNat_low`; a view read is `toNat_append`. -/
theorem registerFileAndPairViews : Obligations.RegisterFileAndPairViews := by
  intro s v w
  simp only [ofNat_high, ofNat_low]
  exact ⟨rfl, rfl, rfl, rfl, rfl, rfl, rfl, rfl, rfl, rfl, rfl, rfl, rfl, rfl,
    toNat_append _ _, toNat_append _ _, toNat_append _ _, toNat_append _ _, ⟨rfl, rfl, rfl⟩, rfl,
    s.setBc_bc w, s.setDe_de w, s.setHl_hl w, rfl, rfl, rfl, rfl, rfl, rfl, rfl, rfl, rfl, rfl, rfl, rfl, rfl, rfl⟩

/-! ### The invariant -/

theorem finishCall_inv {s t : State} (h : s.Inv) {i : Instr} (ht : finishCall i s = .next t) : t.Inv := by
  unfold finishCall at ht
  split at ht
  · next u hu => cases ht; exact (h.reaches (exec_reaches hu)).endOfCall
  · cases ht
  · cases ht

theorem runInstruction_inv {s t : State} (h : s.Inv) (ht : runInstruction s = .next t) : t.Inv := by
  unfold runInstruction at ht
  rw [State.fetchBytes_eq] at ht
  dsimp only at ht
  split at ht
  · exact finishCall_inv (h.cpu _ _) ht
  · cases ht

/-- A call that completes is one on a machine with a cartridge (20_memory.md R108). -/
theorem execute_next_cart {s t : State} (ht : execute s = .next t) : s.cart.isSome = true := by
  unfold execute at ht
  split at ht
  · next hc => rw [hc]; rfl
  · cases ht
  · cases ht

/-- The four ways a call goes (60_exceptions.md R329): each keeps the invariant. -/
theorem execute_inv {s t : State} (h : s.Inv) (ht : execute s = .next t) : t.Inv := by
  rw [execute_loaded s (execute_next_cart ht)] at ht
  split at ht
  · split at ht
    · obtain rfl := Host.Outcome.next.inj ht; exact (h.cpu _ _).interruptEntry _
    · exact runInstruction_inv (h.cpu _ _) ht
  · split at ht
    · obtain rfl := Host.Outcome.next.inj ht; exact h.cpu _ _
    · exact runInstruction_inv (h.cpu _ _) ht

/-- Settles O57: the host's turn keeps the invariant action by action, and so does the call after it. -/
theorem everyStepKeepsTheInvariant : Obligations.EveryStepKeepsTheInvariant :=
  fun _ _ h ht => execute_inv h.hostTurn ht

/-- Settles O56: every array and the shelf are empty, and there is no cartridge. -/
theorem resetMeetsTheInvariant : Obligations.ResetMeetsTheInvariant where
  storage st := by cases st <;> exact ⟨rfl, rfl⟩
  cart _ hc := by cases hc
  shelf := ⟨rfl, fun _ hk => by cases hk⟩

end Sys2Proof.Machine
end

section
/-! SUPPORT. What an instruction leaves of the CPU: one rule for each state operation, then one line for each meaning. -/

namespace Sys2Proof

open Machine

/-- From `s` to `t` no register, control state or flag changes but those that the tables of 10_state.md R20 to R29 give the
instruction. -/
structure Instr.Keeps (i : Instr) (s t : State) : Prop where
  reg8 : ∀ r : Reg8, i.writesReg8 r = false → t.reg8 r = s.reg8 r
  sp : i.writesSp = false → t.cpu.sp = s.cpu.sp
  pc : i.writesPc = false → t.cpu.pc = s.cpu.pc
  halted : (∀ n, i ≠ .halt ∧ i ≠ .stop n) → t.cpu.halted = s.cpu.halted
  ime : i ≠ .reti → t.cpu.ime = s.cpu.ime
  imeSched : i ≠ .di ∧ i ≠ .ei → t.cpu.imeSched = s.cpu.imeSched
  flagZ : i.setsZ = false → t.cpu.flags.z = s.cpu.flags.z
  flagN : i.setsN = false → t.cpu.flags.n = s.cpu.flags.n
  flagH : i.setsH = false → t.cpu.flags.h = s.cpu.flags.h
  flagCy : i.setsCy = false → t.cpu.flags.cy = s.cpu.flags.cy

/-- The four rows of 10_state.md R26 all list the instruction. -/
def Instr.setsAllFlags (i : Instr) : Bool := i.setsZ && i.setsN && i.setsH && i.setsCy

namespace Instr.Keeps

variable {i : Instr} {s t u : State}

theorem refl (i : Instr) (s : State) : i.Keeps s s :=
  ⟨fun _ _ => rfl, fun _ => rfl, fun _ => rfl, fun _ => rfl, fun _ => rfl, fun _ => rfl, fun _ => rfl, fun _ => rfl,
    fun _ => rfl, fun _ => rfl⟩

/-! ### One rule for each state operation -/

/-- The CPU is all that `Keeps` looks at. -/
theorem ofCpu (k : i.Keeps s t) (hu : u.cpu = t.cpu) : i.Keeps s u := by
  have hr : ∀ r, u.reg8 r = t.reg8 r := fun r => by cases r <;> simp only [State.reg8, hu]
  exact ⟨fun r h => (hr r).trans (k.reg8 r h), hu ▸ k.sp, hu ▸ k.pc, hu ▸ k.halted, hu ▸ k.ime, hu ▸ k.imeSched,
    hu ▸ k.flagZ, hu ▸ k.flagN, hu ▸ k.flagH, hu ▸ k.flagCy⟩

theorem tick (k : i.Keeps s t) : i.Keeps s t.tick := k.ofCpu t.tick_cpu

theorem memWrite (k : i.Keeps s t) {a : Word} {v : Byte} : i.Keeps s (t.memWrite a v) := k.ofCpu (t.memWrite_cpu a v)

theorem setReg8 (k : i.Keeps s t) {r : Reg8} {v : Byte} (hr : i.writesReg8 r = true) : i.Keeps s (t.setReg8 r v) where
  reg8 r' h := by
    have hne : r' ≠ r := fun he => by rw [he, hr] at h; cases h
    rw [State.setReg8_other t r r' v hne, k.reg8 r' h]
  sp := by simpa using k.sp
  pc := by simpa using k.pc
  halted := by simpa only [State.setReg8_halted] using k.halted
  ime := by simpa using k.ime
  imeSched := by simpa only [State.setReg8_imeSched] using k.imeSched
  flagZ := by simpa using k.flagZ
  flagN := by simpa using k.flagN
  flagH := by simpa using k.flagH
  flagCy := by simpa using k.flagCy

theorem setA (k : i.Keeps s t) {v : Byte} (h : i.writesReg8 .a = true) : i.Keeps s (t.setA v) :=
  k.setReg8 (r := .a) h

theorem setHl (k : i.Keeps s t) {v : Word} (h : i.writesReg8 .h = true) (l : i.writesReg8 .l = true) :
    i.Keeps s (t.setHl v) :=
  (k.setReg8 (r := .h) (v := highByte v) h).setReg8 (r := .l) (v := lowByte v) l

theorem setPair (k : i.Keeps s t) {q : Pair} {v : Word} (hq : ∀ r, q.hasHalf r = true → i.writesReg8 r = true) :
    i.Keeps s (t.setPair q v) := by
  cases q with
  | bc => exact (k.setReg8 (r := .b) (v := highByte v) (hq .b rfl)).setReg8 (r := .c) (v := lowByte v) (hq .c rfl)
  | de => exact (k.setReg8 (r := .d) (v := highByte v) (hq .d rfl)).setReg8 (r := .e) (v := lowByte v) (hq .e rfl)
  | hl => exact k.setHl (hq .h rfl) (hq .l rfl)

theorem setSp (k : i.Keeps s t) {v : Word} (h : i.writesSp = true) : i.Keeps s (t.setSp v) :=
  { k with reg8 := k.reg8, sp := fun h' => by rw [h] at h'; cases h' }

theorem setReg16 (k : i.Keeps s t) {rr : Reg16} {v : Word} (hr : ∀ r, rr.hasHalf r = true → i.writesReg8 r = true)
    (hs : rr = .sp → i.writesSp = true) : i.Keeps s (t.setReg16 rr v) := by
  cases rr with
  | bc => exact k.setPair (q := .bc) hr
  | de => exact k.setPair (q := .de) hr
  | hl => exact k.setPair (q := .hl) hr
  | sp => exact k.setSp (hs rfl)

theorem setPc (k : i.Keeps s t) {v : Word} (h : i.writesPc = true) : i.Keeps s (t.setPc v) :=
  { k with reg8 := k.reg8, pc := fun h' => by rw [h] at h'; cases h' }

theorem setHalted (k : i.Keeps s t) {v : Bool} (h : ∃ n, i = .halt ∨ i = .stop n) : i.Keeps s (t.setHalted v) :=
  { k with
    reg8 := k.reg8
    halted := fun h' => by obtain ⟨n, hi⟩ := h; exact absurd hi (not_or.2 (h' n)) }

theorem setIme (k : i.Keeps s t) {v : Bool} (h : i = .reti) : i.Keeps s (t.setIme v) :=
  { k with reg8 := k.reg8, ime := fun h' => absurd h h' }

theorem setImeSched (k : i.Keeps s t) {v : ImeSched} (h : i = .di ∨ i = .ei) : i.Keeps s (t.setImeSched v) :=
  { k with reg8 := k.reg8, imeSched := fun h' => absurd h (not_or.2 h') }

/-- Flags of which the instruction sets some and hands the others on. -/
theorem setFlags (k : i.Keeps s t) {f : Flags} (hz : i.setsZ = false → f.z = s.cpu.flags.z)
    (hn : i.setsN = false → f.n = s.cpu.flags.n) (hh : i.setsH = false → f.h = s.cpu.flags.h)
    (hc : i.setsCy = false → f.cy = s.cpu.flags.cy) : i.Keeps s (t.setFlags f) :=
  { k with reg8 := k.reg8, flagZ := hz, flagN := hn, flagH := hh, flagCy := hc }

theorem setAllFlags (k : i.Keeps s t) {f : Flags} (h : i.setsAllFlags = true) : i.Keeps s (t.setFlags f) := by
  simp only [setsAllFlags, Bool.and_eq_true] at h
  obtain ⟨⟨⟨hz, hn⟩, hh⟩, hc⟩ := h
  exact k.setFlags (by simp [hz]) (by simp [hn]) (by simp [hh]) (by simp [hc])

theorem setAf (k : i.Keeps s t) {v : Word} (hr : i.writesReg8 .a = true) (hf : i.setsAllFlags = true) :
    i.Keeps s (t.setAf v) := (k.setA (v := highByte v) hr).setAllFlags (f := Flags.ofByte (lowByte v)) hf

/-! ### The stack and the shared operations of the meanings -/

theorem push16 (k : i.Keeps s t) {v : Word} (h : i.writesSp = true) : i.Keeps s (t.push16 v) :=
  (((k.setSp h).memWrite).setSp h).memWrite

theorem pop16 (k : i.Keeps s t) (h : i.writesSp = true) : i.Keeps s t.pop16.2 :=
  (((k.tick).setSp h).tick).setSp h

theorem callTo (k : i.Keeps s t) {a : Word} (hs : i.writesSp = true) (hp : i.writesPc = true) :
    i.Keeps s (t.callTo a) := (k.push16 hs).setPc hp

theorem returnToCaller (k : i.Keeps s t) (hs : i.writesSp = true) (hp : i.writesPc = true) :
    i.Keeps s t.returnToCaller := (k.pop16 hs).setPc hp

theorem storeA (k : i.Keeps s t) {a : Word} : i.Keeps s (storeA a t) := k.memWrite

theorem loadA (k : i.Keeps s t) {a : Word} (h : i.writesReg8 .a = true) : i.Keeps s (loadA a t) := k.tick.setA h

theorem rotateRegister (k : i.Keeps s t) {op : Byte → Byte × Bool} {r : Reg8} (hr : i.writesReg8 r = true)
    (hf : i.setsAllFlags = true) : i.Keeps s (rotateRegister op r t) := (k.setReg8 hr).setAllFlags hf

theorem rotateAtHl (k : i.Keeps s t) {op : Byte → Byte × Bool} (hf : i.setsAllFlags = true) :
    i.Keeps s (rotateAtHl op t) := k.tick.memWrite.setAllFlags hf

theorem modifyAtHl (k : i.Keeps s t) {op : Byte → Byte} : i.Keeps s (modifyAtHl op t) := k.tick.memWrite

theorem rotateA (k : i.Keeps s t) {op : Byte → Byte × Bool} (hr : i.writesReg8 .a = true)
    (hf : i.setsAllFlags = true) : i.Keeps s (rotateA op t) := (k.setA hr).setAllFlags hf

theorem setAluResult (k : i.Keeps s t) {v : Byte} {f : Flags} (hr : i.writesReg8 .a = true)
    (hf : i.setsAllFlags = true) : i.Keeps s (t.setAluResult v f) := (k.setA hr).setAllFlags hf

/-- A conditional transfer, taken or not. -/
theorem ite (ht : i.Keeps s t) (hu : i.Keeps s u) {p : Prop} [Decidable p] : i.Keeps s (if p then t else u) := by
  split
  · exact ht
  · exact hu

end Instr.Keeps

/-! ### Every meaning -/

/-- An outcome that is a next state which `Keeps` relates to `s`, or no next state at all. -/
def Instr.KeepsIn (i : Instr) (s : State) (o : Outcome) : Prop := ∀ t, o = .next t → i.Keeps s t

theorem Instr.KeepsIn.ofNext {i : Instr} {s t : State} (k : i.Keeps s t) : i.KeepsIn s (.next t) :=
  fun _ h => Host.Outcome.next.inj h ▸ k

theorem Instr.KeepsIn.withOperandFlags {i : Instr} {s t u : State} (k : i.Keeps s t) :
    i.KeepsIn s (withOperandFlags u (.next t)) := by
  unfold Machine.withOperandFlags
  split
  · exact .ofNext k
  · intro _ h; cases h

/-- Every instruction but the table's row for the byte 0xCB. -/
theorem exec_keeps (i : Instr) (s : State) (hi : i ≠ .prefixCb) : i.KeepsIn s (exec i s) := by
  have k := Instr.Keeps.refl i s
  cases i
  case prefixCb => exact absurd rfl hi
  case nop | unknownD3 | unknownDB | unknownDD | unknownE3 | unknownE4 | unknownEB | unknownEC | unknownED |
      unknownF4 | unknownFC | unknownFD =>
    exact .ofNext k
  case ldBcA | ldDeA | ldHlR | ldHlN | ldhNA | ldCA | ldNnA => exact .ofNext k.memWrite
  case ldNnSp => exact .ofNext k.memWrite.memWrite
  case ldHlIncA | ldHlDecA => exact .ofNext (k.storeA.setHl rfl rfl)
  case ldABc | ldADe | ldhAN | ldAC | ldANn => exact .ofNext (k.loadA rfl)
  case ldAHlInc | ldAHlDec => exact .ofNext ((k.loadA rfl).setHl rfl rfl)
  case ldRR | ldRN | resR | setR => exact .ofNext (k.setReg8 (beq_self_eq_true _))
  case ldRHl => exact .ofNext (k.tick.setReg8 (beq_self_eq_true _))
  case ldRrNn | incRr | decRr => exact .ofNext (k.setReg16 (fun _ h => h) (fun h => beq_iff_eq.2 h))
  case ldSpHl => exact .ofNext (k.setSp rfl)
  case ldHlSpE => exact .ofNext ((k.setHl rfl rfl).setAllFlags rfl)
  case addSpE => exact .ofNext ((k.setSp rfl).setAllFlags rfl)
  case addHlRr => exact .ofNext ((k.setHl rfl rfl).setFlags (fun _ => rfl) nofun nofun nofun)
  case incR | decR =>
    exact .ofNext ((k.setReg8 (beq_self_eq_true _)).setFlags nofun nofun nofun (fun _ => rfl))
  case incHl | decHl => exact .ofNext (k.tick.memWrite.setFlags nofun nofun nofun (fun _ => rfl))
  case rlca | rrca | rla | rra => exact .ofNext (k.rotateA rfl rfl)
  case daa => exact .ofNext ((k.setA rfl).setFlags nofun (fun _ => rfl) nofun nofun)
  case cpl => exact .ofNext ((k.setA rfl).setFlags (fun _ => rfl) nofun nofun (fun _ => rfl))
  case scf | ccf => exact .ofNext (k.setFlags (fun _ => rfl) nofun nofun nofun)
  case stop n => exact .ofNext ((k.setHalted ⟨n, .inr rfl⟩).ite k)
  case halt => exact .ofNext (k.setHalted ⟨0, .inl rfl⟩)
  case di => exact .ofNext (k.setImeSched (.inl rfl))
  case ei => exact .ofNext (k.setImeSched (.inr rfl))
  case jrE | jpNn | jpHl => exact .ofNext (k.setPc rfl)
  case jrCcE | jpCcNn => exact .ofNext ((k.setPc rfl).ite k)
  case callNn | rst => exact .ofNext (k.callTo rfl rfl)
  case callCcNn => exact .ofNext ((k.callTo rfl rfl).ite k)
  case ret => exact .ofNext (k.returnToCaller rfl rfl)
  case retCc => exact .ofNext ((k.returnToCaller rfl rfl).ite k)
  case reti => exact .ofNext ((k.returnToCaller rfl rfl).setIme rfl)
  case pushRr | pushAf => exact .ofNext (k.push16 rfl)
  case popRr => exact .ofNext ((k.pop16 rfl).setPair (fun _ h => h))
  case popAf => exact .ofNext ((k.pop16 rfl).setAf rfl rfl)
  case addAR =>
    show Instr.KeepsIn _ s (aluAddRegister _ s)
    unfold aluAddRegister
    split <;> exact .ofNext (k.setAluResult rfl rfl)
  case addAN | adcAR | adcAN | subR | subN | sbcAR | sbcAN => exact .withOperandFlags (k.setAluResult rfl rfl)
  case addAHl | adcAHl | subHl | sbcAHl => exact .withOperandFlags (k.tick.setAluResult rfl rfl)
  case andR | andN | xorR | xorN | orR | orN => exact .ofNext (k.setAluResult rfl rfl)
  case andHl | xorHl | orHl => exact .ofNext (k.tick.setAluResult rfl rfl)
  case cpR | cpN => exact .withOperandFlags (k.setAllFlags rfl)
  case cpHl => exact .withOperandFlags (k.tick.setAllFlags rfl)
  case rlcR | rrcR | rlR | rrR | slaR | sraR | swapR | srlR =>
    exact .ofNext (k.rotateRegister (beq_self_eq_true _) rfl)
  case rlcHl | rrcHl | rlHl | rrHl | slaHl | sraHl | swapHl | srlHl => exact .ofNext (k.rotateAtHl rfl)
  case bitR => exact .ofNext (k.setFlags nofun nofun nofun (fun _ => rfl))
  case bitHl => exact .ofNext (k.tick.setFlags nofun nofun nofun (fun _ => rfl))
  case resHl | setHl => exact .ofNext k.modifyAtHl

/-- Settles O40: the register part of `exec_keeps`. -/
theorem registersOnlyByTheirInstructions : Obligations.RegistersOnlyByTheirInstructions := by
  intro i s t hi ht
  have k := exec_keeps i s hi t ht
  exact ⟨k.reg8, k.sp, k.pc, k.halted, k.ime, k.imeSched⟩

/-- Settles O41: the flag part of `exec_keeps`. -/
theorem flagsOnlyByTheirInstructions : Obligations.FlagsOnlyByTheirInstructions := by
  intro i s t hi ht
  have k := exec_keeps i s hi t ht
  exact ⟨k.flagZ, k.flagN, k.flagH, k.flagCy⟩

end Sys2Proof
end

section
/-! SUPPORT. The memory map by regions: what a read gives and where a write lands, from the region of the redirected
address. -/

namespace Sys2Proof.Machine

/-! ### Accesses by region -/

/-- The lock gate of a region (20_memory.md R65). -/
def State.regionLocked (s : State) : Region → Bool
  | .vram => s.mmu.vramLock
  | .oam => s.mmu.oamLock
  | _ => false

/-- The read-only regions (20_memory.md R71). -/
def Region.isRom : Region → Bool
  | .rom0 => true
  | .rom1 => true
  | _ => false

/-- The cell of a linear address in the active bank of a region (20_memory.md R63, R74). -/
def State.regionCell (s : State) (r : Region) (x : Nat) : Cell := ⟨r.store, s.bankBase r + (x - r.first)⟩

section
variable {s : State} {a b : Word} {v : Byte} {r : Region}

theorem State.lockDenied_of_region (h : regionOf (redirect a) = r) : s.lockDenied a = s.regionLocked r := by
  unfold State.lockDenied
  rw [h]
  cases r <;> rfl

theorem romAddress_of_region (h : regionOf (redirect a) = r) : romAddress a = r.isRom := by
  unfold romAddress
  rw [h]
  cases r <;> rfl

theorem State.readByte_of_region (h : regionOf (redirect a) = r) : s.readByte a =
    if s.regionLocked r = true then 0xFF
    else if s.bankValid r = true then s.readCell (s.regionCell r (redirect a).toNat) else 0xFF := by
  simp only [State.readByte, State.readByteWith, State.lockDenied_of_region h, State.locate_eq, h]
  cases s.regionLocked r <;> cases s.bankValid r <;> rfl

theorem State.writeByte_of_region (h : regionOf (redirect a) = r) : s.writeByte a v =
    if r.isRom = true then s
    else if s.regionLocked r = true then s
    else if s.bankValid r = true then s.writeCell (s.regionCell r (redirect a).toNat) v else s := by
  simp only [State.writeByte, State.writeTarget, romAddress_of_region h, State.lockDenied_of_region h,
    State.locate_eq, h]
  cases r.isRom <;> cases s.regionLocked r <;> cases s.bankValid r <;> rfl

/-- The redirect on natural numbers (20_memory.md R62). -/
theorem redirect_toNat (a : Word) :
    (redirect a).toNat = if 0xE000 ≤ a.toNat ∧ a.toNat ≤ 0xFDFF then a.toNat - 0x2000 else a.toNat := by
  split
  · next h => exact redirect_echo a (regionOf_eq a .echo h.1 (Nat.lt_succ_of_le h.2))
  · next h =>
    rw [redirect_other a]
    intro he
    have hb := regionOf_bounds a
    rw [he] at hb
    exact h ⟨hb.1, Nat.le_of_lt_succ hb.2⟩

/-- The lock gate by the bounds of R60. -/
theorem State.regionLocked_iff {x : Nat} (h : r.first ≤ x ∧ x < r.first + r.size) : s.regionLocked r = true ↔
    (0x8000 ≤ x ∧ x ≤ 0x9FFF ∧ s.mmu.vramLock = true) ∨ (0xFE00 ≤ x ∧ x ≤ 0xFE9F ∧ s.mmu.oamLock = true) := by
  constructor
  · intro hl
    cases r
    case vram => exact .inl ⟨h.1, Nat.le_of_lt_succ h.2, hl⟩
    case oam => exact .inr ⟨h.1, Nat.le_of_lt_succ h.2, hl⟩
    all_goals cases hl
  · rintro (⟨h1, h2, hl⟩ | ⟨h1, h2, hl⟩) <;> cases r <;> simp only [Region.first, Region.size] at h <;>
      first | exact hl | omega

end

/-! ### The map -/

/-- Settles O32: the bounds of each region pick the branch of the map. -/
theorem readsFollowTheMemoryMap : Obligations.ReadsFollowTheMemoryMap := by
  intro s addr
  dsimp only
  have hb := regionOf_bounds (redirect addr)
  have hn := regionOf_redirect addr
  rw [← redirect_toNat, State.readByte_of_region rfl]
  simp only [← State.regionLocked_iff hb]
  generalize (redirect addr).toNat = x, regionOf (redirect addr) = r at hb hn ⊢
  cases r <;> simp only [Region.first, Region.size] at hb
  case echo => exact absurd rfl hn
  case ie =>
    obtain rfl : x = 0xFFFF := by omega
    rfl
  all_goals simp (disch := omega) only [if_pos, if_neg, State.regionLocked, State.bankValid, State.regionCell,
    State.bankBase, Region.store, Region.first, decide_eq_true_eq, Nat.zero_add, Nat.sub_zero, Bool.false_eq_true,
    if_false, if_true]

/-- Settles O33: the bounds of each region pick the branch of the map, the ROM regions the first one. -/
theorem writesFollowTheMemoryMap : Obligations.WritesFollowTheMemoryMap := by
  intro s addr v
  dsimp only
  have hb := regionOf_bounds (redirect addr)
  have hn := regionOf_redirect addr
  rw [← redirect_toNat, State.writeByte_of_region rfl]
  simp only [← State.regionLocked_iff hb]
  generalize (redirect addr).toNat = x, regionOf (redirect addr) = r at hb hn ⊢
  cases r <;> simp only [Region.first, Region.size] at hb
  case echo => exact absurd rfl hn
  case ie =>
    obtain rfl : x = 0xFFFF := by omega
    rfl
  all_goals simp (disch := omega) only [if_pos, if_neg, Region.isRom, State.regionLocked, State.bankValid,
    State.regionCell, State.bankBase, Region.store, Region.first, decide_eq_true_eq, Nat.zero_add, Nat.sub_zero,
    Bool.false_eq_true, if_false, if_true]

/-- Settles O36: the first branch of the write map. -/
theorem romWritesChangeNothing : Obligations.RomWritesChangeNothing := by
  intro s addr v h
  exact (writesFollowTheMemoryMap s addr v).trans (if_pos (by split <;> omega))

/-- Settles O34: over cells by the laws of a cell, over addresses by those of a byte that landed. -/
theorem readReturnsTheLastWrite : Obligations.ReadReturnsTheLastWrite := by
  refine ⟨fun s c d v => ?_, fun s addr b v h => ?_, fun s addr b v h => ?_⟩
  · split
    · next hd => rw [hd, State.readCell_writeCell_same]
    · next hd => exact s.readCell_writeCell_other c d v hd
  · obtain ⟨c, hc⟩ := Option.isSome_iff_exists.1 h
    split
    · next hb => exact s.readByte_writeByte_same addr b v c hc hb
    · next hb => exact s.readByte_writeByte_other addr b v hb
  · rw [s.writeByte_none addr v (by simpa using h)]

/-! ### The echo redirect -/

theorem State.readByteWith_redirect (s : State) (ign : Bool) (a b : Word) (h : redirect a = redirect b) :
    s.readByteWith ign a = s.readByteWith ign b := by
  simp only [State.readByteWith, s.lockDenied_redirect a b h, s.locate_redirect a b h]

theorem State.writeByte_redirect (s : State) (a b : Word) (v : Byte) (h : redirect a = redirect b) :
    s.writeByte a v = s.writeByte b v := by simp only [State.writeByte, s.writeTarget_redirect a b h]

/-- Settles O35: both addresses are redirected to the lower one. -/
theorem echoIsARedirection : Obligations.EchoIsARedirection := by
  intro s addr v h1 h2
  dsimp only
  have hr : redirect addr = redirect (BitVec.ofNat 16 (addr.toNat - 0x2000)) := by
    apply BitVec.eq_of_toNat_eq
    rw [redirect_toNat, redirect_toNat, BitVec.toNat_ofNat, Nat.mod_eq_of_lt (by omega), if_pos ⟨h1, h2⟩,
      if_neg (by omega)]
  exact ⟨s.readByte_redirect _ _ hr, s.writeByte_redirect _ _ v hr, s.readByteWith_redirect true _ _ hr⟩

/-! ### The lock gate -/

/-- The machine with both locks clear. -/
def State.unlocked (s : State) : State := { s with mmu := { s.mmu with vramLock := false, oamLock := false } }

/-- No echo address is redirected into VRAM or OAM, so the gate speaks of the address itself. -/
theorem State.lockDenied_iff (s : State) (a : Word) : s.lockDenied a = true ↔
    (0x8000 ≤ a.toNat ∧ a.toNat ≤ 0x9FFF ∧ s.mmu.vramLock = true) ∨
      (0xFE00 ≤ a.toNat ∧ a.toNat ≤ 0xFE9F ∧ s.mmu.oamLock = true) := by
  rw [State.lockDenied_of_region rfl, State.regionLocked_iff (regionOf_bounds _), redirect_toNat]
  split
  · next h => constructor <;> rintro (⟨_, _, _⟩ | ⟨_, _, _⟩) <;> omega
  · rfl

theorem State.unlocked_lockDenied (s : State) (a : Word) : s.unlocked.lockDenied a = false := by
  rw [State.lockDenied_of_region rfl]
  cases regionOf (redirect a) <;> rfl

theorem State.unlocked_locate (s : State) (a : Word) : s.unlocked.locate a = s.locate a := rfl

theorem State.readByteWith_true (s : State) (a : Word) : s.readByteWith true a = s.unlocked.readByte a := by
  simp only [State.readByte, State.readByteWith, State.unlocked_lockDenied, Bool.not_true, Bool.false_and,
    Bool.and_false]
  rfl

theorem State.readByte_not_denied (s : State) (a : Word) (h : s.lockDenied a = false) :
    s.readByte a = s.readByteWith true a := by
  simp only [State.readByte, State.readByteWith, h, Bool.and_false, Bool.not_true]

/-- A write past the lock gate is that of the machine with both locks clear. -/
theorem State.writeByte_not_denied (s : State) (a : Word) (v : Byte) (h : s.lockDenied a = false) :
    s.writeByte a v = { s.unlocked.writeByte a v with
      mmu := { (s.unlocked.writeByte a v).mmu with vramLock := s.mmu.vramLock, oamLock := s.mmu.oamLock } } := by
  have ht : s.unlocked.writeTarget a = s.writeTarget a := by
    simp only [State.writeTarget, h, s.unlocked_lockDenied, s.unlocked_locate]
  cases hw : s.writeTarget a with
  | none => rw [s.writeByte_none a v hw, State.writeByte_none _ a v (ht.trans hw)]; rfl
  | some c =>
    rw [s.writeByte_some a v c hw, State.writeByte_some _ a v c (ht.trans hw)]
    obtain ⟨st, i⟩ := c
    cases st <;> rfl

/-- Settles O37: a denied access by `lockDenied_iff`, every other one as on the machine with both locks clear. -/
theorem lockGateDeniesItsRegion : Obligations.LockGateDeniesItsRegion := by
  intro s addr v
  rw [← s.lockDenied_iff addr, Bool.not_eq_true]
  refine ⟨fun h => ⟨?_, ?_⟩, fun h => ⟨s.readByte_not_denied addr h, s.writeByte_not_denied addr v h⟩,
    s.readByteWith_true addr⟩
  · simp only [State.readByte, State.readByteWith, h, Bool.not_false, Bool.and_true, if_true, fillByte]
  · exact s.writeByte_none addr v (by simp only [State.writeTarget, h, Bool.or_true, if_true])

end Sys2Proof.Machine
end

section
/-! SUPPORT. What a set lock isolates: replacing the locked array commutes with every operation of the program. -/

namespace Sys2Proof.Machine

/-! ### The locked array -/

/-- The state with one byte array replaced. -/
def State.withArray (s : State) (st : Store) (x : Memory) : State := { s with mmu := s.mmu.setArray st x }

/-- The array is behind a lock that is set (20_memory.md R65). -/
def Mmu.Locked (m : Mmu) : Store → Prop
  | .vram => m.vramLock = true
  | .oam => m.oamLock = true
  | _ => False

/-- A call takes `s` to a next state only with the array `st` as before and its lock still set, and goes the same way
from `s` with that array replaced. -/
def State.Isolates (s : State) (st : Store) (run : State → Outcome) : Prop :=
  ∀ t, run s = .next t → t.mmu.Locked st ∧ t.mmu.array st = s.mmu.array st ∧
    ∀ x, run (s.withArray st x) = .next (t.withArray st x)

section
variable {s : State} {st : Store} {c : Cell} {a : Word} {v : Byte} {x : Memory}

/-- No address reaches a cell of a locked array past the lock gate. -/
theorem Mmu.Locked.lockDenied (h : s.mmu.Locked st) (hl : s.locate a = some c) (hc : c.store = st) :
    s.lockDenied a = true := by
  rw [State.locate_eq] at hl
  rw [State.lockDenied_of_region rfl]
  have hn := regionOf_redirect a
  split at hl <;> cases hl
  rename_i hv
  subst hc
  generalize regionOf (redirect a) = r at h hv hn ⊢
  cases r
  case vram | oam => exact h
  case echo => exact absurd rfl hn
  case unassigned => cases hv
  all_goals exact h.elim

theorem Mmu.Locked.store_ne (h : s.mmu.Locked st) (hw : s.writeTarget a = some c) : c.store ≠ st := fun hc => by
  have := h.lockDenied (s.writeTarget_locate a c hw) hc
  rw [s.writeTarget_not_denied a c hw] at this
  cases this

theorem Mmu.Locked.ifCell_ne (h : s.mmu.Locked st) : ifCell.store ≠ st := fun hc => by subst hc; exact h

theorem Mmu.Locked.ieCell_ne (h : s.mmu.Locked st) : ieCell.store ≠ st := fun hc => by subst hc; exact h

theorem Mmu.Locked.writeCell (h : s.mmu.Locked st) : (s.writeCell c v).mmu.Locked st := by
  cases st
  case vram => exact (Mmu.setArray_vramLock _ _ _).trans h
  case oam => exact (Mmu.setArray_oamLock _ _ _).trans h
  all_goals exact h

theorem State.writeCell_array (hc : c.store ≠ st) : (s.writeCell c v).mmu.array st = s.mmu.array st :=
  Mmu.setArray_other _ _ _ _ hc.symm

theorem Mmu.Locked.writeByte (h : s.mmu.Locked st) : (s.writeByte a v).mmu.Locked st := by
  cases hw : s.writeTarget a with
  | none => rwa [s.writeByte_none a v hw]
  | some c => rw [s.writeByte_some a v c hw]; exact h.writeCell

theorem Mmu.Locked.writeByte_array (h : s.mmu.Locked st) : (s.writeByte a v).mmu.array st = s.mmu.array st := by
  cases hw : s.writeTarget a with
  | none => rw [s.writeByte_none a v hw]
  | some c => rw [s.writeByte_some a v c hw]; exact State.writeCell_array (h.store_ne hw)

theorem Mmu.Locked.writeBytes (h : s.mmu.Locked st) (ws : List (Word × Byte)) :
    (s.writeBytes ws).mmu.Locked st ∧ (s.writeBytes ws).mmu.array st = s.mmu.array st := by
  induction ws generalizing s with
  | nil => exact ⟨h, rfl⟩
  | cons w rest ih =>
    obtain ⟨hl, ha⟩ := ih (s := s.writeByte w.1 w.2) h.writeByte
    exact ⟨hl, ha.trans h.writeByte_array⟩

/-! ### The array replaced -/

theorem Mmu.setArray_comm (m : Mmu) {st st' : Store} (x y : Memory) (h : st' ≠ st) :
    (m.setArray st x).setArray st' y = (m.setArray st' y).setArray st x := by
  cases st <;> cases st' <;> first | rfl | exact absurd rfl h

theorem State.withArray_locate (s : State) (st : Store) (x : Memory) (a : Word) :
    (s.withArray st x).locate a = s.locate a := by cases st <;> rfl

theorem State.withArray_lockDenied (s : State) (st : Store) (x : Memory) (a : Word) :
    (s.withArray st x).lockDenied a = s.lockDenied a := by cases st <;> rfl

theorem State.withArray_writeTarget (s : State) (st : Store) (x : Memory) (a : Word) :
    (s.withArray st x).writeTarget a = s.writeTarget a := by
  simp only [State.writeTarget, State.withArray_locate, State.withArray_lockDenied]

theorem State.withArray_readCell (hc : c.store ≠ st) : (s.withArray st x).readCell c = s.readCell c := by
  unfold State.readCell
  rw [show (s.withArray st x).mmu.array c.store = s.mmu.array c.store from Mmu.setArray_other _ _ _ _ hc]
  rfl

theorem State.withArray_writeCell (hc : c.store ≠ st) :
    (s.withArray st x).writeCell c v = (s.writeCell c v).withArray st x := by
  show ({ s with mmu := _ } : State) = { s with mmu := _ }
  rw [show (s.withArray st x).mmu.array c.store = s.mmu.array c.store from Mmu.setArray_other _ _ _ _ hc]
  exact congrArg (fun m => ({ s with mmu := m } : State)) (Mmu.setArray_comm _ _ _ hc)

theorem Mmu.Locked.withArray_readByte (h : s.mmu.Locked st) : (s.withArray st x).readByte a = s.readByte a := by
  simp only [State.readByte, State.readByteWith, State.withArray_lockDenied, State.withArray_locate]
  split
  · rfl
  · next hd =>
    cases hl : s.locate a with
    | none => rfl
    | some c => exact State.withArray_readCell (fun hc => hd (by simp [h.lockDenied hl hc]))

theorem Mmu.Locked.withArray_writeByte (h : s.mmu.Locked st) :
    (s.withArray st x).writeByte a v = (s.writeByte a v).withArray st x := by
  have ht := s.withArray_writeTarget st x a
  cases hw : s.writeTarget a with
  | none => rw [s.writeByte_none a v hw, State.writeByte_none _ a v (ht.trans hw)]
  | some c =>
    rw [s.writeByte_some a v c hw, State.writeByte_some _ a v c (ht.trans hw)]
    exact State.withArray_writeCell (h.store_ne hw)

theorem Mmu.Locked.withArray_writeBytes (h : s.mmu.Locked st) (ws : List (Word × Byte)) :
    (s.withArray st x).writeBytes ws = (s.writeBytes ws).withArray st x := by
  induction ws generalizing s with
  | nil => rfl
  | cons w rest ih =>
    simp only [State.writeBytes, h.withArray_writeByte]
    exact ih h.writeByte

theorem Mmu.Locked.twins (h : s.mmu.Locked st) : s.Twins (s.withArray st x) :=
  ⟨rfl, rfl, rfl, fun _ => h.withArray_readByte⟩

theorem Mmu.Locked.withArray_pendingInterrupts (h : s.mmu.Locked st) :
    (s.withArray st x).pendingInterrupts = s.pendingInterrupts := by
  simp only [State.pendingInterrupts, State.withArray_readCell h.ifCell_ne, State.withArray_readCell h.ieCell_ne]

/-! ### One call -/

theorem State.endOfCall_mmu (s : State) : s.endOfCall.mmu = s.mmu := by
  unfold State.endOfCall; split <;> rfl

theorem State.withArray_endOfCall (s : State) (st : Store) (x : Memory) :
    (s.withArray st x).endOfCall = s.endOfCall.withArray st x := by
  simp only [State.endOfCall, State.withArray]
  split <;> rfl

/-- The array commutes with the fetch. -/
theorem Mmu.Locked.withArray_fetchBytes (h : s.mmu.Locked st) (n : Nat) :
    State.fetchBytes n (s.withArray st x) = ((State.fetchBytes n s).1, (State.fetchBytes n s).2.withArray st x) := by
  simp only [State.fetchBytes_eq, h.withArray_readByte]
  rfl

theorem State.fetchBytes_mmu (n : Nat) (s : State) : (State.fetchBytes n s).2.mmu = s.mmu := by
  rw [State.fetchBytes_eq]

/-- An instruction sees the locked array through no read, by `exec_alike`, and its writes miss it. -/
theorem exec_isolates (i : Instr) (h : s.mmu.Locked st) : s.Isolates st (exec i) := by
  intro t ht
  obtain ⟨hl, ha⟩ : t.mmu.Locked st ∧ t.mmu.array st = s.mmu.array st := by
    obtain ⟨ws, hr⟩ := exec_reaches ht
    rw [hr]
    exact h.writeBytes ws
  refine ⟨hl, ha, fun x => ?_⟩
  obtain ⟨t', w, h1, h2, ws, hs, hu⟩ | ⟨e, h1, -⟩ := exec_alike i s (s.withArray st x) h.twins
  · obtain rfl := Host.Outcome.next.inj (ht.symm.trans h1)
    rw [h2, hu, h.withArray_writeBytes]
    conv => rhs; rw [hs]
    rfl
  · rw [ht] at h1; cases h1

theorem finishCall_isolates (i : Instr) (h : s.mmu.Locked st) : s.Isolates st (finishCall i) := by
  intro t ht
  unfold finishCall at ht ⊢
  cases he : exec i s with
  | fault e => rw [he] at ht; cases ht
  | refused e => rw [he] at ht; cases ht
  | next u =>
    rw [he] at ht
    obtain rfl := Host.Outcome.next.inj ht
    obtain ⟨hl, ha, hx⟩ := exec_isolates i h u he
    rw [State.endOfCall_mmu]
    exact ⟨hl, ha, fun x => by simp only [hx x, State.withArray_endOfCall]⟩

theorem runInstruction_isolates (h : s.mmu.Locked st) : s.Isolates st runInstruction := by
  intro t ht
  have hn : ∀ x, (s.withArray st x).nextLength = s.nextLength := fun x => congrArg instrLength h.withArray_readByte
  have hm := State.fetchBytes_mmu s.nextLength s
  simp only [runInstruction, hn, h.withArray_fetchBytes] at ht ⊢
  generalize State.fetchBytes s.nextLength s = p at ht hm ⊢
  obtain ⟨bytes, u⟩ := p
  dsimp only at ht hm ⊢
  cases hd : decode bytes with
  | error e => rw [hd] at ht; cases ht
  | ok r =>
    rw [hd] at ht
    rw [← hm] at h ⊢
    exact finishCall_isolates r.1 h t ht

theorem interruptEntry_isolates (i : Nat) (h : s.mmu.Locked st) :
    s.Isolates st (fun u => .next (u.interruptEntry i)) := by
  intro t ht
  obtain rfl := Host.Outcome.next.inj ht
  simp only [State.interruptEntry_eq, State.withArray_readCell h.ifCell_ne, State.withArray_writeCell h.ifCell_ne]
  have hw := h.writeCell (c := ifCell) (v := s.readCell ifCell &&& ~~~(1#8 <<< i))
  refine ⟨hw.writeByte.writeByte, ?_, fun x => ?_⟩
  · rw [hw.writeByte.writeByte_array, hw.writeByte_array, State.writeCell_array h.ifCell_ne]
  · rw [hw.withArray_writeByte, hw.writeByte.withArray_writeByte]
    rfl

/-- A branch on what the locked array has no part in. -/
theorem State.Isolates.ite {p : State → Bool} {f g : State → Outcome} (hp : ∀ x, p (s.withArray st x) = p s)
    (hf : s.Isolates st f) (hg : s.Isolates st g) : s.Isolates st (fun u => if p u = true then f u else g u) := by
  intro t ht
  simp only [hp]
  dsimp only at ht
  split at ht
  · next h => simp only [h, if_true]; exact hf t ht
  · next h => simp only [h]; exact hg t ht

/-- The call of a machine with a cartridge. -/
theorem State.Isolates.execute {run : State → Outcome} (hr : s.Isolates st run)
    (he : ∀ u : State, u.cart.isSome = true → execute u = run u) : s.Isolates st execute := by
  intro t ht
  have hc := execute_next_cart ht
  rw [he s hc] at ht
  simp only [fun x => he (s.withArray st x) hc]
  exact hr t ht

/-- The four ways a call goes (60_exceptions.md R329). -/
theorem execute_isolates (h : s.mmu.Locked st) : s.Isolates st execute := by
  refine State.Isolates.execute ?_ execute_loaded
  refine .ite (fun x => ?_) (.ite (fun _ => rfl) (fun t ht => ?_) (fun t ht => ?_))
    (.ite (fun _ => rfl) (fun t ht => ?_) (fun t ht => ?_))
  · rw [h.withArray_pendingInterrupts]; rfl
  · simp only [h.withArray_pendingInterrupts]
    exact interruptEntry_isolates (s := { s with cpu := { s.cpu with halted := false }, cycles := 0 }) _ h t ht
  · exact runInstruction_isolates (s := { s with cpu := { s.cpu with halted := false }, cycles := 0 }) h t ht
  · cases ht; exact ⟨h, rfl, fun _ => rfl⟩
  · exact runInstruction_isolates (s := { s with cycles := 0 }) h t ht

theorem step_isolates (hh : s.host = []) (h : s.mmu.Locked st) : s.Isolates st step := by
  have ht : ∀ u : State, u.host = [] → step u = execute u := fun u hu => by simp only [step, State.hostTurn, hu]
  intro t hs
  rw [ht s hh] at hs
  simp only [fun x => ht (s.withArray st x) hh]
  exact execute_isolates h t hs

end

/-- Settles O60: VRAM and OAM are the two arrays behind a lock. -/
theorem lockedMemoryIsIsolated : Obligations.LockedMemoryIsIsolated := by
  refine ⟨fun s t x hh hl hs => ?_, fun s t x hh hl hs => ?_⟩
  · obtain ⟨hk, ha, hx⟩ := step_isolates (st := .vram) hh hl t hs
    exact ⟨hx x, ha, hk⟩
  · obtain ⟨hk, ha, hx⟩ := step_isolates (st := .oam) hh hl t hs
    exact ⟨hx x, ha, hk⟩

end Sys2Proof.Machine
end

section
/-! SUPPORT. What an instruction does to memory: the byte writes it makes, at the addresses of 20_memory.md R82, and
what every byte write leaves. -/

namespace Sys2Proof

open Machine

namespace Machine

/-! ### What a byte write leaves of the MMU -/

/-- The part of the MMU that no write of the program reaches: ROM, the bank indices and the locks (20_memory.md R71,
R84). -/
structure Mmu.SameControl (m n : Mmu) : Prop where
  rom0 : n.rom0 = m.rom0
  rom1 : n.rom1 = m.rom1
  rom1Index : n.rom1Index = m.rom1Index
  vramIndex : n.vramIndex = m.vramIndex
  eramIndex : n.eramIndex = m.eramIndex
  wram1Index : n.wram1Index = m.wram1Index
  vramLock : n.vramLock = m.vramLock
  oamLock : n.oamLock = m.oamLock

theorem Mmu.SameControl.refl (m : Mmu) : m.SameControl m := ⟨rfl, rfl, rfl, rfl, rfl, rfl, rfl, rfl⟩

theorem Mmu.SameControl.trans {m n k : Mmu} (h : m.SameControl n) (h' : n.SameControl k) : m.SameControl k :=
  ⟨h'.rom0.trans h.rom0, h'.rom1.trans h.rom1, h'.rom1Index.trans h.rom1Index, h'.vramIndex.trans h.vramIndex,
    h'.eramIndex.trans h.eramIndex, h'.wram1Index.trans h.wram1Index, h'.vramLock.trans h.vramLock,
    h'.oamLock.trans h.oamLock⟩

theorem Mmu.setArray_sameControl (m : Mmu) (st : Store) (x : Memory) (h : st ≠ .rom0 ∧ st ≠ .rom1) :
    m.SameControl (m.setArray st x) where
  rom0 := m.setArray_other st .rom0 x h.1.symm
  rom1 := m.setArray_other st .rom1 x h.2.symm
  rom1Index := m.setArray_rom1Index st x
  vramIndex := m.setArray_vramIndex st x
  eramIndex := m.setArray_eramIndex st x
  wram1Index := m.setArray_wram1Index st x
  vramLock := m.setArray_vramLock st x
  oamLock := m.setArray_oamLock st x

theorem State.writeByte_sameControl (s : State) (a : Word) (v : Byte) : s.mmu.SameControl (s.writeByte a v).mmu := by
  cases hw : s.writeTarget a with
  | none => rw [s.writeByte_none a v hw]; exact .refl _
  | some c => rw [s.writeByte_some a v c hw]; exact s.mmu.setArray_sameControl _ _ (s.writeTarget_not_rom a c hw)

theorem State.writeBytes_sameControl (ws : List (Word × Byte)) (s : State) :
    s.mmu.SameControl (s.writeBytes ws).mmu := by
  induction ws generalizing s with
  | nil => exact .refl _
  | cons w rest ih => exact (s.writeByte_sameControl w.1 w.2).trans (ih _)

/-- Settles O38: an instruction changes the CPU, the count and what byte writes reach. -/
theorem instructionsLeaveRomAndController : Obligations.InstructionsLeaveRomAndController := by
  intro i s t ht
  have hr := exec_reaches ht
  obtain ⟨hp, hc, he, hs, hf, hn, hh⟩ := hr.frame
  obtain ⟨ws, hw⟩ := hr
  have k : s.mmu.SameControl t.mmu := by rw [hw]; exact State.writeBytes_sameControl ws s
  exact ⟨k.rom0, k.rom1, k.rom1Index, k.vramIndex, k.eramIndex, k.wram1Index, k.vramLock, k.oamLock, hc, hp, he, hs,
    hf, hn, hh⟩

/-! ### The addresses stored to -/

theorem State.writeByte_readCell (s : State) (a : Word) (v : Byte) (c : Cell) (h : s.writeTarget a ≠ some c) :
    (s.writeByte a v).readCell c = s.readCell c := by
  cases hw : s.writeTarget a with
  | none => rw [s.writeByte_none a v hw]
  | some d =>
    rw [s.writeByte_some a v d hw]
    exact s.readCell_writeCell_other d c v (fun he => h (he ▸ hw))

theorem State.writeBytes_readCell (ws : List (Word × Byte)) (s : State) (c : Cell)
    (h : ∀ w ∈ ws, s.writeTarget w.1 ≠ some c) : (s.writeBytes ws).readCell c = s.readCell c := by
  induction ws generalizing s with
  | nil => rfl
  | cons w rest ih =>
    rw [List.forall_mem_cons] at h
    exact (ih (s.writeByte w.1 w.2) (by simpa using h.2)).trans (s.writeByte_readCell w.1 w.2 c h.1)

theorem State.writeBytes_readByte (ws : List (Word × Byte)) (s : State) (b : Word)
    (h : ∀ w ∈ ws, redirect b ≠ redirect w.1) : (s.writeBytes ws).readByte b = s.readByte b := by
  induction ws generalizing s with
  | nil => rfl
  | cons w rest ih =>
    rw [List.forall_mem_cons] at h
    exact (ih (s.writeByte w.1 w.2) h.2).trans (s.readByte_writeByte_other w.1 b w.2 h.1)

/-- From `s` to `t` by byte writes at these addresses, in this order, and a change of the CPU and the count. -/
def State.Stores (s : State) (as : List Word) (t : State) : Prop :=
  ∃ ws : List (Word × Byte), ws.map Prod.fst = as ∧ t = { s.writeBytes ws with cpu := t.cpu, cycles := t.cycles }

namespace State.Stores

variable {s t u : State} {as bs : List Word}

theorem trans (h : s.Stores as t) (h' : t.Stores bs u) : s.Stores (as ++ bs) u := by
  obtain ⟨ws, hm, h⟩ := h
  obtain ⟨ws', hm', h'⟩ := h'
  refine ⟨ws ++ ws', by rw [List.map_append, hm, hm'], h'.trans ?_⟩
  rw [State.writeBytes_append, h, State.writeBytes_frame]

theorem ofCpu (s : State) (c : Cpu) (n : Nat) : s.Stores [] { s with cpu := c, cycles := n } := ⟨[], rfl, rfl⟩

theorem refl (s : State) : s.Stores [] s := ofCpu s s.cpu s.cycles

theorem cpu (h : s.Stores as t) (c : Cpu) (n : Nat) : s.Stores as { t with cpu := c, cycles := n } :=
  (List.append_nil as) ▸ h.trans (ofCpu t c n)

theorem writeByte (s : State) (a : Word) (v : Byte) : s.Stores [a] (s.writeByte a v) := ⟨[(a, v)], rfl, rfl⟩

theorem memWrite (s : State) (a : Word) (v : Byte) : s.Stores [a] (s.memWrite a v) := (writeByte s a v).cpu _ _

theorem push16 (s : State) (v : Word) : s.Stores [s.cpu.sp - 1, s.cpu.sp - 2] (s.push16 v) := by
  rw [State.push16_eq, show s.cpu.sp - 2 = s.cpu.sp - 1 - 1 by rw [BitVec.sub_sub]; rfl]
  exact ((writeByte s _ _).trans (writeByte _ _ _)).cpu _ _

theorem setReg8 (s : State) (r : Reg8) (v : Byte) : s.Stores [] (s.setReg8 r v) := by
  cases r <;> exact ofCpu s _ _

theorem setReg16 (s : State) (rr : Reg16) (v : Word) : s.Stores [] (s.setReg16 rr v) := by
  cases rr <;> exact ofCpu s _ _

theorem setPair (s : State) (q : Pair) (v : Word) : s.Stores [] (s.setPair q v) := by
  cases q <;> exact ofCpu s _ _

theorem ite (ht : s.Stores as t) (hu : s.Stores as u) {p : Prop} [Decidable p] : s.Stores as (if p then t else u) := by
  split
  · exact ht
  · exact hu

/-- A cell in which none of the writes lands. -/
theorem readCell (h : s.Stores as t) {c : Cell} (hc : ∀ a ∈ as, s.writeTarget a ≠ some c) :
    t.readCell c = s.readCell c := by
  obtain ⟨ws, rfl, h⟩ := h
  rw [h]
  exact State.writeBytes_readCell ws s c (by simpa using hc)

/-- An address at which none of the writes is. -/
theorem readByte (h : s.Stores as t) {b : Word} (hb : ∀ a ∈ as, redirect b ≠ redirect a) :
    t.readByte b = s.readByte b := by
  obtain ⟨ws, rfl, h⟩ := h
  rw [h]
  exact State.writeBytes_readByte ws s b (by simpa using hb)

theorem mmu_eq (h : s.Stores [] t) : t.mmu = s.mmu := by
  obtain ⟨ws, hm, h⟩ := h
  rw [List.map_eq_nil_iff.1 hm] at h
  rw [h]
  rfl

end State.Stores

/-- An outcome that is a next state reached by writes at these addresses, or no next state at all. -/
def Outcome.StoresAt (s : State) (as : List Word) (o : Outcome) : Prop := ∀ t, o = .next t → s.Stores as t

theorem Outcome.StoresAt.ofNext {s t : State} {as : List Word} (h : s.Stores as t) :
    Outcome.StoresAt s as (.next t) := fun _ he => Host.Outcome.next.inj he ▸ h

theorem Outcome.StoresAt.withOperandFlags {s t u : State} {as : List Word} (h : s.Stores as t) :
    Outcome.StoresAt s as (withOperandFlags u (.next t)) := by
  unfold Machine.withOperandFlags
  split
  · exact .ofNext h
  · intro _ he; cases he

end Machine

/-- Every instruction but the table's row for the byte 0xCB. -/
theorem exec_stores (i : Instr) (s : State) (hi : i ≠ .prefixCb) :
    Outcome.StoresAt s (i.storeAddresses s) (exec i s) := by
  cases i
  case prefixCb => exact absurd rfl hi
  case ldBcA | ldDeA | ldHlR | ldHlN | ldhNA | ldCA | ldNnA => exact .ofNext (.memWrite s _ _)
  case ldHlIncA | ldHlDecA => exact .ofNext ((State.Stores.memWrite s _ _).cpu _ _)
  case incHl | decHl | rlcHl | rrcHl | rlHl | rrHl | slaHl | sraHl | swapHl | srlHl =>
    exact .ofNext (((State.Stores.ofCpu s _ _).trans (.memWrite s.tick _ _)).cpu _ _)
  case resHl | setHl => exact .ofNext ((State.Stores.ofCpu s _ _).trans (.memWrite s.tick _ _))
  case ldNnSp => exact .ofNext ((State.Stores.memWrite s _ _).trans (.memWrite _ _ _))
  case pushRr | pushAf => exact .ofNext (.push16 s _)
  case callNn | rst => exact .ofNext ((State.Stores.push16 s _).cpu _ _)
  case callCcNn cc nn =>
    show Outcome.StoresAt s (if _ then _ else _) (.next (if _ then _ else _))
    split
    · exact .ofNext ((State.Stores.push16 s _).cpu _ _)
    · exact .ofNext (.refl s)
  case ldRR | ldRN | resR | setR => exact .ofNext (.setReg8 s _ _)
  case ldRHl => exact .ofNext ((State.Stores.ofCpu s _ _).trans (.setReg8 s.tick _ _))
  case incR | decR | rlcR | rrcR | rlR | rrR | slaR | sraR | swapR | srlR =>
    exact .ofNext ((State.Stores.setReg8 s _ _).cpu _ _)
  case ldRrNn | incRr | decRr => exact .ofNext (.setReg16 s _ _)
  case popRr => exact .ofNext ((State.Stores.ofCpu s _ _).trans (.setPair s.pop16.2 _ _))
  case jpCcNn | jrCcE | retCc | stop => exact .ofNext (.ite (.ofCpu s _ _) (.refl s))
  case addAR =>
    show Outcome.StoresAt s _ (aluAddRegister _ s)
    unfold aluAddRegister
    split <;> exact .ofNext (.ofCpu s _ _)
  case addAN | adcAR | adcAN | subR | subN | sbcAR | sbcAN | cpR | cpN | addAHl | adcAHl | subHl | sbcAHl | cpHl =>
    exact .withOperandFlags (.ofCpu s _ _)
  case nop | ldABc | ldADe | ldAHlInc | ldAHlDec | rlca | rrca | rla | rra | daa | cpl | scf | ccf | halt | andR |
      andN | xorR | xorN | orR | orN | andHl | xorHl | orHl | popAf | jrE | jpNn | ret | reti | ldhAN | ldAC |
      ldANn | di | ei | addSpE | jpHl | ldHlSpE | ldSpHl | addHlRr | bitR | bitHl | unknownD3 | unknownDB |
      unknownDD | unknownE3 | unknownE4 | unknownEB | unknownEC | unknownED | unknownF4 | unknownFC | unknownFD =>
    exact .ofNext (.ofCpu s _ _)

/-- Settles O39: the writes of `exec_stores` miss every other cell and address. -/
theorem storesOnlyAtTheirAddresses : Obligations.StoresOnlyAtTheirAddresses := by
  intro i s t hi ht
  have h := exec_stores i s hi t ht
  exact ⟨fun _ => h.readCell, fun _ => h.readByte, fun hn => State.Stores.mmu_eq (hn ▸ h)⟩

end Sys2Proof
end

section
/-! SUPPORT. The loader: which images it accepts and what record it makes (20_memory.md R100 to R107). -/

namespace Sys2Proof.Machine

/-! ### The header checksum -/

theorem toNat_foldl_add_not (bytes : List Byte) (acc : Byte) :
    (bytes.foldl (fun acc v => acc + ~~~v) acc).toNat =
      (acc.toNat + (bytes.map (fun v => 255 - v.toNat)).sum) % 256 := by
  induction bytes generalizing acc with
  | nil => exact (Nat.mod_eq_of_lt acc.isLt).symm
  | cons v rest ih =>
    rw [List.foldl_cons, ih, BitVec.toNat_add, BitVec.toNat_not, Nat.mod_add_mod, Nat.add_assoc]
    rfl

/-- A stretch of an image, byte by byte. -/
theorem take_drop_eq_map (image : List Byte) (i n : Nat) (h : i + n ≤ image.length) :
    (image.drop i).take n = (List.range n).map (fun k => image.getD (i + k) 0) := by
  refine List.ext_getElem (by simp; omega) (fun k hk _ => ?_)
  have hk' : i + k < image.length := by simp at hk; omega
  simp [hk']

/-- The sum of R102 in natural numbers. -/
theorem headerChecksum_eq_iff (image : List Byte) (h : 0x150 ≤ image.length) :
    headerChecksum image = imageByte image 0x14D ↔
      ((List.range 25).map (fun k => 255 - (image.getD (0x134 + k) 0).toNat)).sum % 256 =
        (image.getD 0x14D 0).toNat := by
  rw [← BitVec.toNat_inj, headerChecksum, toNat_foldl_add_not, take_drop_eq_map image _ _ (by omega), List.map_map]
  show (0 + _) % 256 = _ ↔ _
  rw [Nat.zero_add]
  rfl

/-! ### Acceptance and the first failing step -/

/-- The loader accepts exactly this (20_memory.md R100 to R107), the checksum in the model's terms. -/
theorem initCartridge_ok_iff (image : List Byte) (c : Cartridge) : initCartridge image = .ok c ↔
    0x150 ≤ image.length ∧ headerChecksum image = imageByte image 0x14D ∧
    romBanksOf (imageByte image 0x148) = some c.romBanks ∧ ramBanksOf (imageByte image 0x149) = some c.ramBanks ∧
    c.mbc = imageByte image 0x147 ∧ c.persistent = hasBattery c.mbc ∧
    c.title = Vector.ofFn (fun i => imageByte image (0x134 + i.val)) := by
  obtain ⟨mbc, rom, ram, per, title⟩ := c
  unfold initCartridge
  by_cases hl : image.length < 0x150
  · rw [if_pos hl]; exact ⟨nofun, fun h => absurd h.1 (by omega)⟩
  rw [if_neg hl]
  by_cases hs : headerChecksum image = imageByte image 0x14D
  · rw [if_neg (not_not.2 hs)]
    cases romBanksOf (imageByte image 0x148) with
    | none => exact ⟨nofun, fun ⟨_, _, hrom, _⟩ => nomatch hrom⟩
    | some n =>
      cases ramBanksOf (imageByte image 0x149) with
      | none => exact ⟨nofun, fun ⟨_, _, _, hram, _⟩ => nomatch hram⟩
      | some m =>
        constructor
        · intro h
          cases h
          exact ⟨Nat.not_lt.1 hl, hs, rfl, rfl, rfl, rfl, rfl⟩
        · rintro ⟨-, -, hrom, hram, hmbc, hper, htitle⟩
          cases hrom
          cases hram
          dsimp only at hmbc hper htitle
          subst hmbc hper htitle
          rfl
  · rw [if_pos hs]; exact ⟨nofun, fun h => absurd h.2.1 hs⟩

theorem initCartridge_short (image : List Byte) (h : image.length < 0x150) :
    initCartridge image = .error .unreadableHeader := if_pos h

theorem initCartridge_badChecksum (image : List Byte) (h : 0x150 ≤ image.length)
    (hs : headerChecksum image ≠ imageByte image 0x14D) : initCartridge image = .error .badChecksum := by
  rw [initCartridge, if_neg (Nat.not_lt.2 h), if_pos hs]

theorem initCartridge_invalidSize (image : List Byte) (h : 0x150 ≤ image.length)
    (hs : headerChecksum image = imageByte image 0x14D)
    (hn : romBanksOf (imageByte image 0x148) = none ∨ ramBanksOf (imageByte image 0x149) = none) :
    initCartridge image = .error .invalidSizeCode := by
  rw [initCartridge, if_neg (Nat.not_lt.2 h), if_neg (not_not.2 hs)]
  obtain hn | hn := hn
  · rw [hn]
  · rw [hn]; cases romBanksOf (imageByte image 0x148) <;> rfl

theorem hasBattery_iff (mbc : Byte) :
    hasBattery mbc = true ↔ mbc.toNat ∈ [0x03, 0x06, 0x09, 0x0F, 0x10, 0x13, 0x1B, 0x1E] := List.contains_iff_mem

/-- A title is its sixteen bytes. -/
theorem title_eq_ofFn_iff (title : Vector Byte 16) (f : Fin 16 → Byte) :
    title = Vector.ofFn f ↔ ∀ k : Fin 16, title[k] = f k := by
  constructor
  · rintro rfl k
    exact Vector.getElem_ofFn k.isLt
  · intro h
    exact Vector.ext (fun i hi => (h ⟨i, hi⟩).trans (Vector.getElem_ofFn hi).symm)

/-- Settles O51: the steps of `initCartridge` in their order. -/
theorem loaderAcceptsExactlyTheGoodHeaders : Obligations.LoaderAcceptsExactlyTheGoodHeaders := by
  refine ⟨fun image c => ?_, initCartridge_short, fun image h hs => ?_, fun image h hs hn => ?_⟩
  · rw [initCartridge_ok_iff, title_eq_ofFn_iff, ← hasBattery_iff, Bool.eq_iff_iff]
    refine and_congr_right (fun hl => ?_)
    rw [headerChecksum_eq_iff image hl]
    rfl
  · exact initCartridge_badChecksum image h (mt (headerChecksum_eq_iff image h).1 hs)
  · exact initCartridge_invalidSize image h ((headerChecksum_eq_iff image h).2 hs) hn

/-- Settles O50: the tables code by code, and `initCartridge_ok_iff` for what the loader does with them. -/
theorem sizeTables : Obligations.SizeTables := by
  refine ⟨fun code => ?_, fun code => ?_, fun image c h => ?_, fun image h => ?_⟩
  · unfold romBanksOf
    generalize code.toNat = n
    by_cases hn : n ≤ 8
    · rw [if_pos hn]
      interval_cases n <;> rfl
    · rw [if_neg hn]
      split <;> first | omega | rfl
  · unfold ramBanksOf
    split <;> simp_all
  · obtain ⟨-, -, hrom, hram, -⟩ := (initCartridge_ok_iff image c).1 h
    exact ⟨hrom, hram⟩
  · cases hi : initCartridge image with
    | error e => exact ⟨e, rfl⟩
    | ok c =>
      obtain ⟨-, -, hrom, hram, -⟩ := (initCartridge_ok_iff image c).1 hi
      exact h.elim (fun hn => nomatch hn.symm.trans hrom) (fun hn => nomatch hn.symm.trans hram)

end Sys2Proof.Machine
end

section
/-! SUPPORT. What a power-on leaves: ROM from the image, the kept ERAM, and no cartridge after a load-fatal error. -/

namespace Sys2Proof.Machine

/-! ### No cartridge (20_memory.md R108) -/

/-- A call without a cartridge is refused, after a load-fatal error with its reason. -/
theorem execute_no_cart (s : State) (h : s.cart = none) : execute s =
    match s.loadError with
    | some e => .refused (.loadFatal e)
    | none => .refused .noCartridge := by
  unfold execute
  rw [h]
  cases s.loadError <;> rfl

/-- Settles O53: both failing ways of a power-on end in a reset without a cartridge. -/
theorem noCallAfterALoadFatalError : Obligations.NoCallAfterALoadFatalError := by
  refine ⟨fun s number image e h => ?_, fun s number image c h hl => ?_, fun s hc he => ?_⟩
  · rw [s.powerOn_initError number image e h]
    exact ⟨rfl, execute_no_cart _ rfl⟩
  · rw [s.powerOn_short number image c h hl]
    exact ⟨rfl, execute_no_cart _ rfl⟩
  · rw [execute_no_cart s hc, he]

/-! ### ROM -/

/-- The banks of an image one after the other are the image from the second bank on. -/
theorem flatten_imageBanks (image : List Byte) (n : Nat) (h : (n + 1) * 0x4000 ≤ image.length) :
    ((List.range n).map (fun k => imageBank image (k + 1))).flatten = (image.drop 0x4000).take (n * 0x4000) := by
  induction n with
  | zero => rfl
  | succ n ih =>
    have hlen : (n + 1) * 0x4000 ≤ image.length := Nat.le_trans (Nat.mul_le_mul_right _ (Nat.le_succ _)) h
    have hn : (n + 1) * 0x4000 = n * 0x4000 + 0x4000 := by omega
    have hd : n * 0x4000 + 0x4000 = 0x4000 + n * 0x4000 := Nat.add_comm _ _
    rw [List.range_succ, List.map_append, List.flatten_append, ih hlen, List.map_singleton,
      List.flatten_singleton, imageBank, hn, List.take_add, List.drop_drop, hd]

/-- A byte of ROM0 after the load (20_memory.md R86). -/
theorem Mmu.loadRom_rom0_lookup (m : Mmu) (image : List Byte) (c : Cartridge) (j : Nat) (hj : j < 0x4000)
    (hl : j < image.length) : (m.loadRom image c).rom0.lookup j = some (image.getD j 0) := by
  show (Memory.ofBytes ((imageBank image 0).take 0x4000)).lookup j = _
  rw [Memory.lookup_ofBytes]
  simp [imageBank, hj, hl]

/-- A byte of bank `k` of ROM1 after the load (20_memory.md R87). -/
theorem Mmu.loadRom_rom1_lookup (m : Mmu) (image : List Byte) (c : Cartridge) (k j : Nat)
    (hl : c.romBanks * 0x4000 ≤ image.length) (hk : k < c.romBanks - 1) (hj : j < 0x4000) :
    (m.loadRom image c).rom1.lookup (k * 0x4000 + j) = some (image.getD ((k + 1) * 0x4000 + j) 0) := by
  have hlen : (c.romBanks - 1 + 1) * 0x4000 ≤ image.length := by rwa [Nat.sub_add_cancel (by omega)]
  show (Memory.ofBytes (List.take _ (List.take _ _).flatten)).lookup _ = _
  rw [Memory.lookup_ofBytes, List.take_of_length_le (l := List.map _ _) (by simp), flatten_imageBanks image _ hlen,
    List.take_take, Nat.min_self, List.getElem?_take, if_pos (by omega), List.getElem?_drop, ← Nat.add_assoc,
    List.getD_eq_getElem?_getD, show 0x4000 + k * 0x4000 = (k + 1) * 0x4000 by omega,
    List.getElem?_eq_getElem (by omega)]
  rfl

/-- A cell that its array lists. -/
theorem State.readCell_of_lookup (s : State) (c : Cell) (v : Byte) (h : (s.mmu.array c.store).lookup c.index = some v) :
    s.readCell c = v := by
  unfold State.readCell
  rw [h]

/-- Settles O52: a power-on with a good image is insertion, the load of ROM and a reset, which keeps ROM. -/
theorem powerOnFillsRom : Obligations.PowerOnFillsRom := by
  intro s number image c h hl
  have hbanks : 2 ≤ c.romBanks := by
    obtain ⟨hr, -⟩ := initCartridge_legal image c h
    simp only [List.mem_cons, List.not_mem_nil, or_false] at hr
    omega
  dsimp only
  rw [s.powerOn_ok number image c h hl]
  refine ⟨rfl, rfl, rfl, rfl, rfl, rfl, fun j hj => ?_, fun k j hk hj => ?_⟩
  · exact State.readCell_of_lookup _ _ _
      ((s.powerOff.insertCartridge number c).mmu.loadRom_rom0_lookup image c j hj (by omega))
  · exact State.readCell_of_lookup _ _ _
      ((s.powerOff.insertCartridge number c).mmu.loadRom_rom1_lookup image c k j hl hk hj)

/-! ### The kept ERAM (20_memory.md R75) -/

/-- The byte an array of the cartridge with that number holds: the listed one, or the free value that lasts with the
cartridge. -/
def keptByte (m : Memory) (number i : Nat) : Byte := (m.lookup i).getD (Config.ramInit (.cartridge number) .eram i)

theorem State.readCell_eram (s : State) (i : Nat) (h : s.persistent = true) :
    s.readCell ⟨.eram, i⟩ = keptByte s.mmu.eram s.slot i := by
  have hv : s.volatileStore .eram = false := by simp only [State.volatileStore, h, Bool.not_true]
  simp only [State.readCell, State.unwrittenByte, hv, keptByte]
  show (match s.mmu.eram.lookup i with | some v => v | none => _) = _
  cases s.mmu.eram.lookup i <;> rfl

theorem State.persistent_of_cart {s : State} {c : Cartridge} (h : s.cart = some c) : s.persistent = c.persistent := by
  simp only [State.persistent, h]

theorem State.resetCore_eram (s : State) (h : s.persistent = true) : s.resetCore.mmu.eram = s.mmu.eram := by
  show (if s.persistent = true then s.mmu.eram else {}) = _
  rw [if_pos h]

/-- The ERAM after a power-on is what was kept for the cartridge, as far as its size reaches. -/
theorem State.powerOn_readCell_eram (s : State) (number : Nat) (image : List Byte) (d : Cartridge) (i : Nat)
    (hi : initCartridge image = .ok d) (hl : d.romBanks * 0x4000 ≤ image.length) (hp : d.persistent = true)
    (hm : (s.powerOff.keptArray number).wf = true) (hd : i < d.ramBanks * 0x2000) :
    (s.powerOn number image).readCell ⟨.eram, i⟩ = keptByte (s.powerOff.keptArray number) number i := by
  have hc : (s.powerOn number image).cart = some d ∧ (s.powerOn number image).slot = number := by
    rw [s.powerOn_ok number image d hi hl]; exact ⟨rfl, rfl⟩
  rw [State.readCell_eram _ _ ((State.persistent_of_cart hc.1).trans hp), hc.2, s.powerOn_eram number image d hi hl,
    if_pos hp, keptByte, Memory.lookup_restrict _ _ _ hm hd]
  rfl

/-- A session with one cartridge leaves what is kept for every other one. -/
theorem State.powerOn_keptArray_other (s : State) (number k : Nat) (image : List Byte) (h : k ≠ number) :
    (s.powerOn number image).powerOff.keptArray k = s.powerOff.keptArray k := by
  rw [State.powerOff_keptArray (s.powerOn number image)]
  cases hi : initCartridge image with
  | error e => rw [s.powerOn_initError number image e hi]; rfl
  | ok c =>
    have hk := s.powerOff.insertCartridge_keptArray number k c h
    by_cases hl : image.length < c.romBanks * 0x4000
    · rw [s.powerOn_short number image c hi hl, if_neg (fun hn => h hn.2)]
      exact ((s.powerOff.insertCartridge number c).powerOff_keptArray k).trans ((if_neg (fun hn => h hn.2)).trans hk)
    · rw [s.powerOn_ok number image c hi (Nat.not_lt.1 hl), if_neg (fun hn => h hn.2)]
      exact hk

/-- Settles O55: power-off keeps a persistent array under the number of its cartridge, and the next power-on with that
number finds it. -/
theorem persistentRamSurvives : Obligations.PersistentRamSurvives := by
  refine ⟨fun s c i hc hp => ?_, fun s image c d i hc hp hm hi hl hd _ hid => ?_, fun s c hc hp => ?_,
    fun s number image d hi hl hd => ?_⟩
  · have hs : s.persistent = true := (State.persistent_of_cart hc).trans hp
    rw [s.readCell_eram i hs, State.readCell_eram s.resetCore i hs, s.resetCore_eram hs]
    rfl
  · have hs : s.persistent = true := (State.persistent_of_cart hc).trans hp
    have again : ∀ u : State, u.powerOff.keptArray s.slot = s.mmu.eram →
        (u.powerOn s.slot image).readCell ⟨.eram, i⟩ = s.readCell ⟨.eram, i⟩ := fun u hu => by
      rw [u.powerOn_readCell_eram s.slot image d i hi hl hd (hu ▸ hm) hid, hu, s.readCell_eram i hs]
    have kept : s.powerOff.keptArray s.slot = s.mmu.eram := by rw [s.powerOff_keptArray, if_pos ⟨hs, rfl⟩]
    refine ⟨again s kept, again s.powerOff ?_, fun number other hn => again _ ?_⟩
    · exact (s.powerOff.powerOff_keptArray s.slot).trans kept
    · rw [s.powerOn_keptArray_other number s.slot other hn.symm, kept]
  · have hs : s.persistent = false := (State.persistent_of_cart hc).trans hp
    exact ⟨rfl, by rw [State.powerOff_shelf, hs]; rfl⟩
  · rw [s.powerOn_eram number image d hi hl, hd]
    rfl

end Sys2Proof.Machine
end

section
/-! SUPPORT. The encoding both ways: what the decoder gives for the bytes of an instruction, the bytes of what each cell of
the opcode matrices names, and the length list. -/

namespace Sys2Proof

/-- Every byte has three fields in their ranges (30_encoding.md R123). -/
theorem exists_opByte (op : Byte) : ∃ x y z, x < 4 ∧ y < 8 ∧ z < 8 ∧ op = opByte x y z :=
  ⟨fieldX op, fieldY op, fieldZ op, by unfold fieldX; omega, Nat.mod_lt _ (by decide), Nat.mod_lt _ (by decide),
    (opByte_fields op).symm⟩

/-! ### From an instruction to its bytes and back -/

theorem decode_encodeNN (op : Byte) (nn : Word) (f : Word → Instr) (rest : List Byte) (h : decodeOp op = .opNN f) :
    decode (encodeNN op nn ++ rest) = .ok (f nn, rest) :=
  (decode_opNN op _ _ f rest h).trans (by rw [immWord_low_high])

theorem decode_encodeCb (x y z : Nat) (i : Instr) (rest : List Byte) (h : decodeCb (opByte x y z) = i) :
    decode (encodeCb x y z ++ rest) = .ok (i, rest) := h ▸ decode_cb _ rest

/-- The opcodes of RST: `y` is the number of the vector (47_control.md R301). -/
theorem decodeOp_rst {y : Nat} (hy : y < 8) : decodeOp (opByte 3 y 7) = .op (.rst (BitVec.ofNat 16 (8 * y))) := by
  rw [decodeOp, fieldX_opByte 3 y 7 (by decide) hy (by decide), fieldY_opByte 3 y 7 (by decide) hy (by decide),
    fieldZ_opByte 3 y 7 (by decide) hy (by decide)]
  rfl

/-- The targets of RST and the numbers of their vectors. -/
theorem rstTargetOk_iff (t : Word) : rstTargetOk t = true ↔ ∃ y, y < 8 ∧ t = BitVec.ofNat 16 (8 * y) := by
  simp only [rstTargetOk, Bool.and_eq_true, decide_eq_true_eq]
  constructor
  · rintro ⟨hm, hl⟩
    exact ⟨t.toNat / 8, by omega, BitVec.eq_of_toNat_eq (by rw [BitVec.toNat_ofNat]; omega)⟩
  · rintro ⟨y, hy, rfl⟩
    rw [BitVec.toNat_ofNat]; omega

theorem decode_encode_rst {t : Word} (ht : rstTargetOk t = true) (rest : List Byte) :
    decode (encode (.rst t) ++ rest) = .ok (.rst t, rest) := by
  obtain ⟨y, hy, rfl⟩ := (rstTargetOk_iff t).1 ht
  have hd : (BitVec.ofNat 16 (8 * y)).toNat / 8 = y := by rw [BitVec.toNat_ofNat]; omega
  have hv := decodeOp_rst hy
  rw [← hd] at hv
  exact (decode_op _ _ rest hv).trans (by rw [hd])

/-- One case for each format and kind of operand field. -/
theorem decode_encode (i : Instr) (rest : List Byte) (hw : i.wellFormed = true) (hi : i ≠ .prefixCb) :
    decode (encode i ++ rest) = .ok (i, rest) := by
  cases i
  case prefixCb => exact absurd rfl hi
  case rst t => exact decode_encode_rst hw rest
  case bitR b r | resR b r | setR b r =>
    have hb : b < 8 := of_decide_eq_true hw
    exact decode_encodeCb _ _ _ _ rest
      (by simp [decodeCb, fieldX_opByte, fieldY_opByte, fieldZ_opByte, hb, r.code_lt])
  case bitHl b | resHl b | setHl b =>
    have hb : b < 8 := of_decide_eq_true hw
    exact decode_encodeCb _ _ _ _ rest
      (by simp [decodeCb, fieldX_opByte, fieldY_opByte, fieldZ_opByte, reg8Of, hb])
  case rlcR r | rrcR r | rlR r | rrR r | slaR r | sraR r | swapR r | srlR r =>
    exact decode_encodeCb _ _ _ _ rest (by cases r <;> rfl)
  case rlcHl | rrcHl | rlHl | rrHl | slaHl | sraHl | swapHl | srlHl =>
    exact decode_encodeCb _ _ _ _ rest rfl
  case ldRR dst src => exact decode_op _ _ rest (by cases dst <;> cases src <;> rfl)
  case incR r | decR r | ldRHl r | ldHlR r | addAR r | adcAR r | subR r | sbcAR r | andR r | xorR r | orR r | cpR r =>
    exact decode_op _ _ rest (by cases r <;> rfl)
  case incRr rr | decRr rr | addHlRr rr => exact decode_op _ _ rest (by cases rr <;> rfl)
  case popRr q | pushRr q => exact decode_op _ _ rest (by cases q <;> rfl)
  case retCc cc => exact decode_op _ _ rest (by cases cc <;> rfl)
  case nop | ldBcA | ldDeA | ldHlIncA | ldHlDecA | ldABc | ldADe | ldAHlInc | ldAHlDec | incHl | decHl | rlca | rrca |
      rla | rra | daa | cpl | scf | ccf | halt | addAHl | adcAHl | subHl | sbcAHl | andHl | xorHl | orHl | cpHl | popAf |
      pushAf | ret | reti | ldCA | jpHl | ldAC | di | ldSpHl | ei | unknownD3 | unknownDB | unknownDD | unknownE3 |
      unknownE4 | unknownEB | unknownEC | unknownED | unknownF4 | unknownFC | unknownFD =>
    exact decode_op _ _ rest rfl
  case ldRN r n => exact decode_opN _ n (.ldRN r) rest (by cases r <;> rfl)
  case jrCcE cc e => exact decode_opN _ e (.jrCcE cc) rest (by cases cc <;> rfl)
  case ldHlN n | stop n | jrE n | addAN n | adcAN n | subN n | sbcAN n | andN n | xorN n | orN n | cpN n | ldhNA n |
      addSpE n | ldhAN n | ldHlSpE n =>
    exact decode_opN _ n _ rest rfl
  case ldRrNn rr nn => exact decode_encodeNN _ nn (.ldRrNn rr) rest (by cases rr <;> rfl)
  case jpCcNn cc nn => exact decode_encodeNN _ nn (.jpCcNn cc) rest (by cases cc <;> rfl)
  case callCcNn cc nn => exact decode_encodeNN _ nn (.callCcNn cc) rest (by cases cc <;> rfl)
  case ldNnSp nn | jpNn nn | callNn nn | ldNnA nn | ldANn nn => exact decode_encodeNN _ nn _ rest rfl

/-- Settles O1: `decode_encode`, and the row of the lone byte 0xCB by evaluation. -/
theorem decodeUndoesEncode : Obligations.DecodeUndoesEncode :=
  ⟨decode_encode, rfl⟩

/-! ### From bytes to an instruction and back -/

/-- The instruction is well formed and its encoding is these bytes. -/
def Instr.EncodedAs (i : Instr) (bytes : List Byte) : Prop := i.wellFormed = true ∧ encode i = bytes

/-- Whatever the operand bytes, the instruction the form gives is encoded as the first byte and these bytes. -/
inductive OpForm.Encodes : Byte → OpForm → Prop
  | op {op : Byte} {i : Instr} (h : i.EncodedAs [op]) : Encodes op (.op i)
  | opN {op : Byte} {f : Byte → Instr} (h : ∀ n, (f n).EncodedAs [op, n]) : Encodes op (.opN f)
  | opNN {op : Byte} {f : Word → Instr} (h : ∀ nn, (f nn).EncodedAs (encodeNN op nn)) : Encodes op (.opNN f)
  | cb : Encodes 0xCB .cb

/-- Table `r8` names a register or the byte at HL (30_encoding.md R124). -/
theorem Reg8.exists_code_or_six {n : Nat} (hn : n < 8) : (∃ r : Reg8, n = r.code) ∨ n = 6 := by
  interval_cases n
  exacts [.inl ⟨.b, rfl⟩, .inl ⟨.c, rfl⟩, .inl ⟨.d, rfl⟩, .inl ⟨.e, rfl⟩, .inl ⟨.h, rfl⟩, .inl ⟨.l, rfl⟩, .inr rfl,
    .inl ⟨.a, rfl⟩]

theorem aluRegOf_encodedAs (r : Reg8) {y : Nat} (hy : y < 8) : (aluRegOf r y).EncodedAs [opByte 2 y r.code] := by
  interval_cases y <;> exact ⟨rfl, rfl⟩

theorem aluHlOf_encodedAs {y : Nat} (hy : y < 8) : (aluHlOf y).EncodedAs [opByte 2 y 6] := by
  interval_cases y <;> exact ⟨rfl, rfl⟩

theorem aluImmOf_encodedAs (n : Byte) {y : Nat} (hy : y < 8) : (aluImmOf n y).EncodedAs [opByte 3 y 6, n] := by
  interval_cases y <;> exact ⟨rfl, rfl⟩

theorem rotateRegOf_encodedAs (r : Reg8) {y : Nat} (hy : y < 8) : (rotateRegOf r y).EncodedAs (encodeCb 0 y r.code) := by
  interval_cases y <;> exact ⟨rfl, rfl⟩

theorem rotateHlOf_encodedAs {y : Nat} (hy : y < 8) : (rotateHlOf y).EncodedAs (encodeCb 0 y 6) := by
  interval_cases y <;> exact ⟨rfl, rfl⟩

/-- The rows 0x to 3x of 30_encoding.md R132, column by column (the field `z`), each cell in its format. -/
theorem decodeX0_encodes {y z : Nat} (hy : y < 8) (hz : z < 8) : OpForm.Encodes (opByte 0 y z) (decodeX0 y z) := by
  interval_cases z
  · -- NOP, LD (nn),SP, STOP, JR e, JR cc,e
    interval_cases y
    exacts [.op ⟨rfl, rfl⟩, .opNN fun _ => ⟨rfl, rfl⟩, .opN fun _ => ⟨rfl, rfl⟩, .opN fun _ => ⟨rfl, rfl⟩,
      .opN fun _ => ⟨rfl, rfl⟩, .opN fun _ => ⟨rfl, rfl⟩, .opN fun _ => ⟨rfl, rfl⟩, .opN fun _ => ⟨rfl, rfl⟩]
  · -- LD rr,nn and ADD HL,rr by turns
    interval_cases y
    exacts [.opNN fun _ => ⟨rfl, rfl⟩, .op ⟨rfl, rfl⟩, .opNN fun _ => ⟨rfl, rfl⟩, .op ⟨rfl, rfl⟩,
      .opNN fun _ => ⟨rfl, rfl⟩, .op ⟨rfl, rfl⟩, .opNN fun _ => ⟨rfl, rfl⟩, .op ⟨rfl, rfl⟩]
  · -- loads of A through a pair
    interval_cases y <;> exact .op ⟨rfl, rfl⟩
  · -- INC rr and DEC rr by turns
    interval_cases y <;> exact .op ⟨rfl, rfl⟩
  · -- INC of the table `r8`
    interval_cases y <;> exact .op ⟨rfl, rfl⟩
  · -- DEC of the table `r8`
    interval_cases y <;> exact .op ⟨rfl, rfl⟩
  · -- LD of an immediate to the table `r8`
    interval_cases y <;> exact .opN fun _ => ⟨rfl, rfl⟩
  · -- the rotates of A, DAA, CPL, SCF, CCF
    interval_cases y <;> exact .op ⟨rfl, rfl⟩

theorem decodeX1_encodes {y z : Nat} (hy : y < 8) (hz : z < 8) : OpForm.Encodes (opByte 1 y z) (decodeX1 y z) := by
  obtain ⟨dst, rfl⟩ | rfl := Reg8.exists_code_or_six hy <;> obtain ⟨src, rfl⟩ | rfl := Reg8.exists_code_or_six hz
  · rw [decodeX1, reg8Of_code, reg8Of_code]; exact .op ⟨rfl, rfl⟩
  · rw [decodeX1, reg8Of_code]; exact .op ⟨rfl, rfl⟩
  · rw [decodeX1, reg8Of_code]; exact .op ⟨rfl, rfl⟩
  · exact .op ⟨rfl, rfl⟩

theorem decodeX2_encodes {y z : Nat} (hy : y < 8) (hz : z < 8) : OpForm.Encodes (opByte 2 y z) (decodeX2 y z) := by
  obtain ⟨r, rfl⟩ | rfl := Reg8.exists_code_or_six hz
  · rw [decodeX2, reg8Of_code]; exact .op (aluRegOf_encodedAs r hy)
  · exact .op (aluHlOf_encodedAs hy)

/-- The rows Cx to Fx of 30_encoding.md R132, column by column (the field `z`), each cell in its format. -/
theorem decodeX3_encodes {y z : Nat} (hy : y < 8) (hz : z < 8) : OpForm.Encodes (opByte 3 y z) (decodeX3 y z) := by
  interval_cases z
  · -- RET cc, LDH (n),A, ADD SP,e, LDH A,(n), LD HL,SP+e
    interval_cases y
    exacts [.op ⟨rfl, rfl⟩, .op ⟨rfl, rfl⟩, .op ⟨rfl, rfl⟩, .op ⟨rfl, rfl⟩, .opN fun _ => ⟨rfl, rfl⟩,
      .opN fun _ => ⟨rfl, rfl⟩, .opN fun _ => ⟨rfl, rfl⟩, .opN fun _ => ⟨rfl, rfl⟩]
  · -- POP, RET, RETI, JP HL, LD SP,HL
    interval_cases y <;> exact .op ⟨rfl, rfl⟩
  · -- JP cc,nn, LD (C),A, LD (nn),A, LD A,(C), LD A,(nn)
    interval_cases y
    exacts [.opNN fun _ => ⟨rfl, rfl⟩, .opNN fun _ => ⟨rfl, rfl⟩, .opNN fun _ => ⟨rfl, rfl⟩,
      .opNN fun _ => ⟨rfl, rfl⟩, .op ⟨rfl, rfl⟩, .opNN fun _ => ⟨rfl, rfl⟩, .op ⟨rfl, rfl⟩, .opNN fun _ => ⟨rfl, rfl⟩]
  · -- JP nn, the byte 0xCB, four unknown opcodes, DI, EI
    interval_cases y
    exacts [.opNN fun _ => ⟨rfl, rfl⟩, .cb, .op ⟨rfl, rfl⟩, .op ⟨rfl, rfl⟩, .op ⟨rfl, rfl⟩, .op ⟨rfl, rfl⟩,
      .op ⟨rfl, rfl⟩, .op ⟨rfl, rfl⟩]
  · -- CALL cc,nn, four unknown opcodes
    interval_cases y
    exacts [.opNN fun _ => ⟨rfl, rfl⟩, .opNN fun _ => ⟨rfl, rfl⟩, .opNN fun _ => ⟨rfl, rfl⟩,
      .opNN fun _ => ⟨rfl, rfl⟩, .op ⟨rfl, rfl⟩, .op ⟨rfl, rfl⟩, .op ⟨rfl, rfl⟩, .op ⟨rfl, rfl⟩]
  · -- PUSH, CALL nn, three unknown opcodes
    interval_cases y
    exacts [.op ⟨rfl, rfl⟩, .opNN fun _ => ⟨rfl, rfl⟩, .op ⟨rfl, rfl⟩, .op ⟨rfl, rfl⟩, .op ⟨rfl, rfl⟩,
      .op ⟨rfl, rfl⟩, .op ⟨rfl, rfl⟩, .op ⟨rfl, rfl⟩]
  · -- the ALU operations on an immediate
    exact .opN fun n => aluImmOf_encodedAs n hy
  · -- RST
    interval_cases y <;> exact .op ⟨rfl, rfl⟩

/-- Every cell of the base matrix, by its quarter (30_encoding.md R131, R132). -/
theorem decodeOp_encodes (op : Byte) : OpForm.Encodes op (decodeOp op) := by
  obtain ⟨x, y, z, hx, hy, hz, rfl⟩ := exists_opByte op
  rw [decodeOp, fieldX_opByte x y z hx hy hz, fieldY_opByte x y z hx hy hz, fieldZ_opByte x y z hx hy hz]
  interval_cases x
  exacts [decodeX0_encodes hy hz, decodeX1_encodes hy hz, decodeX2_encodes hy hz, decodeX3_encodes hy hz]

/-- Every second byte of a two-byte opcode, by its quarter and the operand of `z` (30_encoding.md R129, R133). -/
theorem decodeCb_encodedAs (op2 : Byte) : (decodeCb op2).EncodedAs [0xCB, op2] := by
  obtain ⟨x, y, z, hx, hy, hz, rfl⟩ := exists_opByte op2
  have hb : bitIndexOk y = true := decide_eq_true hy
  rw [decodeCb, fieldX_opByte x y z hx hy hz, fieldY_opByte x y z hx hy hz, fieldZ_opByte x y z hx hy hz]
  obtain ⟨r, rfl⟩ | rfl := Reg8.exists_code_or_six hz
  · rw [reg8Of_code]
    interval_cases x
    exacts [rotateRegOf_encodedAs r hy, ⟨hb, rfl⟩, ⟨hb, rfl⟩, ⟨hb, rfl⟩]
  · interval_cases x
    exacts [rotateHlOf_encodedAs hy, ⟨hb, rfl⟩, ⟨hb, rfl⟩, ⟨hb, rfl⟩]

theorem encodeNN_immWord (op lo hi : Byte) : encodeNN op (immWord lo hi) = [op, lo, hi] := by
  simp only [encodeNN, immWord, Machine.lowByte_append, Machine.highByte_append]

/-- Settles O2: `decodeOp_encodes` for the first byte, one case for each format of R122; a list too short does not
decode. -/
theorem encodeUndoesDecode : Obligations.EncodeUndoesDecode := by
  intro bytes rest i h
  obtain _ | ⟨op, tail⟩ := bytes
  · cases h
  have he := decodeOp_encodes op
  suffices ∃ operands, i.EncodedAs (op :: operands) ∧ operands ++ rest = tail by
    obtain ⟨operands, ⟨hw, hb⟩, rfl⟩ := this
    exact ⟨hw, by rw [hb]; rfl⟩
  simp only [decode] at h
  generalize decodeOp op = form at he h
  cases he with
  | op he => cases h; exact ⟨[], he, rfl⟩
  | opN he =>
    match tail, h with
    | n :: _, rfl => exact ⟨[n], he n, rfl⟩
  | opNN he =>
    match tail, h with
    | lo :: hi :: _, rfl => exact ⟨[lo, hi], encodeNN_immWord op lo hi ▸ he (immWord lo hi), rfl⟩
  | cb =>
    match tail, h with
    | [], rfl => exact ⟨[], ⟨rfl, rfl⟩, rfl⟩
    | op2 :: _, rfl => exact ⟨[op2], decodeCb_encodedAs op2, rfl⟩

/-! ### The length -/

theorem instrLength_bounds (op : Byte) : 1 ≤ instrLength op ∧ instrLength op ≤ 3 := by
  unfold instrLength
  split <;> decide

/-- With the operand bytes its first byte asks for, a list decodes. -/
theorem decode_of_length {op : Byte} {operands : List Byte} (rest : List Byte)
    (h : operands.length + 1 = instrLength op) : ∃ i, decode (op :: operands ++ rest) = .ok (i, rest) := by
  unfold instrLength at h
  cases hf : decodeOp op with
  | op i =>
    rw [hf] at h
    obtain rfl := List.eq_nil_of_length_eq_zero (Nat.succ.inj h)
    exact ⟨i, decode_op op i rest hf⟩
  | opN f =>
    rw [hf] at h
    obtain ⟨n, rfl⟩ := List.length_eq_one_iff.1 (Nat.succ.inj h)
    exact ⟨f n, decode_opN op n f rest hf⟩
  | opNN f =>
    rw [hf] at h
    obtain ⟨lo, hi, rfl⟩ := List.length_eq_two.1 (Nat.succ.inj h)
    exact ⟨f (immWord lo hi), decode_opNN op lo hi f rest hf⟩
  | cb =>
    rw [hf] at h
    obtain ⟨op2, rfl⟩ := List.length_eq_one_iff.1 (Nat.succ.inj h)
    obtain rfl := decodeOp_cb op hf
    exact ⟨decodeCb op2, decode_cb op2 rest⟩

/-- Settles O5: the list decodes, and what it decodes to is well formed by O2. -/
theorem everyOpcodeDecodes : Obligations.EveryOpcodeDecodes := by
  intro op operands rest h
  obtain ⟨i, hd⟩ := decode_of_length rest h
  exact ⟨instrLength_bounds op, i, hd, (encodeUndoesDecode _ _ _ hd).1⟩

set_option maxRecDepth 4000 in
/-- Settles O4: the 256 first bytes, each by evaluation. -/
theorem instructionLengthList : Obligations.InstructionLengthList :=
  Machine.forall_byte (by decide)

end Sys2Proof
end

section
/-! SUPPORT. One step as fetch, instruction and end of call, and the host's turn before it. -/

namespace Sys2Proof.Machine

/-- The host's actions one after the other, as a fold. -/
theorem State.applyActions_eq_foldl (s : State) (acts : List HostAction) :
    s.applyActions acts = acts.foldl State.applyAction s := by
  induction acts generalizing s with
  | nil => rfl
  | cons act rest ih => exact ih (s.applyAction act)

theorem State.hostTurn_nil {s : State} (h : s.host = []) : s.hostTurn = s := by simp only [State.hostTurn, h]

theorem State.hostTurn_cons {s : State} {batch : List HostAction} {rest : List (List HostAction)}
    (h : s.host = batch :: rest) : s.hostTurn = batch.foldl State.applyAction { s with host := rest } := by
  simp only [State.hostTurn, h, State.applyActions_eq_foldl]

/-- A byte of I/O after the host wrote one (20_memory.md R91). -/
theorem State.applyAction_writeIo_readCell (s : State) (offset : BitVec 7) (v : Byte) (k : Nat) :
    (s.applyAction (.writeIo offset v)).readCell ⟨.io, k⟩ =
      if k = offset.toNat then v else s.readCell ⟨.io, k⟩ := by
  split
  · next hk => subst hk; exact s.readCell_writeCell_same (ioCell offset) v
  · next hk => exact s.readCell_writeCell_other (ioCell offset) ⟨.io, k⟩ v fun h => hk (congrArg Cell.index h)

/-- A running machine with no request pending runs the instruction at PC (60_exceptions.md R329). -/
theorem execute_running {s : State} {i : Instr} (hc : s.cart.isSome = true) (hh : s.cpu.halted = false)
    (hp : ¬ s.requestPending) (hd : decode s.nextBytes = .ok (i, [])) : execute s = finishCall i s.afterFetch := by
  rw [execute_loaded s hc, if_neg (s.requestPending_iff.not.1 hp), if_neg (Bool.eq_false_iff.1 hh),
    runInstruction_running s i hh hd]

/-- Settles O43: `execute_running` after the host's turn; each port is its record update by definition. -/
theorem stepRunsTheDecodedInstruction : Obligations.StepRunsTheDecodedInstruction := by
  refine ⟨fun s u i hu hc hh hp hd => ?_, fun s => State.hostTurn_nil, fun s batch rest => State.hostTurn_cons,
    fun s i locked offset v number image => ⟨rfl, rfl, rfl, rfl, s.applyAction_writeIo_readCell offset v, rfl, rfl, rfl⟩⟩
  subst hu
  rw [step, execute_running hc hh hp hd, finishCall]
  cases exec i s.hostTurn.afterFetch with
  | next t => rfl
  | fault e => rfl
  | refused e => rfl

end Sys2Proof.Machine
end

section
/-! SUPPORT. The load group `LD r,r'`, `LD r,(HL)`, `LD (HL),r` (40_ld_r_r.md): what each gives, its opcode and its
cycles. -/

namespace Sys2Proof

open Machine

/-! ### Cycles -/

/-- A call takes 4 cycles for each byte of the instruction and what `exec` adds to the count (00_scope.md R14). -/
theorem Instr.takes_of_exec {i : Instr} {s t : State} {k n : Nat} (h : exec i s = .next t)
    (ht : t.cycles = s.cycles + k) (hn : 4 * (encode i).length + k = n) : i.takes s n := by
  intro hs u hu
  obtain rfl := Host.Outcome.next.inj (h.symm.trans hu)
  rw [ht, hs, hn]

/-! ### Results -/

theorem Machine.exec_ldRR (dst src : Reg8) (s : State) :
    exec (.ldRR dst src) s = .next (s.setReg8 dst (s.reg8 src)) := rfl

theorem Machine.State.tick_setReg8 (s : State) (r : Reg8) (v : Byte) :
    s.tick.setReg8 r v = { s.setReg8 r v with cycles := s.cycles + 4 } := by cases r <;> rfl

/-- The byte is read before the register changes, so HL is the one of `s` even where the destination is H or L. -/
theorem Machine.exec_ldRHl (r : Reg8) (s : State) :
    exec (.ldRHl r) s = .next { s.setReg8 r (s.readByte s.hl) with cycles := s.cycles + 4 } :=
  congrArg Host.Outcome.next (s.tick_setReg8 r (s.readByte s.hl))

theorem Machine.exec_ldHlR (r : Reg8) (s : State) :
    exec (.ldHlR r) s = .next { s.writeByte s.hl (s.reg8 r) with cycles := s.cycles + 4 } :=
  congrArg Host.Outcome.next (s.memWrite_eq s.hl (s.reg8 r))

/-! ### Opcodes -/

/-- An opcode byte by its number. -/
theorem opByte_eq_ofNat {x y z n : Nat} (h : 64 * x + 8 * y + z = n) : opByte x y z = BitVec.ofNat 8 n :=
  congrArg (BitVec.ofNat 8) h

theorem encode_ldRR (dst src : Reg8) :
    encode (.ldRR dst src) = [BitVec.ofNat 8 (0x40 + 8 * dst.code + src.code)] :=
  congrArg List.singleton (opByte_eq_ofNat (by omega))

theorem encode_ldRHl (r : Reg8) : encode (.ldRHl r) = [BitVec.ofNat 8 (0x46 + 8 * r.code)] :=
  congrArg List.singleton (opByte_eq_ofNat (by omega))

theorem encode_ldHlR (r : Reg8) : encode (.ldHlR r) = [BitVec.ofNat 8 (0x70 + r.code)] :=
  congrArg List.singleton (opByte_eq_ofNat (by omega))

/-! ### The statements of the family -/

/-- Settles O8: the result and the opcode of each load, and its cycles, one byte fetched and none or one accessed. -/
theorem loadRegisterGroup : Obligations.LoadRegisterGroup := fun s dst src =>
  ⟨⟨exec_ldRR dst src s, encode_ldRR dst src,
      Instr.takes_of_exec (k := 0) (exec_ldRR dst src s) (s.setReg8_cycles dst _) rfl⟩,
    ⟨exec_ldRHl dst s, encode_ldRHl dst, Instr.takes_of_exec (exec_ldRHl dst s) rfl rfl⟩,
    ⟨exec_ldHlR src s, encode_ldHlR src, Instr.takes_of_exec (exec_ldHlR src s) rfl rfl⟩⟩

/-- Settles O3: the decoder evaluated on each of the nineteen words. -/
theorem writtenOutWordsDecode : Obligations.WrittenOutWordsDecode :=
  ⟨rfl, rfl, rfl, rfl, rfl, rfl, rfl, rfl, rfl, rfl, rfl, rfl, rfl, rfl, rfl, rfl, rfl, rfl, rfl⟩

end Sys2Proof
end

section
/-! SUPPORT. The 8-bit ALU (41_alu_a.md): what each shared operation gives in either mode of `FLAG_SOURCE`, in terms of
the manual's arithmetic. Each instruction is its operation on one operand; with the byte at HL, on the state one access
later. -/

namespace Sys2Proof.Machine

/-! ### The operations on A where the flags come from the operands -/

section
variable {s : State} (hf : s.params.flagSource = .operands)
include hf

theorem withOperandFlags_operands (run : Outcome) : withOperandFlags s run = run := by
  simp only [withOperandFlags, hf]

theorem aluAdd_operands (v : Byte) (c : Bool) : aluAdd v c s = .next (s.withAluResult
    (sumByte s.cpu.a.toNat v.toNat c.toNat) (sumFlags s.cpu.a.toNat v.toNat c.toNat)) := by
  rw [aluAdd, withOperandFlags_operands hf, addResult_eq, addFlags_eq]
  rfl

theorem aluAddRegister_operands (v : Byte) : aluAddRegister v s = .next (s.withAluResult
    (sumByte s.cpu.a.toNat v.toNat 0) (sumFlags s.cpu.a.toNat v.toNat 0)) := by
  rw [aluAddRegister, hf, addResult_eq, addFlags_eq]
  rfl

theorem aluSub_operands (v : Byte) (c : Bool) : aluSub v c s = .next (s.withAluResult
    (differenceByte s.cpu.a.toNat v.toNat c.toNat) (differenceFlags s.cpu.a.toNat v.toNat c.toNat)) := by
  rw [aluSub, withOperandFlags_operands hf, subResult_eq, subFlags_eq]
  rfl

/-- CP writes A back as it was (41_alu_a.md R183). -/
theorem aluCp_operands (v : Byte) : aluCp v s = .next (s.withAluResult s.cpu.a
    { differenceFlags s.cpu.a.toNat v.toNat 0 with z := decide (s.cpu.a.toNat = v.toNat) }) := by
  rw [aluCp, withOperandFlags_operands hf, compareFlags_eq]
  rfl

end

/-! ### The operations on A under `post_result` (41_alu_a.md R186) -/

section
variable {s : State} (hf : s.params.flagSource = .postResult)
include hf

theorem withOperandFlags_postResult (run : Outcome) : withOperandFlags s run = .refused .flagSourcePostResult := by
  simp only [withOperandFlags, hf]

theorem aluAdd_postResult (v : Byte) (c : Bool) : aluAdd v c s = .refused .flagSourcePostResult :=
  withOperandFlags_postResult hf _

theorem aluSub_postResult (v : Byte) (c : Bool) : aluSub v c s = .refused .flagSourcePostResult :=
  withOperandFlags_postResult hf _

theorem aluCp_postResult (v : Byte) : aluCp v s = .refused .flagSourcePostResult :=
  withOperandFlags_postResult hf _

end

theorem toNat_addResult_false (a v : Byte) : (addResult a v false).toNat = (a.toNat + v.toNat) % 256 := by
  rw [addResult_eq]
  exact BitVec.toNat_ofNat ..

/-- The carry helpers see the result in place of A (41_alu_a.md R186). -/
theorem addFlagsPostResult_eq (a v : Byte) : addFlagsPostResult a v =
    { z := decide ((a.toNat + v.toNat) % 256 = 0)
      n := false
      h := decide ((a.toNat + v.toNat) % 256 % 16 + v.toNat % 16 > 0xF)
      cy := decide ((a.toNat + v.toNat) % 256 + v.toNat > 0xFF) } := by
  simp only [addFlagsPostResult, half8, carry8, lowNibble, ← BitVec.toNat_inj, toNat_addResult_false]
  rfl

theorem aluAddRegister_postResult {s : State} (hf : s.params.flagSource = .postResult) (v : Byte) :
    aluAddRegister v s =
      .next (s.withAluResult (sumByte s.cpu.a.toNat v.toNat 0) (addFlagsPostResult s.cpu.a v)) := by
  rw [aluAddRegister, hf, addResult_eq]
  rfl

/-! ### The logical operations, in either mode -/

theorem logicFlags_eq (logicN h : Bool) (res : Byte) :
    logicFlags logicN h res = { z := decide (res.toNat = 0), n := logicN, h := h, cy := false } := by
  simp only [logicFlags, ← BitVec.toNat_inj]
  rfl

theorem aluAnd_eq (v : Byte) (s : State) : aluAnd v s = .next (s.withAluResult (s.cpu.a &&& v)
    { z := decide ((s.cpu.a &&& v).toNat = 0), n := s.params.logicN, h := true, cy := false }) := by
  rw [aluAnd, logicFlags_eq]
  rfl

theorem aluXor_eq (v : Byte) (s : State) : aluXor v s = .next (s.withAluResult (s.cpu.a ^^^ v)
    { z := decide ((s.cpu.a ^^^ v).toNat = 0), n := s.params.logicN, h := false, cy := false }) := by
  rw [aluXor, logicFlags_eq]
  rfl

theorem aluOr_eq (v : Byte) (s : State) : aluOr v s = .next (s.withAluResult (s.cpu.a ||| v)
    { z := decide ((s.cpu.a ||| v).toNat = 0), n := s.params.logicN, h := false, cy := false }) := by
  rw [aluOr, logicFlags_eq]
  rfl

end Sys2Proof.Machine

namespace Sys2Proof

open Machine

/-! ### Opcodes -/

theorem encode_addAR (r : Reg8) : encode (.addAR r) = [BitVec.ofNat 8 (0x80 + r.code)] :=
  congrArg List.singleton (opByte_eq_ofNat (by omega))

theorem encode_subR (r : Reg8) : encode (.subR r) = [BitVec.ofNat 8 (0x90 + r.code)] :=
  congrArg List.singleton (opByte_eq_ofNat (by omega))

/-! ### The statements of the family -/

/-- Settles O11: the sums and differences of the shared operations, and 4 cycles for the opcode and for an access. -/
theorem addAndSubtract : Obligations.AddAndSubtract := by
  intro s r hf
  have ht : s.tick.params.flagSource = .operands := hf
  have hAddR := aluAddRegister_operands hf (s.reg8 r)
  have hAddHl := aluAdd_operands ht (s.readByte s.hl) false
  have hSubR := aluSub_operands hf (s.reg8 r) false
  have hSubHl := aluSub_operands ht (s.readByte s.hl) false
  exact ⟨⟨hAddR, encode_addAR r, Instr.takes_of_exec (k := 0) hAddR rfl rfl⟩,
    ⟨hAddHl, rfl, Instr.takes_of_exec hAddHl rfl rfl⟩,
    ⟨hSubR, encode_subR r, Instr.takes_of_exec (k := 0) hSubR rfl rfl⟩,
    ⟨hSubHl, rfl, Instr.takes_of_exec hSubHl rfl rfl⟩⟩

/-- Settles O12: each instruction is a shared operation with its operand and its carry-in. -/
theorem carryChainCompareAndImmediates : Obligations.CarryChainCompareAndImmediates := by
  intro s r n hf
  have ht : s.tick.params.flagSource = .operands := hf
  let v := s.reg8 r
  let m := s.readByte s.hl
  let c := s.cpu.flags.cy
  exact ⟨aluAdd_operands hf v c, aluAdd_operands ht m c, aluAdd_operands hf n c,
    aluSub_operands hf v c, aluSub_operands ht m c, aluSub_operands hf n c,
    aluAdd_operands hf n false, aluSub_operands hf n false,
    aluCp_operands hf v, aluCp_operands ht m, aluCp_operands hf n⟩

/-- Settles O13: no carry helper takes part, so the mode of `FLAG_SOURCE` does not matter. -/
theorem logicalOperations : Obligations.LogicalOperations := fun s r n =>
  ⟨aluAnd_eq (s.reg8 r) s, aluAnd_eq (s.readByte s.hl) s.tick, aluAnd_eq n s,
    aluXor_eq (s.reg8 r) s, aluXor_eq (s.readByte s.hl) s.tick, aluXor_eq n s,
    aluOr_eq (s.reg8 r) s, aluOr_eq (s.readByte s.hl) s.tick, aluOr_eq n s⟩

/-- Settles O14: `ADD A,r` by `addFlagsPostResult_eq`; every other user of the carry helpers is refused with its shared
operation. -/
theorem postResultFlagMode : Obligations.PostResultFlagMode := by
  intro s r n hf
  have ht : s.tick.params.flagSource = .postResult := hf
  have hAddR := aluAddRegister_postResult hf (s.reg8 r)
  rw [addFlagsPostResult_eq] at hAddR
  refine ⟨hAddR, ?_⟩
  simp only [List.forall_mem_cons]
  exact ⟨aluAdd_postResult ht _ _, aluAdd_postResult hf _ _, aluAdd_postResult hf _ _, aluAdd_postResult ht _ _,
    aluAdd_postResult hf _ _, aluSub_postResult hf _ _, aluSub_postResult ht _ _, aluSub_postResult hf _ _,
    aluSub_postResult hf _ _, aluSub_postResult ht _ _, aluSub_postResult hf _ _, aluCp_postResult hf _,
    aluCp_postResult ht _, aluCp_postResult hf _, List.forall_mem_nil _⟩

end Sys2Proof
end

section
/-! SUPPORT. The group behind 0xCB (42_cb_group.md): the rotates and shifts of a register and of the byte at HL by their
arithmetic, the bit operations as sums of disjoint bits, and the table's row of the byte 0xCB. -/

namespace Sys2Proof.Machine

/-! ### The row of the byte 0xCB (42_cb_group.md R190) -/

theorem exec_prefixCb (s : State) : exec .prefixCb s = exec (decodeCb (s.readByte s.cpu.pc))
    { s with cpu := { s.cpu with pc := s.cpu.pc + 1 }, cycles := s.cycles + 4 } := runSecondByte_eq _ _

theorem exec_rotateRegOf (r : Reg8) (y : Nat) (s : State) :
    ∃ op, exec (rotateRegOf r y) s = .next (rotateRegister op r s) := by
  unfold rotateRegOf
  split <;> exact ⟨_, rfl⟩

theorem exec_rotateHlOf (y : Nat) (s : State) : ∃ op, exec (rotateHlOf y) s = .next (rotateAtHl op s) := by
  unfold rotateHlOf
  split <;> exact ⟨_, rfl⟩

/-- No second byte selects a user of the carry helpers, so `FLAG_SOURCE` does not matter (41_alu_a.md R186). -/
theorem exec_decodeCb_completes (op2 : Byte) (s : State) : ∃ t, exec (decodeCb op2) s = .next t := by
  unfold decodeCb
  dsimp only
  split
  · obtain ⟨op, h⟩ := exec_rotateRegOf _ _ s; exact ⟨_, h⟩
  · obtain ⟨op, h⟩ := exec_rotateHlOf _ s; exact ⟨_, h⟩
  all_goals exact ⟨_, rfl⟩

/-- Settles O19: the pair of bytes decodes by the table of second bytes, and every entry of it completes. -/
theorem prefixByteRunsTheSecondByte : Obligations.PrefixByteRunsTheSecondByte := by
  intro s
  rw [exec_prefixCb]
  refine ⟨fun i h => ?_, exec_decodeCb_completes _ _⟩
  rw [decode_cb] at h
  cases h
  rw [ofNat_add_word]
  rfl

/-! ### The two operations on the byte at HL: a read, a write, two accesses -/

theorem modifyAtHl_eq (op : Byte → Byte) (s : State) : modifyAtHl op s =
    { s.writeByte s.hl (op (s.readByte s.hl)) with cycles := s.cycles + 8 } := s.tick_memWrite_eq _ _

theorem rotateAtHl_eq (op : Byte → Byte × Bool) (s : State) : rotateAtHl op s =
    State.setFlags { s.writeByte s.hl (op (s.readByte s.hl)).1 with cycles := s.cycles + 8 }
      (shiftFlags (op (s.readByte s.hl)).1 (op (s.readByte s.hl)).2) :=
  congrArg (State.setFlags · _) (s.tick_memWrite_eq _ _)

/-! ### Rotates and shifts -/

/-- Z of a byte given by its number. -/
theorem shiftFlags_ofNat {res : Nat} (h : res < 256) (out : Bool) : shiftFlags (BitVec.ofNat 8 res) out =
    { z := decide (res = 0), n := false, h := false, cy := out } := by
  simp only [shiftFlags, ← BitVec.toNat_inj, BitVec.toNat_ofNat, Nat.mod_eq_of_lt h]
  rfl

/-- On the byte `v` the operation gives the byte `res` and shifts `out` out. -/
structure ShiftsTo (op : Byte → Byte × Bool) (v : Byte) (res : Nat) (out : Bool) : Prop where
  result : op v = (BitVec.ofNat 8 res, out)
  res_lt : res < 256

section
variable {op : Byte → Byte × Bool} {s : State} {r : Reg8} {res : Nat} {out : Bool}

theorem ShiftsTo.register (h : ShiftsTo op (s.reg8 r) res out) :
    Host.Outcome.next (rotateRegister op r s) = (.next (s.withShifted r res out) : Outcome) := by
  rw [rotateRegister, h.result]
  dsimp only
  rw [shiftFlags_ofNat h.res_lt]
  rfl

theorem ShiftsTo.atHl (h : ShiftsTo op (s.readByte s.hl) res out) :
    Host.Outcome.next (rotateAtHl op s) = (.next (s.withShiftedAtHl res out) : Outcome) := by
  rw [rotateAtHl_eq, h.result, shiftFlags_ofNat h.res_lt]
  simp only [State.setFlags, State.writeByte_cpu, State.withShiftedAtHl]

end

theorem rotateLeft_shiftsTo (v : Byte) :
    ShiftsTo rotateLeft v (v.toNat * 2 % 256 + v.toNat / 128) (decide (v.toNat / 128 = 1)) :=
  ⟨rotateLeft_eq v, by omega⟩

theorem rotateRight_shiftsTo (v : Byte) :
    ShiftsTo rotateRight v (v.toNat / 2 + v.toNat % 2 * 128) (decide (v.toNat % 2 = 1)) :=
  ⟨rotateRight_eq v, by omega⟩

theorem rotateLeftCarry_shiftsTo (c : Bool) (v : Byte) :
    ShiftsTo (rotateLeftCarry c) v (v.toNat * 2 % 256 + c.toNat) (decide (v.toNat / 128 = 1)) :=
  ⟨rotateLeftCarry_eq c v, by have := c.toNat_le; omega⟩

theorem rotateRightCarry_shiftsTo (c : Bool) (v : Byte) :
    ShiftsTo (rotateRightCarry c) v (v.toNat / 2 + c.toNat * 128) (decide (v.toNat % 2 = 1)) :=
  ⟨rotateRightCarry_eq c v, by have := c.toNat_le; omega⟩

theorem shiftLeft_shiftsTo (v : Byte) : ShiftsTo shiftLeft v (v.toNat * 2 % 256) (decide (v.toNat / 128 = 1)) :=
  ⟨shiftLeft_eq v, by omega⟩

theorem shiftRightArith_shiftsTo (v : Byte) :
    ShiftsTo shiftRightArith v (v.toNat / 2 + v.toNat / 128 * 128) (decide (v.toNat % 2 = 1)) :=
  ⟨shiftRightArith_eq v, by omega⟩

theorem swapNibbles_shiftsTo (v : Byte) : ShiftsTo swapNibbles v (v.toNat % 16 * 16 + v.toNat / 16) false :=
  ⟨swapNibbles_eq v, by omega⟩

theorem shiftRight_shiftsTo (v : Byte) : ShiftsTo shiftRight v (v.toNat / 2) (decide (v.toNat % 2 = 1)) :=
  ⟨shiftRight_eq v, by omega⟩

/-- Settles O15: the arithmetic of each operation on the register's byte. -/
theorem shiftsOfRegisters : Obligations.ShiftsOfRegisters := fun _ _ =>
  ⟨(rotateLeft_shiftsTo _).register, (rotateRight_shiftsTo _).register, (rotateLeftCarry_shiftsTo _ _).register,
    (rotateRightCarry_shiftsTo _ _).register, (shiftLeft_shiftsTo _).register, (shiftRightArith_shiftsTo _).register,
    (swapNibbles_shiftsTo _).register, (shiftRight_shiftsTo _).register⟩

/-- Settles O16: the same arithmetic on the byte at HL. -/
theorem shiftsOfMemory : Obligations.ShiftsOfMemory := fun _ =>
  ⟨(rotateLeft_shiftsTo _).atHl, (rotateRight_shiftsTo _).atHl, (rotateLeftCarry_shiftsTo _ _).atHl,
    (rotateRightCarry_shiftsTo _ _).atHl, (shiftLeft_shiftsTo _).atHl, (shiftRightArith_shiftsTo _).atHl,
    (swapNibbles_shiftsTo _).atHl, (shiftRight_shiftsTo _).atHl⟩

/-! ### One bit of a byte -/

theorem bitFlags_eq (old : Flags) (b : Nat) (v : Byte) : bitFlags old b v =
    { z := decide (v.toNat / 2 ^ b % 2 = 0), n := false, h := true, cy := old.cy } := by
  have hz : (!v.getLsbD b) = decide (v.toNat / 2 ^ b % 2 = 0) := by
    rw [BitVec.getLsbD, Nat.testBit_eq_decide_div_mod_eq, ← decide_not, decide_eq_decide]
    omega
  rw [bitFlags, hz]

/-- Settles O17: the flags of the shared operation, on the state one access later for the byte at HL. -/
theorem bitTests : Obligations.BitTests := fun s b r _ =>
  ⟨congrArg (fun f => Host.Outcome.next (s.setFlags f)) (bitFlags_eq _ b (s.reg8 r)),
    congrArg (fun f => Host.Outcome.next (s.tick.setFlags f)) (bitFlags_eq _ b (s.readByte s.hl))⟩

theorem clearBit_and_mask (b : Nat) (v : Byte) : clearBit b v &&& 1#8 <<< b = 0#8 := by
  rw [clearBit, BitVec.and_assoc, BitVec.not_and_self]
  exact BitVec.and_zero

/-- A byte is the sum of what RES leaves of it and of its bit `b`. -/
theorem clearBit_add_and (b : Nat) (v : Byte) : clearBit b v + (v &&& 1#8 <<< b) = v := by
  have hd : clearBit b v &&& (v &&& 1#8 <<< b) = 0#8 := by
    rw [BitVec.and_comm v, ← BitVec.and_assoc, clearBit_and_mask, BitVec.zero_and]
  rw [BitVec.add_eq_or_of_and_eq_zero _ _ hd, clearBit, ← BitVec.and_or_distrib_left, BitVec.not_or_self,
    BitVec.and_allOnes]

/-- SET adds the bit `b` to what RES leaves. -/
theorem clearBit_add_mask (b : Nat) (v : Byte) : clearBit b v + 1#8 <<< b = setBit b v := by
  rw [BitVec.add_eq_or_of_and_eq_zero _ _ (clearBit_and_mask b v), clearBit, setBit]
  generalize 1#8 <<< b = m
  ext i hi
  cases hm : m[i] <;> simp [hm]

section
variable {b : Nat} (hb : b < 8) (v : Byte)
include hb

theorem toNat_bitMask : (1#8 <<< b).toNat = 2 ^ b := by
  rw [BitVec.toNat_shiftLeft, Nat.shiftLeft_eq, BitVec.toNat_ofNat, Nat.one_mod, Nat.one_mul]
  exact Nat.mod_eq_of_lt (Nat.pow_lt_pow_right Nat.one_lt_two hb)

theorem toNat_and_bitMask : (v &&& 1#8 <<< b).toNat = v.toNat / 2 ^ b % 2 * 2 ^ b := by
  rw [BitVec.toNat_and, toNat_bitMask hb, Nat.and_two_pow, Nat.toNat_testBit]

theorem toNat_clearBit : (clearBit b v).toNat = v.toNat - v.toNat / 2 ^ b % 2 * 2 ^ b := by
  have hs := congrArg BitVec.toNat (clearBit_add_and b v)
  have hle : (v &&& 1#8 <<< b).toNat ≤ v.toNat := by rw [BitVec.toNat_and]; exact Nat.and_le_left
  rw [BitVec.toNat_add] at hs
  rw [← toNat_and_bitMask hb]
  omega

theorem clearBit_eq : clearBit b v = BitVec.ofNat 8 (v.toNat - v.toNat / 2 ^ b % 2 * 2 ^ b) := by
  rw [← toNat_clearBit hb, BitVec.ofNat_toNat, BitVec.setWidth_eq]

theorem setBit_eq : setBit b v = BitVec.ofNat 8 (v.toNat + (1 - v.toNat / 2 ^ b % 2) * 2 ^ b) := by
  apply BitVec.eq_of_toNat_eq
  have hle : v.toNat / 2 ^ b % 2 * 2 ^ b ≤ v.toNat :=
    (Nat.mul_le_mul_right _ (Nat.mod_le _ _)).trans (Nat.div_mul_le_self _ _)
  rw [← clearBit_add_mask, BitVec.toNat_add, toNat_clearBit hb, toNat_bitMask hb, BitVec.toNat_ofNat]
  obtain h | h := Nat.mod_two_eq_zero_or_one (v.toNat / 2 ^ b)
  · rw [h]; omega
  · rw [h] at hle ⊢; omega

end

end Sys2Proof.Machine

namespace Sys2Proof

open Machine

/-! ### RES and SET -/

theorem encode_resR (b : Nat) (r : Reg8) : encode (.resR b r) = [0xCB, BitVec.ofNat 8 (0x80 + 8 * b + r.code)] :=
  congrArg (fun op2 => [0xCB, op2]) (opByte_eq_ofNat (by omega))

theorem encode_resHl (b : Nat) : encode (.resHl b) = [0xCB, BitVec.ofNat 8 (0x86 + 8 * b)] :=
  congrArg (fun op2 => [0xCB, op2]) (opByte_eq_ofNat (by omega))

theorem encode_setR (b : Nat) (r : Reg8) : encode (.setR b r) = [0xCB, BitVec.ofNat 8 (0xC0 + 8 * b + r.code)] :=
  congrArg (fun op2 => [0xCB, op2]) (opByte_eq_ofNat (by omega))

theorem encode_setHl (b : Nat) : encode (.setHl b) = [0xCB, BitVec.ofNat 8 (0xC6 + 8 * b)] :=
  congrArg (fun op2 => [0xCB, op2]) (opByte_eq_ofNat (by omega))

theorem Machine.exec_resHl (b : Nat) (s : State) : exec (.resHl b) s =
    .next { s.writeByte s.hl (clearBit b (s.readByte s.hl)) with cycles := s.cycles + 8 } :=
  congrArg Host.Outcome.next (modifyAtHl_eq _ s)

theorem Machine.exec_setHl (b : Nat) (s : State) : exec (.setHl b) s =
    .next { s.writeByte s.hl (setBit b (s.readByte s.hl)) with cycles := s.cycles + 8 } :=
  congrArg Host.Outcome.next (modifyAtHl_eq _ s)

/-- Settles O18: the byte by `clearBit_eq` and `setBit_eq`, and 4 cycles for each byte fetched and each access. -/
theorem bitResetAndSet : Obligations.BitResetAndSet := by
  intro s b r hb
  simp only [← clearBit_eq hb, ← setBit_eq hb]
  exact ⟨⟨rfl, encode_resR b r, Instr.takes_of_exec (k := 0) rfl (s.setReg8_cycles r _) rfl⟩,
    ⟨exec_resHl b s, encode_resHl b, Instr.takes_of_exec (exec_resHl b s) rfl rfl⟩,
    ⟨rfl, encode_setR b r, Instr.takes_of_exec (k := 0) rfl (s.setReg8_cycles r _) rfl⟩,
    ⟨exec_setHl b s, encode_setHl b, Instr.takes_of_exec (exec_setHl b s) rfl rfl⟩⟩

end Sys2Proof
end

section
/-! SUPPORT. The other loads (43_loads.md): A to and from memory, and the forms that step HL. The addresses and sums of the
statements are the model's by `ofNat_add_word`, `word_sub_one`, `highPage_eq` and `signExtend16_eq`. -/

namespace Sys2Proof.Machine

/-! ### A to and from memory: one access -/

theorem storeA_eq (addr : Word) (s : State) :
    storeA addr s = { s.writeByte addr s.cpu.a with cycles := s.cycles + 4 } := s.memWrite_eq addr s.cpu.a

theorem loadA_eq (addr : Word) (s : State) :
    loadA addr s = { s with cpu := { s.cpu with a := s.readByte addr }, cycles := s.cycles + 4 } := rfl

@[simp] theorem storeA_hl (addr : Word) (s : State) : (storeA addr s).hl = s.hl := by
  simp only [State.hl, storeA, State.memWrite_cpu]

@[simp] theorem loadA_hl (addr : Word) (s : State) : (loadA addr s).hl = s.hl := rfl

theorem storeA_setHl (addr w : Word) (s : State) : (storeA addr s).setHl w =
    { (s.writeByte addr s.cpu.a).setHl w with cycles := s.cycles + 4 } := congrArg (State.setHl · w) (storeA_eq addr s)

theorem loadA_setHl (addr w : Word) (s : State) : (loadA addr s).setHl w =
    { (s.setA (s.readByte addr)).setHl w with cycles := s.cycles + 4 } := rfl

/-! ### The instructions, each a shared operation at its address -/

section
variable {i : Instr} {s : State} {addr : Word}

theorem exec_of_storeA (h : exec i s = .next (storeA addr s)) :
    exec i s = .next { s.writeByte addr s.cpu.a with cycles := s.cycles + 4 } := by rw [h, storeA_eq]

theorem exec_of_loadA (h : exec i s = .next (loadA addr s)) : exec i s =
    .next { s with cpu := { s.cpu with a := s.readByte addr }, cycles := s.cycles + 4 } := by rw [h, loadA_eq]

/-- HL steps from its value before the store, which the store keeps (43_loads.md R226, R227). -/
theorem exec_of_storeA_step (d : Word) (h : exec i s = .next ((storeA s.hl s).setHl ((storeA s.hl s).hl + d))) :
    exec i s = .next { (s.writeByte s.hl s.cpu.a).setHl (s.hl + d) with cycles := s.cycles + 4 } := by
  rw [h, storeA_hl, storeA_setHl]

/-- HL steps from its value before the read, which the read keeps (43_loads.md R228, R229). -/
theorem exec_of_loadA_step (d : Word) (h : exec i s = .next ((loadA s.hl s).setHl ((loadA s.hl s).hl + d))) :
    exec i s = .next { (s.setA (s.readByte s.hl)).setHl (s.hl + d) with cycles := s.cycles + 4 } := by
  rw [h, loadA_hl, loadA_setHl]

end

theorem exec_ldHlN (n : Byte) (s : State) :
    exec (.ldHlN n) s = .next { s.writeByte s.hl n with cycles := s.cycles + 4 } :=
  congrArg Host.Outcome.next (s.memWrite_eq s.hl n)

theorem exec_ldHlDecA (s : State) : exec .ldHlDecA s =
    .next ((storeA s.hl s).setHl ((storeA s.hl s).hl + BitVec.ofNat 16 0xFFFF)) := by
  rw [← word_sub_one]
  rfl

theorem exec_ldAHlDec (s : State) : exec .ldAHlDec s =
    .next ((loadA s.hl s).setHl ((loadA s.hl s).hl + BitVec.ofNat 16 0xFFFF)) := by
  rw [← word_sub_one]
  rfl

theorem exec_ldNnSp (nn : Word) (s : State) : exec (.ldNnSp nn) s =
    .next { (s.writeByte nn (lowByte s.cpu.sp)).writeByte (nn + 1) (highByte s.cpu.sp) with cycles := s.cycles + 8 } :=
  congrArg Host.Outcome.next (s.memWrite16_eq nn s.cpu.sp)

/-! ### The statements of the family -/

/-- Settles O9: `LD r,n` and `LD (HL),n` take the immediate; every other load is a store or a load of A at its address,
with HL stepped or not. -/
theorem byteLoads : Obligations.ByteLoads := by
  intro s r n nn
  simp only [ofNat_add_word, ← highPage_eq]
  exact ⟨rfl, exec_ldHlN n s, exec_of_storeA rfl, exec_of_storeA rfl, exec_of_loadA rfl, exec_of_loadA rfl,
    exec_of_storeA_step _ rfl, exec_of_storeA_step _ (exec_ldHlDecA s), exec_of_loadA_step _ rfl,
    exec_of_loadA_step _ (exec_ldAHlDec s), exec_of_storeA rfl, exec_of_loadA rfl, exec_of_storeA rfl,
    exec_of_loadA rfl, exec_of_storeA rfl, exec_of_loadA rfl⟩

/-- Settles O10: `LD HL,SP+e` adds the byte by `signExtend16_eq`, its flags are the model's by definition; `LD (nn),SP` is
two writes, the bytes of SP by `ofNat_low` and `ofNat_high`. -/
theorem wordLoads : Obligations.WordLoads := by
  intro s rr nn e
  simp only [ofNat_add_word, ← signExtend16_eq, ofNat_low, ofNat_high]
  exact ⟨rfl, rfl, rfl, exec_ldNnSp nn s⟩

end Sys2Proof.Machine
end

section
/-! SUPPORT. INC, DEC and the 16-bit additions (44_incdec_add16.md). A decrement is the sum with 255 or 0xFFFF by
`byte_sub_one` and `word_sub_one`; the forms on the byte at HL are a read and a write, two accesses. -/

namespace Sys2Proof.Machine

/-! ### The flags of INC and DEC by the number of the byte -/

theorem incFlags_eq (old : Flags) (v : Byte) : incFlags old v =
    { z := decide ((v.toNat + 1) % 256 = 0), n := false, h := decide (v.toNat % 16 = 0xF), cy := old.cy } := by
  simp only [incFlags, ← BitVec.toNat_inj, BitVec.toNat_add]
  rfl

theorem decFlags_eq (old : Flags) (v : Byte) : decFlags old v =
    { z := decide ((v.toNat + 255) % 256 = 0), n := true, h := decide (v.toNat % 16 = 0), cy := old.cy } := by
  simp only [decFlags, byte_sub_one, ← BitVec.toNat_inj, BitVec.toNat_add]
  rfl

/-! ### The byte at HL -/

theorem State.tick_memWrite_setFlags (s : State) (addr : Word) (v : Byte) (f : Flags) :
    (s.tick.memWrite addr v).setFlags f = { (s.writeByte addr v).setFlags f with cycles := s.cycles + 8 } :=
  congrArg (State.setFlags · f) (s.tick_memWrite_eq addr v)

theorem exec_incHl (s : State) : exec .incHl s = .next
    { (s.writeByte s.hl (s.readByte s.hl + 1)).setFlags (incFlags s.cpu.flags (s.readByte s.hl)) with
      cycles := s.cycles + 8 } := congrArg Host.Outcome.next (s.tick_memWrite_setFlags _ _ _)

theorem exec_decHl (s : State) : exec .decHl s = .next
    { (s.writeByte s.hl (s.readByte s.hl - 1)).setFlags (decFlags s.cpu.flags (s.readByte s.hl)) with
      cycles := s.cycles + 8 } := congrArg Host.Outcome.next (s.tick_memWrite_setFlags _ _ _)

/-! ### The statements of the family -/

/-- Settles O20: the sums of the statement are the model's bytes, its flags those of `incFlags_eq` and `decFlags_eq`. -/
theorem byteIncrementAndDecrement : Obligations.ByteIncrementAndDecrement := by
  intro s r
  simp only [ofNat_add_byte, ← byte_sub_one, ← incFlags_eq, ← decFlags_eq]
  exact ⟨rfl, rfl, exec_incHl s, exec_decHl s⟩

/-- Settles O21: the sums of the statement are the model's words, `ADD SP,e` by `signExtend16_eq`; the flags are the
model's by definition. -/
theorem wordArithmetic : Obligations.WordArithmetic := by
  intro s rr e
  simp only [ofNat_add_word, BitVec.ofNat_toNat, BitVec.setWidth_eq, ← word_sub_one, ← signExtend16_eq]
  exact ⟨rfl, rfl, rfl, rfl⟩

end Sys2Proof.Machine
end

section
/-! SUPPORT. The stack group (45_stack.md). PUSH and POP are `push16_eq` and `pop16_eq`; a POP gives a PUSH back since the
two addresses of the slot select different cells. -/

namespace Sys2Proof.Machine

/-! ### The stack slot -/

/-- The redirect moves an address by 0 or 0x2000, so it keeps neighbours apart (20_memory.md R62). -/
theorem redirect_succ_ne (a : Word) : redirect (a + 1) ≠ redirect a := by
  intro h
  have hn := congrArg BitVec.toNat h
  have hs : (a + 1).toNat = (a.toNat + 1) % 65536 := BitVec.toNat_add a 1
  rw [redirect_toNat, redirect_toNat, hs] at hn
  have := a.isLt
  split at hn <;> split at hn <;> omega

section
variable {s : State} {a : Word} (x y : Byte)

theorem State.readByte_slot_low (lo : (s.writeTarget a).isSome = true) :
    ((s.writeByte (a + 1) x).writeByte a y).readByte a = y := by
  obtain ⟨c, hc⟩ := Option.isSome_iff_exists.mp lo
  exact State.readByte_writeByte_same _ a a y c ((s.writeByte_writeTarget _ x a).trans hc) rfl

theorem State.readByte_slot_high (hi : (s.writeTarget (a + 1)).isSome = true) :
    ((s.writeByte (a + 1) x).writeByte a y).readByte (a + 1) = x := by
  obtain ⟨c, hc⟩ := Option.isSome_iff_exists.mp hi
  rw [State.readByte_writeByte_other _ a (a + 1) y (redirect_succ_ne a)]
  exact s.readByte_writeByte_same (a + 1) (a + 1) x c hc rfl

end

/-- A pop right after a push into a slot that accepts both writes: the word, the CPU as it was, the bytes left in memory. -/
theorem State.pop16_push16 (s : State) (v : Word) (hi : (s.writeTarget (s.cpu.sp - 1)).isSome = true)
    (lo : (s.writeTarget (s.cpu.sp - 2)).isSome = true) :
    (s.push16 v).pop16 = (v, { s.push16 v with cpu := s.cpu, cycles := s.cycles + 16 }) := by
  have h1 : s.cpu.sp - 1 = s.cpu.sp - 1 - 1 + 1 := (BitVec.sub_add_cancel _ _).symm
  have h2 : s.cpu.sp - 1 - 1 + 1 + 1 = s.cpu.sp := by rw [← h1, BitVec.sub_add_cancel]
  rw [h1] at hi
  rw [← word_sub_two] at lo
  simp only [State.pop16_eq, State.push16_eq, State.readByte_frame, h2]
  generalize s.cpu.sp - 1 - 1 = a at h1 hi lo
  rw [h1, State.readByte_slot_low _ _ lo, State.readByte_slot_high _ _ hi, high_append_low]

/-! ### The instructions -/

theorem exec_popAf (s : State) : exec .popAf s = .next { s with
    cpu := { s.cpu with
      sp := s.cpu.sp + 1 + 1
      a := s.readByte (s.cpu.sp + 1)
      flags := Flags.ofByte (s.readByte s.cpu.sp) }
    cycles := s.cycles + 8 } := by
  show Host.Outcome.next (State.setAf s.pop16.2 s.pop16.1) = _
  rw [State.pop16_eq, State.setAf, highByte_append, lowByte_append]

/-- `POP AF` of the word of AF changes nothing: F has no more than its four flags (10_state.md R24, R25). -/
theorem State.setAf_af_cpu {s t : State} (h : t.cpu = s.cpu) : (t.setAf s.af).cpu = s.cpu := by
  rw [State.setAf_cpu, h, State.af, State.f, highByte_append, lowByte_append, Flags.ofByte_toByte]

/-! ### The statements of the family -/

/-- Settles O23: by `pop16_push16` the pop answers the word pushed, and the CPU is the one before the push. -/
theorem popUndoesPush : Obligations.PopUndoesPush := by
  intro s q q' hi lo
  have hq := s.pop16_push16 (s.pair q) hi lo
  have haf := s.pop16_push16 s.af hi lo
  constructor
  · refine ⟨_, State.setPair (State.pop16 _).2 q' (State.pop16 _).1, rfl, rfl, ?_, ?_⟩
    · rw [State.setPair_same, hq]
    · rw [State.setPair_sp, hq]
  · refine ⟨_, State.setAf (State.pop16 _).2 (State.pop16 _).1, rfl, rfl, ?_⟩
    rw [haf]
    exact State.setAf_af_cpu rfl

/-- Settles O22: the bytes of the word by `ofNat_high` and `ofNat_low`, the word of the bytes by `ofNat_append`, and SP by
two in two steps of one. -/
theorem pushAndPop : Obligations.PushAndPop := by
  intro s q
  simp only [ofNat_high, ofNat_low, ofNat_append, ← word_sub_two, ← word_add_two]
  exact ⟨congrArg Host.Outcome.next (s.push16_eq _), congrArg Host.Outcome.next (s.push16_eq _), rfl, exec_popAf s⟩

end Sys2Proof.Machine
end

section
/-! SUPPORT. DAA, CPL, CCF, SCF and the rotates of A (46_misc_alu.md). The correction of DAA as a number, and why it makes
a sum or difference of packed-decimal bytes decimal: each half of it is the carry or borrow of one decimal digit. -/

namespace Sys2Proof.Machine

/-! ### DAA by its pseudocode (46_misc_alu.md R280) -/

/-- What DAA adds where N is 0 (46_misc_alu.md R280). -/
def addCorrection (f : Flags) (a : Nat) : Nat :=
  (if f.h = true ∨ a % 16 > 9 then 0x06 else 0) + (if f.cy = true ∨ a > 0x99 then 0x60 else 0)

/-- What DAA subtracts where N is 1 (46_misc_alu.md R280). -/
def subCorrection (f : Flags) : Nat := (if f.h = true then 0x06 else 0) + (if f.cy = true then 0x60 else 0)

/-- The adjusted A as a number (46_misc_alu.md R280). -/
def daaNat (f : Flags) (a : Nat) : Nat :=
  if f.n = true then (a + 256 - subCorrection f) % 256 else (a + addCorrection f a) % 256

/-- The two halves of a correction have no bit in common. -/
theorem toNat_or_corrections (digit tens : Bool) :
    ((if digit then 0x06 else 0x00 : Byte) ||| (if tens then 0x60 else 0x00)).toNat =
      (if digit = true then 0x06 else 0) + (if tens = true then 0x60 else 0) := by
  cases digit <;> cases tens <;> rfl

theorem toNat_daaAdjust (f : Flags) (a : Byte) :
    (daaAdjust f a).toNat = if f.n = true then subCorrection f else addCorrection f a.toNat := by
  rw [daaAdjust, toNat_or_corrections]
  cases hn : f.n <;> simp [subCorrection, addCorrection, lowNibble]

theorem toNat_daaResult (f : Flags) (a : Byte) : (daaResult f a).toNat = daaNat f a.toNat := by
  have hadj := toNat_daaAdjust f a
  have hlt := (daaAdjust f a).isLt
  by_cases hn : f.n = true
  · simp only [if_pos hn] at hadj
    simp only [daaResult, daaNat, if_pos hn, BitVec.toNat_sub, hadj]
    omega
  · simp only [if_neg hn] at hadj
    simp only [daaResult, daaNat, if_neg hn, BitVec.toNat_add, hadj]

theorem daaResult_eq (f : Flags) (a : Byte) : daaResult f a = BitVec.ofNat 8 (daaNat f a.toNat) := by
  rw [← toNat_daaResult, BitVec.ofNat_toNat, BitVec.setWidth_eq]

theorem daaFlags_eq (f : Flags) (a : Byte) : daaFlags f a =
    { z := decide (daaNat f a.toNat = 0)
      n := f.n
      h := false
      cy := if f.n = true then f.cy else decide (f.cy = true ∨ a.toNat > 0x99) } := by
  have hz : daaResult f a = 0#8 ↔ daaNat f a.toNat = 0 := by
    rw [← toNat_daaResult, ← BitVec.toNat_inj]
    rfl
  cases hn : f.n <;> simp [daaFlags, hz, hn]

theorem exec_daa (s : State) : exec .daa s =
    .next (s.withAluResult (daaResult s.cpu.flags s.cpu.a) (daaFlags s.cpu.flags s.cpu.a)) := rfl

/-- Settles O24: the adjusted A and the flags of the model, as numbers. -/
theorem decimalAdjust : Obligations.DecimalAdjust := by
  intro s
  rw [exec_daa, daaResult_eq, daaFlags_eq]
  rfl

/-! ### Packed decimals -/

/-- The number of a packed-decimal byte: the tens in the high nibble. -/
def decimalNat (n : Nat) : Nat := n / 10 * 16 + n % 10

theorem decimalNat_le {n : Nat} (h : n < 100) : decimalNat n ≤ 0x99 := by
  unfold decimalNat
  omega

theorem toNat_decimalByte {n : Nat} (h : n < 100) : (decimalByte n).toNat = decimalNat n :=
  (BitVec.toNat_ofNat ..).trans (Nat.mod_eq_of_lt ((decimalNat_le h).trans_lt (by decide)))

/-! #### The bytes and flags of a sum and a difference -/

theorem toNat_sumByte (a v c : Nat) : (sumByte a v c).toNat = (a + v + c) % 256 := BitVec.toNat_ofNat ..

theorem toNat_differenceByte (a v c : Nat) : (differenceByte a v c).toNat = (a + 512 - v - c) % 256 :=
  BitVec.toNat_ofNat ..

theorem sumFlags_h (a v c : Nat) : (sumFlags a v c).h = true ↔ a % 16 + v % 16 + c > 0xF := decide_eq_true_iff

theorem sumFlags_cy (a v c : Nat) : (sumFlags a v c).cy = true ↔ a + v + c > 0xFF := decide_eq_true_iff

theorem differenceFlags_h (a v c : Nat) : (differenceFlags a v c).h = true ↔ a % 16 < v % 16 + c :=
  decide_eq_true_iff

theorem differenceFlags_cy (a v c : Nat) : (differenceFlags a v c).cy = true ↔ a < v + c := decide_eq_true_iff

/-! #### The carry of the ones and the hundred -/

/-- Packed decimals add as numbers, and a carry of the ones adds 6: the digit carries at 10, its nibble at 16. -/
theorem decimalNat_add (m n : Nat) :
    decimalNat (m + n) = decimalNat m + decimalNat n + if m % 10 + n % 10 > 9 then 0x06 else 0 := by
  unfold decimalNat
  split <;> omega

/-- Dropping the hundred is adding 0x60 modulo 256. -/
theorem decimalNat_mod_hundred {n : Nat} (h : n < 200) :
    decimalNat (n % 100) = (decimalNat n + if n ≥ 100 then 0x60 else 0) % 256 := by
  unfold decimalNat
  split <;> omega

/-! #### A sum: the low digit is corrected where the ones carry, the high digit where the sum reaches 100 -/

theorem decimalSum_ones_carry (x y : Nat) :
    (sumFlags (decimalNat x) (decimalNat y) 0).h = true ∨ (decimalNat x + decimalNat y) % 256 % 16 > 9 ↔
      x % 10 + y % 10 > 9 := by
  rw [sumFlags_h, decimalNat, decimalNat]
  omega

theorem decimalSum_tens_carry {x y : Nat} (hx : x < 100) (hy : y < 100) :
    (sumFlags (decimalNat x) (decimalNat y) 0).cy = true ∨ (decimalNat x + decimalNat y) % 256 > 0x99 ↔
      x + y ≥ 100 := by
  have hx' := decimalNat_le hx
  have hy' := decimalNat_le hy
  have hsum : decimalNat x + decimalNat y > 0x99 ↔ x + y ≥ 100 := by unfold decimalNat; omega
  rw [sumFlags_cy, ← hsum]
  omega

theorem daaNat_decimalSum {x y : Nat} (hx : x < 100) (hy : y < 100) :
    daaNat (sumFlags (decimalNat x) (decimalNat y) 0) ((decimalNat x + decimalNat y) % 256) =
      decimalNat ((x + y) % 100) := by
  have hn : ¬ (sumFlags (decimalNat x) (decimalNat y) 0).n = true := Bool.false_ne_true
  rw [daaNat, if_neg hn, addCorrection]
  simp only [decimalSum_ones_carry, decimalSum_tens_carry hx hy]
  rw [decimalNat_mod_hundred (by omega), decimalNat_add, Nat.mod_add_mod, ← Nat.add_assoc]

/-! #### A difference: the low digit is corrected where the ones borrow, the high digit where `x` is below `y` -/

theorem decimalDifference_ones_borrow (x y : Nat) :
    (differenceFlags (decimalNat x) (decimalNat y) 0).h = true ↔ x % 10 < y % 10 := by
  rw [differenceFlags_h, decimalNat, decimalNat]
  omega

theorem decimalDifference_tens_borrow (x y : Nat) :
    (differenceFlags (decimalNat x) (decimalNat y) 0).cy = true ↔ x < y := by
  rw [differenceFlags_cy, decimalNat, decimalNat]
  omega

/-- The difference is the number to which `y` adds up to `x + 100`, and the ones carry in that sum where they borrow. -/
theorem decimalNat_add_hundred_sub {x y : Nat} (hy : y < 100) :
    decimalNat (x + 100 - y) + decimalNat y + (if x % 10 < y % 10 then 0x06 else 0) = decimalNat x + 0xA0 := by
  have hones : (x + 100 - y) % 10 + y % 10 > 9 ↔ x % 10 < y % 10 := by omega
  have hadd := decimalNat_add (x + 100 - y) y
  simp only [hones, Nat.sub_add_cancel (show y ≤ x + 100 by omega)] at hadd
  rw [← hadd]
  unfold decimalNat
  omega

theorem daaNat_decimalDifference {x y : Nat} (hx : x < 100) (hy : y < 100) :
    daaNat (differenceFlags (decimalNat x) (decimalNat y) 0) ((decimalNat x + 512 - decimalNat y) % 256) =
      decimalNat ((x + 100 - y) % 100) := by
  have hn : (differenceFlags (decimalNat x) (decimalNat y) 0).n = true := rfl
  have hyle := decimalNat_le hy
  have hsub := decimalNat_add_hundred_sub (x := x) hy
  have hlow : (if x % 10 < y % 10 then 0x06 else 0) ≤ 0x06 := by split <;> decide
  rw [daaNat, if_pos hn, subCorrection, decimalNat_mod_hundred (by omega)]
  simp only [decimalDifference_ones_borrow, decimalDifference_tens_borrow]
  generalize (if x % 10 < y % 10 then 0x06 else 0) = low at hlow hsub ⊢
  by_cases hlt : x < y
  · rw [if_pos hlt, if_neg (by omega)]
    omega
  · rw [if_neg hlt, if_pos (by omega)]
    omega

/-! #### The statements on packed decimals -/

/-- Settles O25: the sum's flags say which decimal digits carry, and DAA corrects exactly those. -/
theorem addThenAdjustIsDecimalAddition : Obligations.AddThenAdjustIsDecimalAddition := by
  intro s x y hx hy hf ha
  refine ⟨_, _, aluAdd_operands hf (decimalByte y) false, exec_daa _, ?_, ?_⟩
  · show daaResult (sumFlags _ _ 0) (sumByte _ _ 0) = _
    rw [daaResult_eq, toNat_sumByte, ha, toNat_decimalByte hx, toNat_decimalByte hy]
    exact congrArg (BitVec.ofNat 8) (daaNat_decimalSum hx hy)
  · show (daaFlags (sumFlags _ _ 0) (sumByte _ _ 0)).cy = _
    rw [daaFlags_eq, toNat_sumByte, ha, toNat_decimalByte hx, toNat_decimalByte hy]
    exact decide_eq_decide.2 (decimalSum_tens_carry hx hy)

/-- Settles O26: the difference's flags are the borrows of the decimal digits, and DAA corrects exactly those. -/
theorem subtractThenAdjustIsDecimalSubtraction : Obligations.SubtractThenAdjustIsDecimalSubtraction := by
  intro s x y hx hy hf ha
  refine ⟨_, _, aluSub_operands hf (decimalByte y) false, exec_daa _, ?_, ?_⟩
  · show daaResult (differenceFlags _ _ 0) (differenceByte _ _ 0) = _
    rw [daaResult_eq, toNat_differenceByte, ha, toNat_decimalByte hx, toNat_decimalByte hy]
    exact congrArg (BitVec.ofNat 8) (daaNat_decimalDifference hx hy)
  · show (daaFlags (differenceFlags _ _ 0) (differenceByte _ _ 0)).cy = _
    rw [daaFlags_eq, ha, toNat_decimalByte hx, toNat_decimalByte hy]
    exact Bool.eq_iff_iff.2 ((decimalDifference_tens_borrow x y).trans decide_eq_true_iff.symm)

/-! ### CPL, CCF, SCF and the rotates of A (46_misc_alu.md R281 to R287) -/

theorem complement_eq (v : Byte) : v ^^^ 0xFF = BitVec.ofNat 8 (255 - v.toNat) := by
  show v ^^^ BitVec.allOnes 8 = _
  rw [BitVec.xor_allOnes]
  apply BitVec.eq_of_toNat_eq
  rw [BitVec.toNat_not, BitVec.toNat_ofNat]
  omega

/-- The rotate of A gives the byte of the operation and, unlike a rotate behind 0xCB, a Z of 0 (decision D12). -/
theorem ShiftsTo.accumulator {op : Byte → Byte × Bool} {s : State} {res : Nat} {out : Bool}
    (h : ShiftsTo op s.cpu.a res out) : (Host.Outcome.next (rotateA op s) : Outcome) =
      .next (s.withAluResult (BitVec.ofNat 8 res) { z := false, n := false, h := false, cy := out }) := by
  rw [rotateA, h.result]
  rfl

/-- Settles O27: CPL by `complement_eq`, CCF and SCF by definition, the rotates by the arithmetic of the rotates behind
0xCB. -/
theorem accumulatorOperations : Obligations.AccumulatorOperations := by
  intro s
  dsimp only
  rw [← complement_eq]
  exact ⟨rfl, rfl, rfl, (rotateLeft_shiftsTo _).accumulator, (rotateRight_shiftsTo _).accumulator,
    (rotateLeftCarry_shiftsTo _ _).accumulator, (rotateRightCarry_shiftsTo _ _).accumulator⟩

end Sys2Proof.Machine
end

section
/-! SUPPORT. Control transfer (47_control.md). A call is a push of PC and a jump, a return is a pop into PC; a jump between
them moves neither SP nor memory, so the return goes back by `pop16_push16`. -/

namespace Sys2Proof.Machine

/-! ### The shared operations -/

/-- A relative jump (R294): from PC, past the instruction, by the signed byte. -/
theorem State.jumpRelative_eq (s : State) (e : Byte) : s.jumpRelative e =
    { s with cpu := { s.cpu with
      pc := BitVec.ofNat 16 (s.cpu.pc.toNat + if e.toNat < 0x80 then e.toNat else e.toNat + 0xFF00) } } := by
  rw [State.jumpRelative, signExtend16_eq, ofNat_add_word]
  rfl

/-- A call (R296): PC on the stack, high byte first, and then the target in PC. -/
theorem State.callTo_eq (s : State) (target : Word) : s.callTo target =
    { (s.writeByte (s.cpu.sp - 1) (BitVec.ofNat 8 (s.cpu.pc.toNat / 256))).writeByte (s.cpu.sp - 2)
        (BitVec.ofNat 8 (s.cpu.pc.toNat % 256)) with
      cpu := { s.cpu with sp := s.cpu.sp - 2, pc := target }
      cycles := s.cycles + 8 } := by
  rw [State.callTo, State.push16_eq, word_sub_two, ofNat_high, ofNat_low]
  rfl

/-- A return (R298): PC off the stack, low byte first. -/
theorem State.returnToCaller_eq (s : State) : s.returnToCaller =
    { s with
      cpu := { s.cpu with
        sp := s.cpu.sp + 2
        pc := BitVec.ofNat 16 ((s.readByte (s.cpu.sp + 1)).toNat * 256 + (s.readByte s.cpu.sp).toNat) }
      cycles := s.cycles + 8 } := by
  rw [State.returnToCaller, State.pop16_eq, word_add_two, ofNat_append]
  rfl

/-- A jump moves neither SP nor the bytes a pop reads. -/
theorem State.pop16_setPc (s : State) (target : Word) :
    (s.setPc target).pop16 = (s.pop16.1, s.pop16.2.setPc target) := rfl

/-- A return right after a call into a slot that accepts both writes gives back the CPU (R302). -/
theorem State.returnToCaller_callTo_cpu (s : State) (target : Word)
    (hi : (s.writeTarget (s.cpu.sp - 1)).isSome = true) (lo : (s.writeTarget (s.cpu.sp - 2)).isSome = true) :
    (s.callTo target).returnToCaller.cpu = s.cpu := by
  simp only [State.returnToCaller, State.callTo, State.pop16_setPc, s.pop16_push16 s.cpu.pc hi lo, State.setPc_cpu]

/-! ### The statements of the family -/

/-- Settles O30: CALL and RST are both `callTo`, and `returnToCaller_callTo_cpu` holds for any target. -/
theorem returnUndoesCall : Obligations.ReturnUndoesCall := by
  intro s i nn t hi lo hmem
  have undoes (target : Word) (hexec : exec i s = .next (s.callTo target)) :
      ∃ u v, exec i s = .next u ∧ exec .ret u = .next v ∧ v.cpu = s.cpu :=
    ⟨_, _, hexec, rfl, s.returnToCaller_callTo_cpu target hi lo⟩
  obtain rfl | rfl := List.mem_pair.1 hmem
  · exact undoes nn rfl
  · exact undoes t rfl

/-- Settles O28: the relative target by `jumpRelative_eq`; the condition of the statement is `Flags.holds` written out. -/
theorem jumps : Obligations.Jumps := by
  intro s cc nn e
  dsimp only
  rw [← State.jumpRelative_eq]
  exact ⟨rfl, rfl, rfl, rfl, rfl⟩

/-- Settles O29: `callTo_eq` and `returnToCaller_eq`, RETI with `ime` set after the return; the condition of the statement
is `Flags.holds` written out. -/
theorem callsAndReturns : Obligations.CallsAndReturns := by
  intro s cc nn
  have hreti : exec .reti s = .next (s.returnToCaller.setIme true) := rfl
  rw [State.returnToCaller_eq] at hreti
  simp only [← State.callTo_eq, ← State.returnToCaller_eq]
  exact ⟨rfl, rfl, rfl, rfl, hreti, fun _ _ => rfl⟩

end Sys2Proof.Machine
end

section
/-! SUPPORT. What a call of `execute()` can do on a machine with a cartridge: dispatch an interrupt, stay halted, or run
the instruction at PC. From it, that no call faults and that a ready machine goes on. -/

namespace Sys2Proof.Machine

/-! ### The ways a call goes (60_exceptions.md R328, R329, R340) -/

/-- The instruction stream at PC: the byte there and the operand bytes it asks for (30_encoding.md R121). -/
theorem State.nextBytes_eq_cons (s : State) : ∃ operands : List Byte,
    operands.length + 1 = instrLength (s.readByte s.cpu.pc) ∧ s.nextBytes = s.readByte s.cpu.pc :: operands := by
  obtain ⟨n, hn⟩ := Nat.exists_eq_add_of_le' (instrLength_bounds (s.readByte s.cpu.pc)).1
  have hpc : s.cpu.pc + BitVec.ofNat 16 0 = s.cpu.pc := BitVec.add_zero _
  rw [State.nextBytes, hn, List.range_succ_eq_map, List.map_cons, hpc]
  exact ⟨_, by rw [List.length_map, List.length_map, List.length_range], rfl⟩

/-- The bytes from PC on are one whole instruction (30_encoding.md R139). -/
theorem decode_nextBytes (s : State) : ∃ i, decode s.nextBytes = .ok (i, []) := by
  obtain ⟨operands, hlen, hs⟩ := s.nextBytes_eq_cons
  obtain ⟨i, hd⟩ := decode_of_length [] hlen
  rw [List.append_nil] at hd
  exact ⟨i, hs ▸ hd⟩

section
variable {s : State} {i : Instr} (hc : s.cart.isSome = true)
include hc

theorem execute_dispatch (hp : s.requestPending) (hi : s.cpu.ime = true) : execute s =
    .next (State.interruptEntry { s with cpu := { s.cpu with halted := false }, cycles := 0 }
      (lowestInterrupt s.pendingInterrupts)) := by
  rw [execute_loaded s hc, if_pos (s.requestPending_iff.1 hp), if_pos hi]

theorem execute_masked (hp : s.requestPending) (hi : s.cpu.ime = false) (hd : decode s.nextBytes = .ok (i, [])) :
    execute s = finishCall i s.afterFetch := by
  rw [execute_loaded s hc, if_pos (s.requestPending_iff.1 hp), if_neg (Bool.eq_false_iff.1 hi),
    runInstruction_eq s i hd]

theorem execute_halted (hp : ¬ s.requestPending) (hh : s.cpu.halted = true) :
    execute s = .next { s with cycles := 4 } := by
  rw [execute_loaded s hc, if_neg (s.requestPending_iff.not.1 hp), if_pos hh]

/-- Everything a call can do. -/
theorem execute_cases :
    (∃ k, execute s = .next (State.interruptEntry { s with cpu := { s.cpu with halted := false }, cycles := 0 } k)) ∨
    execute s = .next { s with cycles := 4 } ∨ ∃ i, execute s = finishCall i s.afterFetch := by
  obtain ⟨i, hd⟩ := decode_nextBytes s
  by_cases hp : s.requestPending
  · cases hi : s.cpu.ime with
    | true => exact .inl ⟨_, execute_dispatch hc hp hi⟩
    | false => exact .inr (.inr ⟨i, execute_masked hc hp hi hd⟩)
  · cases hh : s.cpu.halted with
    | true => exact .inr (.inl (execute_halted hc hp hh))
    | false => exact .inr (.inr ⟨i, execute_running hc hh hp hd⟩)

end

/-- Without dispatch and without host actions a halted machine stays as it is (70_reset_and_hazards.md R355). -/
theorem step_halted {s : State} (hc : s.cart.isSome = true) (hh : s.host = []) (hd : s.params.irqDispatch = false)
    (hs : s.cpu.halted = true) : step s = .next { s with cycles := 4 } := by
  have hp : ¬ s.requestPending := fun h => Bool.false_ne_true (hd.symm.trans h.1)
  rw [step, State.hostTurn_nil hh, execute_halted hc hp hs]

/-- A run whose first step goes on. -/
theorem run_succ {s t : State} (h : step s = .next t) (k : Nat) :
    Host.Core.run core (k + 1) s = Host.Core.run core k t := by
  simp only [Host.Core.run, core, h]

/-- Settles O44: the call of a masked request, after the host's turn. -/
theorem pendingRequestEndsHalt : Obligations.PendingRequestEndsHalt := by
  rintro s _ i rfl hc hp hi hd
  exact execute_masked hc hp hi hd

/-- Settles O45: the halted call, after the host's turn. -/
theorem haltedCallChangesNothing : Obligations.HaltedCallChangesNothing := by
  rintro s _ rfl hc hh hp
  exact execute_halted hc hp hh

/-- Settles O49: by induction on the calls, the first of which leaves a machine that meets the hypotheses again. -/
theorem haltedMachineStaysHalted : Obligations.HaltedMachineStaysHalted := by
  intro s k hc hh hd hs
  induction k generalizing s with
  | zero => exact run_succ (step_halted hc hh hd hs) 0
  | succ k ih => exact (run_succ (step_halted hc hh hd hs) (k + 1)).trans (ih { s with cycles := 4 } hc hh hd hs)

/-! ### No call faults (60_exceptions.md R323) -/

theorem finishCall_ne_fault (i : Instr) (s : State) (e : Fault) : finishCall i s ≠ .fault e := by
  unfold finishCall
  obtain ⟨t, ht, -⟩ | ⟨hr, -⟩ := exec_regular i s
  · rw [ht]; exact nofun
  · rw [hr]; exact nofun

theorem execute_ne_fault (s : State) (e : Fault) : execute s ≠ .fault e := by
  cases hc : s.cart with
  | none =>
    rw [execute_no_cart s hc]
    cases s.loadError <;> exact nofun
  | some c =>
    obtain ⟨k, h⟩ | h | ⟨i, h⟩ := execute_cases (s := s) (by rw [hc]; rfl)
    · rw [h]; exact nofun
    · rw [h]; exact nofun
    · rw [h]; exact finishCall_ne_fault i s.afterFetch e

/-- Settles O58: a step is a call after the host's turn. -/
theorem noStepFaults : Obligations.NoStepFaults := fun s e => execute_ne_fault s.hostTurn e

/-! ### A ready machine goes on (60_exceptions.md R320) -/

namespace State.Ready

variable {s t : State}

/-- Readiness looks at the cartridge, the host's schedule and the parameters alone. -/
theorem congr (h : s.Ready) (hc : t.cart = s.cart) (hh : t.host = s.host) (hp : t.params = s.params) : t.Ready := by
  obtain ⟨cart, keeps, mode⟩ := h
  exact ⟨hc ▸ cart, fun batch hb => keeps batch (hh ▸ hb), hp ▸ mode⟩

theorem reaches (h : s.Ready) (hr : s.Reaches t) : t.Ready := by
  obtain ⟨hp, hc, -, -, -, -, hh⟩ := hr.frame
  exact h.congr hc hh hp

theorem applyAction (h : s.Ready) {act : HostAction}
    (ha : act ≠ .powerOff ∧ ∀ number image, act ≠ .powerOn number image) : (s.applyAction act).Ready := by
  cases act with
  | setROM1Index | setVRAMLock | setOAMLock | writeIo | reset => exact h.congr rfl rfl rfl
  | powerOff => exact absurd rfl ha.1
  | powerOn number image => exact absurd rfl (ha.2 number image)

theorem applyActions (h : s.Ready) {acts : List HostAction}
    (ha : ∀ act ∈ acts, act ≠ .powerOff ∧ ∀ number image, act ≠ .powerOn number image) :
    (s.applyActions acts).Ready := by
  induction acts generalizing s with
  | nil => exact h
  | cons act rest ih =>
    obtain ⟨hact, hrest⟩ := List.forall_mem_cons.1 ha
    exact ih (h.applyAction hact) hrest

theorem hostTurn (h : s.Ready) : s.hostTurn.Ready := by
  obtain ⟨cart, keeps, mode⟩ := h
  unfold State.hostTurn
  split
  · exact ⟨cart, keeps, mode⟩
  · next batch rest hh =>
    rw [State.keepsCartridge, hh, List.forall_mem_cons] at keeps
    obtain ⟨hbatch, hrest⟩ := keeps
    exact applyActions (s := { s with host := rest }) ⟨cart, hrest, mode⟩ hbatch

theorem interruptEntry (h : s.Ready) (k : Nat) : (s.interruptEntry k).Ready := by
  rw [State.interruptEntry_eq]
  have acknowledged (v : Byte) : (s.writeCell ifCell v).Ready := h.congr rfl rfl rfl
  exact (acknowledged _).reaches (((State.Reaches.writeByte _ _ _).trans (.writeByte _ _ _)).cpu _ _)

theorem endOfCall (h : s.Ready) : s.endOfCall.Ready := by
  unfold State.endOfCall
  split
  · exact h.reaches (.ofCpu s _ _)
  · exact h.reaches (.ofCpu s _ _)
  · exact h

theorem finishCall (h : s.Ready) (i : Instr) : ∃ t, finishCall i s = .next t ∧ t.Ready := by
  have ⟨_, _, mode⟩ := h
  obtain ⟨u, hu, hr⟩ := exec_completes i s mode
  exact ⟨u.endOfCall, by rw [Machine.finishCall, hu], (h.reaches hr).endOfCall⟩

theorem execute (h : s.Ready) : ∃ t, execute s = .next t ∧ t.Ready := by
  obtain ⟨k, he⟩ | he | ⟨i, he⟩ := execute_cases h.1
  · exact ⟨_, he, (h.reaches (.ofCpu s _ _)).interruptEntry k⟩
  · exact ⟨_, he, h.reaches (.ofCpu s _ _)⟩
  · rw [he]
    exact (h.reaches (.ofCpu s _ _)).finishCall i

/-- A ready machine takes a step and is ready again. -/
theorem step (h : s.Ready) : ∃ t, step s = .next t ∧ t.Ready := h.hostTurn.execute

end State.Ready

/-- Settles O59: by induction on the number of steps, with the step lemma of readiness. -/
theorem readyMachineNeverStops : Obligations.ReadyMachineNeverStops := by
  intro s k h
  induction k generalizing s with
  | zero => trivial
  | succ k ih =>
    obtain ⟨t, hs, ht⟩ := h.step
    exact ⟨t, hs, ih t ht⟩

end Sys2Proof.Machine
end

section
/-! SUPPORT. Interrupt entry, and the delayed toggle of DI and EI at the end of a call (60_exceptions.md R326, R330). -/

namespace Sys2Proof

open Machine

/-! ### Interrupt entry -/

/-- A set bit cleared is its weight subtracted. -/
theorem Machine.clearBit_of_set {b : Nat} (hb : b < 8) {v : Byte} (hv : v.getLsbD b = true) :
    clearBit b v = BitVec.ofNat 8 (v.toNat - 2 ^ b) := by
  have hbit : v.toNat / 2 ^ b % 2 = 1 := by
    rw [BitVec.getLsbD, Nat.testBit_eq_decide_div_mod_eq] at hv
    exact of_decide_eq_true hv
  rw [clearBit_eq hb, hbit, Nat.one_mul]

/-- The request taken is the lowest one pending and enabled (60_exceptions.md R329). -/
theorem Machine.State.lowestInterrupt_pendingInterrupts {s : State} {i : Nat} (hi : i < 5)
    (h : ∀ j, j ≤ i → ((s.readCell ⟨.ie, 0⟩).getLsbD j = true ∧ (s.readCell ⟨.io, 0x0F⟩).getLsbD j = true ↔ j = i)) :
    lowestInterrupt s.pendingInterrupts = i :=
  lowestInterrupt_eq _ i hi fun j hj => by
    rw [s.pendingInterrupts_bit j, h j hj, and_iff_right_of_imp fun hji => hji ▸ hi]

/-- Entry in a call that has just ended the halted state: it looks neither at `halted` nor at the count. -/
theorem Machine.State.interruptEntry_awake (s : State) (i : Nat) :
    State.interruptEntry { s with cpu := { s.cpu with halted := false }, cycles := 0 } i =
      { s.interruptEntry i with cpu := { (s.interruptEntry i).cpu with halted := false } } := by
  have hw (v : Byte) : State.writeCell { s with cpu := { s.cpu with halted := false }, cycles := 0 } ifCell v =
      { s.writeCell ifCell v with cpu := { s.cpu with halted := false }, cycles := 0 } := rfl
  simp only [State.interruptEntry_eq, hw, State.writeByte_frame]
  rfl

/-- Settles O46: `execute_dispatch` with the lowest request, its bit cleared by `clearBit_of_set`. -/
theorem interruptEntry : Obligations.InterruptEntry := by
  intro s u i hu hc hd hime hi hlow
  dsimp only
  obtain ⟨hie, hif⟩ := (hlow i (Nat.le_refl i)).2 rfl
  have hclear : u.readCell ifCell &&& ~~~(1#8 <<< i) = _ := clearBit_of_set (Nat.lt_trans hi (by decide)) hif
  rw [step, ← hu, execute_dispatch hc ⟨hd, i, hi, hie, hif⟩ hime, State.lowestInterrupt_pendingInterrupts hi hlow,
    State.interruptEntry_awake, State.interruptEntry_eq, hclear, word_sub_two, ← ofNat_high, ← ofNat_low]
  rfl

/-! ### The toggle -/

/-- What an instruction that completes leaves to the end of the call. -/
theorem Machine.finishCall_eq_next {i : Instr} {s t : State} (h : finishCall i s = .next t) :
    ∃ u, exec i s = .next u ∧ t = u.endOfCall := by
  unfold finishCall at h
  split at h
  · next u hu => exact ⟨u, hu, (Host.Outcome.next.inj h).symm⟩
  · cases h
  · cases h

/-- The pair of bytes behind 0xCB is no instruction of another length. -/
theorem decodeCb_ne_of_length {i : Instr} (h : (encode i).length ≠ 2) (op2 : Byte) : decodeCb op2 ≠ i := fun he => by
  rw [← he, (decodeCb_encodedAs op2).2] at h
  exact h rfl

/-- Every instruction but DI and EI leaves the toggle (10_state.md R29). -/
theorem exec_imeSched {i : Instr} {s t : State} (hdi : i ≠ .di) (hei : i ≠ .ei) (h : exec i s = .next t) :
    t.cpu.imeSched = s.cpu.imeSched := by
  by_cases hi : i = .prefixCb
  · subst hi
    rw [exec_prefixCb] at h
    exact (exec_keeps _ _ (decodeCb_ne _) t h).imeSched
      ⟨decodeCb_ne_of_length (by decide) _, decodeCb_ne_of_length (by decide) _⟩
  · exact (exec_keeps i s hi t h).imeSched ⟨hdi, hei⟩

/-- Only RETI changes `ime`, and sets it (10_state.md R28). -/
theorem exec_ime {i : Instr} {s t : State} (h : exec i s = .next t) :
    t.cpu.ime = if i = .reti then true else s.cpu.ime := by
  split
  · next hi => subst hi; obtain rfl := Host.Outcome.next.inj h; rfl
  · next hr =>
    by_cases hi : i = .prefixCb
    · subst hi
      rw [exec_prefixCb] at h
      exact (exec_keeps _ _ (decodeCb_ne _) t h).ime (decodeCb_ne_of_length (by decide) _)
    · exact (exec_keeps i s hi t h).ime hr

/-- An aged toggle is applied at the end of the call (60_exceptions.md R326). -/
theorem Machine.State.endOfCall_aged {s : State} {v : Bool} (h : s.cpu.imeSched = .aged v) :
    s.endOfCall = (s.setIme v).setImeSched .none := by simp only [State.endOfCall, h]

theorem Machine.State.endOfCall_none {s : State} (h : s.cpu.imeSched = .none) : s.endOfCall = s := by
  simp only [State.endOfCall, h]

/-- Settles O47: DI and EI by definition; every other instruction hands the toggle to the end of the call. -/
theorem enableToggleIsDelayedByOneInstruction : Obligations.EnableToggleIsDelayedByOneInstruction := by
  refine ⟨fun s v => ?_, fun i s t v hdi hei hs ht => ?_, fun i s t hdi hei hs ht => ?_⟩
  · cases v <;> rfl
  · obtain ⟨u, hu, rfl⟩ := finishCall_eq_next ht
    rw [State.endOfCall_aged ((exec_imeSched hdi hei hu).trans hs)]
    exact ⟨rfl, rfl⟩
  · obtain ⟨u, hu, rfl⟩ := finishCall_eq_next ht
    have hn := (exec_imeSched hdi hei hu).trans hs
    rw [State.endOfCall_none hn]
    exact ⟨exec_ime hu, hn⟩

/-- Settles O31: each meaning by definition, the operand test of STOP on its number. -/
theorem systemInstructions : Obligations.SystemInstructions := by
  intro s n
  refine ⟨rfl, rfl, ?_, rfl, rfl, rfl, rfl, rfl, rfl, rfl, rfl, rfl, rfl, rfl, rfl, rfl⟩
  have hn : n = 0x00 ↔ n.toNat = 0 := BitVec.toNat_inj.symm
  simp only [← hn]
  rfl

end Sys2Proof
end

section
/-! SUPPORT. The cycles of a call (70_reset_and_hazards.md R363, R364): 4 for each byte of the instruction, and what its
own accesses add. -/

namespace Sys2Proof

open Machine

namespace Machine

/-! ### What each operation adds to the count (00_scope.md R14) -/

theorem rotateAtHl_cycles (op : Byte → Byte × Bool) (s : State) : (rotateAtHl op s).cycles = s.cycles + 8 := by
  rw [rotateAtHl_eq, State.setFlags_cycles]

theorem modifyAtHl_cycles (op : Byte → Byte) (s : State) : (modifyAtHl op s).cycles = s.cycles + 8 := by
  rw [modifyAtHl_eq]

theorem State.memWrite16_cycles (s : State) (a v : Word) : (s.memWrite16 a v).cycles = s.cycles + 8 := by
  rw [State.memWrite16_eq]

theorem State.push16_cycles (s : State) (v : Word) : (s.push16 v).cycles = s.cycles + 8 := by rw [State.push16_eq]

theorem State.callTo_cycles (s : State) (target : Word) : (s.callTo target).cycles = s.cycles + 8 := by
  rw [State.callTo, State.setPc_cycles, State.push16_cycles]

theorem State.endOfCall_cycles (s : State) : s.endOfCall.cycles = s.cycles := by
  unfold State.endOfCall
  split <;> rfl

/-- A conditional change that adds nothing. -/
theorem State.ite_cycles {s t : State} {n : Nat} {p : Prop} [Decidable p] (ht : t.cycles = n) (hs : s.cycles = n) :
    (if p then t else s).cycles = n := by
  split
  · exact ht
  · exact hs

end Machine

/-! ### Each instruction -/

section
variable {i : Instr} {s t u : State} {k n : Nat}

theorem Instr.takes_of_withOperandFlags (h : exec i s = withOperandFlags u (.next t)) (ht : t.cycles = s.cycles + k)
    (hn : 4 * (encode i).length + k = n) : i.takes s n := by
  unfold withOperandFlags at h
  split at h
  · exact Instr.takes_of_exec h ht hn
  · intro _ v hv
    cases h.symm.trans hv

end

theorem Machine.aluAddRegister_next (v : Byte) (s : State) :
    ∃ f, aluAddRegister v s = .next (s.setAluResult (addResult s.cpu.a v false) f) := by
  unfold aluAddRegister
  split <;> exact ⟨_, rfl⟩

/-- Every instruction but the table's row for the byte 0xCB takes what the timing table says. -/
theorem exec_takes (i : Instr) (s : State) (hi : i ≠ .prefixCb) : i.takes s (callCycles s.cpu.flags i) := by
  cases i
  case prefixCb => exact absurd rfl hi
  -- no access
  case nop | rlca | rrca | rla | rra | daa | cpl | scf | ccf | halt | andR | andN | xorR | xorN | orR | orN | jrE |
      jpNn | di | ei | addSpE | jpHl | ldHlSpE | ldSpHl | addHlRr | bitR | unknownD3 | unknownDB | unknownDD | unknownE3 |
      unknownE4 | unknownEB | unknownEC | unknownED | unknownF4 | unknownFC | unknownFD =>
    exact Instr.takes_of_exec (k := 0) rfl rfl rfl
  case ldRR | ldRN | resR | setR | incR | decR | rlcR | rrcR | rlR | rrR | slaR | sraR | swapR | srlR =>
    exact Instr.takes_of_exec (k := 0) rfl (s.setReg8_cycles _ _) rfl
  case ldRrNn | incRr | decRr => exact Instr.takes_of_exec (k := 0) rfl (s.setReg16_cycles _ _) rfl
  case jpCcNn | jrCcE | stop => exact Instr.takes_of_exec (k := 0) rfl (State.ite_cycles rfl rfl) rfl
  case addAR r =>
    obtain ⟨f, h⟩ := aluAddRegister_next (s.reg8 r) s
    exact Instr.takes_of_exec (k := 0) h rfl rfl
  case addAN | adcAR | adcAN | subR | subN | sbcAR | sbcAN | cpR | cpN =>
    exact Instr.takes_of_withOperandFlags (k := 0) rfl rfl rfl
  -- one read
  case ldABc | ldADe | ldAHlInc | ldAHlDec | andHl | xorHl | orHl | ldhAN | ldAC | ldANn | bitHl =>
    exact Instr.takes_of_exec (k := 4) rfl rfl rfl
  case ldRHl => exact Instr.takes_of_exec (k := 4) rfl (s.tick.setReg8_cycles _ _) rfl
  case addAHl | adcAHl | subHl | sbcAHl | cpHl => exact Instr.takes_of_withOperandFlags (k := 4) rfl rfl rfl
  -- one write
  case ldBcA | ldDeA | ldHlR | ldHlN | ldhNA | ldCA | ldNnA | ldHlIncA | ldHlDecA =>
    exact Instr.takes_of_exec (k := 4) rfl (s.memWrite_cycles _ _) rfl
  -- a read and a write
  case incHl => exact Instr.takes_of_exec (k := 8) (exec_incHl s) rfl rfl
  case decHl => exact Instr.takes_of_exec (k := 8) (exec_decHl s) rfl rfl
  case rlcHl | rrcHl | rlHl | rrHl | slaHl | sraHl | swapHl | srlHl =>
    exact Instr.takes_of_exec (k := 8) rfl (rotateAtHl_cycles _ s) rfl
  case resHl | setHl => exact Instr.takes_of_exec (k := 8) rfl (modifyAtHl_cycles _ s) rfl
  -- two writes
  case ldNnSp => exact Instr.takes_of_exec (k := 8) rfl (s.memWrite16_cycles _ _) rfl
  case pushRr | pushAf => exact Instr.takes_of_exec (k := 8) rfl (s.push16_cycles _) rfl
  case callNn | rst => exact Instr.takes_of_exec (k := 8) rfl (s.callTo_cycles _) rfl
  -- two reads
  case ret | reti | popAf => exact Instr.takes_of_exec (k := 8) rfl rfl rfl
  case popRr => exact Instr.takes_of_exec (k := 8) rfl (s.pop16.2.setPair_cycles _ _) rfl
  -- a call or a return, if the condition holds
  case callCcNn cc nn =>
    refine Instr.takes_of_exec (k := if s.cpu.flags.holds cc then 8 else 0) rfl ?_ ?_
    · split
      · exact s.callTo_cycles nn
      · rfl
    · show _ = if s.cpu.flags.holds cc then 20 else 12
      split <;> rfl
  case retCc cc =>
    refine Instr.takes_of_exec (k := if s.cpu.flags.holds cc then 8 else 0) rfl ?_ ?_
    · split <;> rfl
    · show _ = if s.cpu.flags.holds cc then 12 else 4
      split <;> rfl

/-- Settles O42: the count of `exec_takes`, which the end of the call leaves. -/
theorem cycleLaw : Obligations.CycleLaw := by
  intro i s t hi hs ht
  obtain ⟨u, hu, rfl⟩ := finishCall_eq_next ht
  rw [State.endOfCall_cycles, exec_takes i s hi hs u hu]

end Sys2Proof
end

section
/-! SUPPORT. A call from a place that reads as 0xFF (70_reset_and_hazards.md R359), and the state after a reset
(R351). -/

namespace Sys2Proof.Machine

/-! ### Places that read as 0xFF -/

theorem Region.size_pos (r : Region) : 0 < r.size := by cases r <;> decide

/-- The upper part of the echo is that of WRAM1 (20_memory.md R62). -/
theorem regionOf_redirect_of_wram1_echo {a : Word} (h1 : 0xF000 ≤ a.toNat) (h2 : a.toNat ≤ 0xFDFF) :
    regionOf (redirect a) = .wram1 := by
  have ha : (redirect a).toNat = a.toNat - 0x2000 := by rw [redirect_toNat, if_pos (by omega)]
  apply regionOf_eq <;> simp only [Region.first, Region.size] <;> omega

section
variable {s : State} {a : Word} {r : Region}

theorem State.readByte_of_locked (h : regionOf (redirect a) = r) (hl : s.regionLocked r = true) :
    s.readByte a = 0xFF := by
  rw [State.readByte_of_region h, if_pos hl]

theorem State.readByte_of_no_bank (h : regionOf (redirect a) = r) (hv : s.bankValid r = false) :
    s.readByte a = 0xFF := by
  rw [State.readByte_of_region h, if_neg (Bool.eq_false_iff.1 hv), ite_self]

/-- An address in the bounds of a region other than the echo is not redirected. -/
theorem regionOf_redirect_of_bounds (hr : r ≠ .echo) (h1 : r.first ≤ a.toNat) (h2 : a.toNat ≤ r.first + r.size - 1) :
    regionOf (redirect a) = r := by
  have hs := r.size_pos
  have ha : regionOf a = r := regionOf_eq a r h1 (by omega)
  rw [redirect_other a (ha ▸ hr), ha]

end

/-! ### The call -/

/-- Where PC reads as 0xFF the instruction is `RST 38` (70_reset_and_hazards.md R359). -/
theorem decode_nextBytes_of_ff {s : State} (h : s.readByte s.cpu.pc = 0xFF) :
    decode s.nextBytes = .ok (.rst 0x0038, []) := by
  obtain ⟨operands, hlen, hs⟩ := s.nextBytes_eq_cons
  rw [h] at hlen hs
  obtain rfl := List.eq_nil_of_length_eq_zero (Nat.succ.inj hlen)
  rw [hs]
  rfl

theorem finishCall_rst {s : State} (hs : s.cpu.imeSched = .none) (target : Word) :
    finishCall (.rst target) s = .next (s.callTo target) := by
  show Host.Outcome.next (s.callTo target).endOfCall = _
  rw [State.endOfCall_none]
  rw [State.callTo_eq]
  exact hs

/-- Settles O48: every place of the list reads as 0xFF, which is `RST 38`, and its call pushes PC + 1. -/
theorem fetchFromDeniedPlaceIsRst38 : Obligations.FetchFromDeniedPlaceIsRst38 := by
  intro s hc hh hhalted hp hsched hplace
  have hff : s.readByte s.cpu.pc = 0xFF := by
    have region (r : Region) := regionOf_redirect_of_bounds (a := s.cpu.pc) (r := r)
    obtain ⟨h1, h2⟩ | ⟨h1, h2, hl⟩ | ⟨h1, h2, hl⟩ | ⟨h1, h2, hv⟩ | ⟨h1, h2, hv⟩ | ⟨h1, h2, hv⟩ | ⟨h1, h2, hv⟩ |
      ⟨h1, h2, hv⟩ := hplace
    · exact State.readByte_of_no_bank (region .unassigned nofun h1 h2) rfl
    · exact State.readByte_of_locked (region .vram nofun h1 h2) hl
    · exact State.readByte_of_locked (region .oam nofun h1 h2) hl
    · exact State.readByte_of_no_bank (region .rom1 nofun h1 h2) (decide_eq_false hv)
    · exact State.readByte_of_no_bank (region .vram nofun h1 h2) (decide_eq_false hv)
    · exact State.readByte_of_no_bank (region .eram nofun h1 h2) (decide_eq_false hv)
    · exact State.readByte_of_no_bank (region .wram1 nofun h1 h2) (decide_eq_false hv)
    · exact State.readByte_of_no_bank (regionOf_redirect_of_wram1_echo h1 h2) (decide_eq_false hv)
  have hfetch : s.afterFetch = { s with cpu := { s.cpu with pc := s.cpu.pc + 1, halted := false }, cycles := 4 } := by
    rw [State.afterFetch, hff]
    rfl
  rw [step, State.hostTurn_nil hh, execute_running hc hhalted hp (decode_nextBytes_of_ff hff),
    finishCall_rst (s := s.afterFetch) hsched, State.callTo_eq, hfetch]
  simp only [State.writeByte_frame]
  rw [← hhalted]

/-! ### Reset -/

/-- The reset flags are the high nibble of the low byte of `RESET_AF`. -/
theorem Cpu.reset_flags (p : Params) : (Cpu.reset p).flags = Flags.ofByte (lowByte p.resetAF) := by
  simp [Cpu.reset, Flags.ofByte, lowByte]

/-- Settles O54: AF by `Cpu.reset_flags`, the pairs by their two bytes, the rest and State.reset by definition. -/
theorem resetPutsEveryRegisterAtItsValue : Obligations.ResetPutsEveryRegisterAtItsValue := by
  refine ⟨fun s => ⟨?_, high_append_low _, high_append_low _, high_append_low _, rfl, rfl, rfl, rfl, rfl, rfl, rfl, rfl,
    rfl, rfl, rfl, rfl, rfl, rfl, rfl⟩, by decide⟩
  show (highByte s.params.resetAF ++ (Cpu.reset s.params).flags.toByte : Word) = s.params.resetAF &&& 0xFFF0
  rw [Cpu.reset_flags, Flags.toByte_ofByte, high_append_low_and]

end Sys2Proof.Machine
end
